-- ==== Sys2Proof/Word.lean ====
section
/-! DEFINITION. The widths the spec gives: bytes, 32-bit register words, and the 4-byte and 8-byte units the cipher works on. -/

namespace Sys2Proof

/-- A byte of working memory (20_memory.md R60). -/
abbrev Byte := BitVec 8

/-- A register word (00_scope.md R9, `REG_WIDTH` = 32). -/
abbrev Word := BitVec 32

/-- Four bytes: one half of a DES block, `R0` to `R3` of 40_des_block.md R117, or the bytes of a register word. -/
structure Half where
  b0 : Byte
  b1 : Byte
  b2 : Byte
  b3 : Byte
deriving DecidableEq, Repr

/-- An 8-byte block `B[0..8]` as its two halves, `B[0..4]` and `B[4..8]` (00_scope.md R14, R18). -/
structure Block where
  lo : Half
  hi : Half
deriving DecidableEq, Repr

end Sys2Proof
end

