-- ==== Sys2Proof/Config.lean ====
section
/-! DEFINITION. The parameters a platform or an implementer fixes (00_scope.md R9), and the values the spec leaves open, as
opaque constants: nothing in Lean can evaluate one or prove which value it has. -/

namespace Sys2Proof

/-- `DES_TABLES` = (IP, FP, TP, SBOX, MASK) (00_scope.md R9, 92_eei_decisions.md D30): the permutations as lists of 1-based
bit numbers, the four S-boxes as lists of 64 bytes, the bit mask as a list of eight bytes. -/
structure DesTables where
  ip   : List Nat
  fp   : List Nat
  tp   : List Nat
  sbox : List (List Byte)
  mask : List Byte
deriving DecidableEq, Repr

/-- The OPEN parameters of 00_scope.md R9 that a rule of the block reads. The state carries them, since a model takes
them as an argument; no step changes them. -/
structure Params where
  /-- `WMEM_SIZE` (20_memory.md R60). -/
  wmemSize  : Nat
  /-- `REG_BASE` (20_memory.md R69). -/
  regBase   : Nat
  /-- `MEM_BASE` (20_memory.md R69). -/
  memBase   : Nat
  /-- `DES_TABLES` (40_des_block.md R111 to R115). -/
  desTables : DesTables
  /-- `IRQ_LINE`: the platform's interrupt input that `irq` drives (60_exceptions.md R280). -/
  irqLine   : Nat
deriving DecidableEq, Repr

/-- FREE VALUE: decides `WMEM_SIZE` of the reset state (log entry 3). -/
opaque Config.wmemUnits : Nat
/-- FREE VALUE: decides `REG_BASE` of the reset state (log entry 3). -/
opaque Config.regPage : Nat
/-- FREE VALUE: decides `MEM_BASE` of the reset state (log entry 3). -/
opaque Config.memSlot : Nat

/-- FREE VALUE: `IRQ_LINE` of the reset state (log entry 3). -/
opaque Config.irqLine : Nat

/-- FREE VALUE: the byte of `WMEM` at an offset after the given power-on, until it is written (70_reset_and_hazards.md
R301, U1; log entry 4). Arguments: which power-on, the offset. -/
opaque Config.powerOnByte : Nat → Nat → Byte

/-- FREE VALUE: an unspecified byte (U2, U3, U5; log entry 5). Arguments: which draw, the offset. -/
opaque Config.freeByte : Nat → Nat → Byte

/-- FREE VALUE: an unspecified register read (U4; log entry 5). Argument: which draw. -/
opaque Config.freeWord : Nat → Word

/-- FREE VALUE: an unspecified choice of two (70_reset_and_hazards.md R311, U5; log entry 6). Argument: which draw. -/
opaque Config.freeBool : Nat → Bool

end Sys2Proof
end

