-- ==== Sys2Proof/Syntax.lean ====
section
/-! DEFINITION. The nine commands, and the moves the outside world makes: host bus accesses and power-on reset. -/

namespace Sys2Proof

/-- The commands of 30_encoding.md R92, one constructor per row of the opcode table. A command word has no operand field
(R91), so no constructor has an argument. -/
inductive Instr where
  /-- `NOP`, 44_control.md R250. -/
  | nop
  /-- `DESBLK`, 40_des_block.md R125. -/
  | desblk
  /-- `SHUFBLK`, 41_cipher_modes.md R143. -/
  | shufblk
  /-- `CYCLE`, 41_cipher_modes.md R148. -/
  | cycle
  /-- `DECHDR`, 41_cipher_modes.md R151. -/
  | dechdr
  /-- `DECMIX`, 41_cipher_modes.md R155. -/
  | decmix
  /-- `DECIPHER`, 41_cipher_modes.md R159. -/
  | decipher
  /-- `INFLATE`, 43_inflate.md R190. -/
  | inflate
  /-- `EXTRACT`, 42_extract.md R170. -/
  | extract
deriving DecidableEq, Repr

/-- Where a host access goes: an offset in the register window, an offset in the working-memory window, or an absolute
bus address that 20_memory.md R69 resolves. -/
inductive BusTarget where
  | reg (off : Nat)
  | mem (off : Nat)
  | addr (a : Nat)
deriving DecidableEq, Repr

/-- The two windows of 20_memory.md R69. -/
inductive Window where
  | reg
  | mem
deriving DecidableEq, Repr

/-- A host access reads or writes. A write's value is right-justified: only its low `8 * width` bits are stored. -/
inductive BusDir where
  | read
  | write (v : Word)
deriving DecidableEq, Repr

/-- One host bus operation (30_encoding.md R100); `width` in bytes. -/
structure BusOp where
  target : BusTarget
  width  : Nat
  dir    : BusDir
deriving DecidableEq, Repr

/-- Why a host access gets a bus error response (20_memory.md R63, R64, 93_implementation_defined.md U7). -/
inductive BusError where
  /-- A register access that is not 32 bits wide (R63). -/
  | regWidth
  /-- A register access at an offset that is no multiple of 4 (R63). -/
  | regMisaligned
  /-- A working-memory access that is not 8, 16 or 32 bits wide (R64). -/
  | memWidth
  /-- A working-memory access that is not naturally aligned (R64). -/
  | memMisaligned
  /-- A working-memory access with `a + n > WMEM_SIZE` (R64). -/
  | memRange
  /-- An address in neither window (R69, U7). -/
  | outsideWindows
deriving DecidableEq, Repr

/-- What a host access that is no bus error answers (30_encoding.md R100). -/
inductive BusResponse where
  | written
  | data (v : Word)
deriving DecidableEq, Repr

/-- One entry of the list that says who moves next (log entry 2). -/
inductive Move where
  /-- The host performs one bus access. -/
  | access (op : BusOp)
  /-- The host performs `wait` (30_encoding.md R101): it reads `STATUS` until `BUSY` reads 0. -/
  | wait
  /-- The engine has its turn: it completes the command it runs, if any (10_state.md R49). -/
  | engine
  /-- The platform asserts and releases `rst` (70_reset_and_hazards.md R300). -/
  | rst
deriving DecidableEq, Repr

end Sys2Proof
end

