-- ==== Sys2Proof/WellFormed.lean ====
section
/-! DEFINITION. Well-formedness: of an instruction (nothing to check), of the DES tables and of the parameters. -/

namespace Sys2Proof

/-- A command has no operand field, so every one is well formed (30_encoding.md R91). One arm per constructor. -/
def Instr.wf : Instr → Bool
  | .nop => true
  | .desblk => true
  | .shufblk => true
  | .cycle => true
  | .dechdr => true
  | .decmix => true
  | .decipher => true
  | .inflate => true
  | .extract => true

/-- A permutation table of `n` entries: every number of `1 .. n` is an entry, and there are `n` entries. -/
def isPermTable (n : Nat) (t : List Nat) : Bool :=
  t.length == n && (List.range n).all fun k => t.contains (k + 1)

/-- `FP` undoes `IP`: output bit `i` of `FP` is input bit `FP[i]`, which `IP` took from bit `i` (40_des_block.md R113). -/
def inverseTables (ip fp : List Nat) : Bool :=
  (List.range 64).all fun i => ip.getD (fp.getD i 0 - 1) 0 == i + 1

/-- `MASK[k] = 0x80 >> k`, for eight entries: what "MSB-first" says (40_des_block.md R111). -/
def isMaskTable (m : List Byte) : Bool := m == (List.range 8).map fun k => 0x80#8 >>> k

/-- The shape 40_des_block.md R111 to R115 give the tables: two mutually inverse permutations of 64 bits, one of 32, four
S-boxes of 64 bytes, and the MSB-first mask. -/
def DesTables.wf (t : DesTables) : Bool :=
  isPermTable 64 t.ip && isPermTable 64 t.fp && isPermTable 32 t.tp &&
  inverseTables t.ip t.fp && t.sbox.length == 4 && (t.sbox.all fun b => b.length == 64) && isMaskTable t.mask

/-- The smallest `p * 2^k` with `k <= fuel` that is at least `n`, or the largest of them. -/
def powerAtLeast (n : Nat) : Nat → Nat → Nat
  | 0, p => p
  | fuel + 1, p => if n ≤ p then p else powerAtLeast n fuel (2 * p)

/-- `WMEM_SIZE` rounded up to a power of two (20_memory.md R69). -/
def wmemAlign (size : Nat) : Nat := powerAtLeast size 31 1

/-- The two windows do not overlap (20_memory.md R69). -/
def disjointWindows (regBase memBase size : Nat) : Bool :=
  regBase + 0x1000 ≤ memBase || memBase + size ≤ regBase

/-- The constraints on the OPEN parameters (00_scope.md R9, 20_memory.md R60, R69). -/
def Params.wf (p : Params) : Bool :=
  p.wmemSize % 8 == 0 && decide (8 ≤ p.wmemSize) && decide (p.wmemSize ≤ 2 ^ 31) &&
  p.regBase % 0x1000 == 0 && p.memBase % wmemAlign p.wmemSize == 0 &&
  disjointWindows p.regBase p.memBase p.wmemSize && p.desTables.wf

end Sys2Proof
end

