-- ==== Sys2Proof/Decode.lean ====
section
/-! DEFINITION. The decoder of 30_encoding.md R93, total on every 32-bit word and rejecting by name, and the encoder. -/

namespace Sys2Proof

/-- Why a word is an illegal command (30_encoding.md R94). -/
inductive DecodeError where
  /-- `w[31:8]` is not 0 (93_implementation_defined.md U9). -/
  | reservedBits
  /-- `w[7:0]` is no opcode of R92 (93_implementation_defined.md U10). -/
  | unassignedOpcode
deriving DecidableEq, Repr

/-- The field `OP` = `w[7:0]` (30_encoding.md R90). -/
def opField (w : Word) : BitVec 8 := w.extractLsb' 0 8

/-- The field `RSV` = `w[31:8]` (30_encoding.md R90). -/
def rsvField (w : Word) : BitVec 24 := w.extractLsb' 8 24

/-- The opcode map of 30_encoding.md R92. -/
def decodeOp (op : BitVec 8) : Except DecodeError Instr :=
  if op = 0x00#8 then .ok .nop
  else if op = 0x01#8 then .ok .desblk
  else if op = 0x02#8 then .ok .shufblk
  else if op = 0x03#8 then .ok .cycle
  else if op = 0x10#8 then .ok .dechdr
  else if op = 0x11#8 then .ok .decmix
  else if op = 0x12#8 then .ok .decipher
  else if op = 0x20#8 then .ok .inflate
  else if op = 0x30#8 then .ok .extract
  else .error .unassignedOpcode

/-- `decode(w)` of 30_encoding.md R93, with the reason where R93 says `Illegal`. -/
def decode (w : Word) : Except DecodeError Instr :=
  if rsvField w ≠ 0#24 then .error .reservedBits else decodeOp (opField w)

/-- The opcode of a command (30_encoding.md R92). -/
def opcode : Instr → BitVec 8
  | .nop => 0x00#8
  | .desblk => 0x01#8
  | .shufblk => 0x02#8
  | .cycle => 0x03#8
  | .dechdr => 0x10#8
  | .decmix => 0x11#8
  | .decipher => 0x12#8
  | .inflate => 0x20#8
  | .extract => 0x30#8

/-- The word of a command: `OP` in bits 7:0, 0 in the reserved bits (30_encoding.md R90). -/
def encode (i : Instr) : Word := (0#24 ++ opcode i)

/-- The low 32 bits of a table word: a command is one 32-bit word, which the host writes to `CMD` (30_encoding.md R90). -/
def tableWord (nbits w : Nat) : Word := BitVec.ofNat 32 (w % 2 ^ nbits)

/-- The instruction the decoder reads from a word of the opcode table, or none where it refuses. -/
def decodeTableWord (nbits w : Nat) : Option Instr :=
  match decode (tableWord nbits w) with
  | .ok i => some i
  | .error _ => none

end Sys2Proof
end

