-- ==== Sys2Proof/Machine/Bytes.lean ====
section
/-! DEFINITION. Byte order and bit order: little-endian words (20_memory.md R67), the bits of a DES block under
a mask table (00_scope.md R13), and the byte sequences of 00_scope.md R14. -/

namespace Sys2Proof

/-- Byte `k` of a register word, byte 0 the least significant (10_state.md R36). -/
def wordByte (w : Word) (k : Nat) : Byte := w.extractLsb' (8 * k) 8

/-- The four bytes of a word, least significant first (20_memory.md R67). -/
def halfOfWord (w : Word) : Half := ⟨wordByte w 0, wordByte w 1, wordByte w 2, wordByte w 3⟩

/-- `le32` of four bytes (00_scope.md R15). -/
def wordOfHalf (h : Half) : Word := h.b3 ++ h.b2 ++ h.b1 ++ h.b0

/-- The unsigned integer of a byte sequence, first byte least significant (`le32` of 00_scope.md R15 at any length). -/
def leNat : List Byte → Nat
  | [] => 0
  | b :: bs => b.toNat + 256 * leNat bs

/-- The unsigned integer of a byte sequence, first byte most significant (`be32` of 00_scope.md R15 at any length). -/
def beNat (bs : List Byte) : Nat := bs.foldl (fun v b => 256 * v + b.toNat) 0

/-- The low `n` bytes of a word, least significant first: what a host write of `n` bytes stores (20_memory.md R67). -/
def leBytes (n : Nat) (w : Word) : List Byte := (List.range n).map (wordByte w)

/-- The four bytes of a half in order. -/
def Half.bytes (h : Half) : List Byte := [h.b0, h.b1, h.b2, h.b3]

/-- The eight bytes of a block in order. -/
def Block.bytes (b : Block) : List Byte :=
  [b.lo.b0, b.lo.b1, b.lo.b2, b.lo.b3, b.hi.b0, b.hi.b1, b.hi.b2, b.hi.b3]

/-- Byte `k` of a half; there is none from 4 on, and it reads 0. -/
def Half.byte (h : Half) : Nat → Byte
  | 0 => h.b0
  | 1 => h.b1
  | 2 => h.b2
  | 3 => h.b3
  | _ => 0#8

/-- Byte `k` of a block; there is none from 8 on, and it reads 0. -/
def Block.byte (b : Block) (k : Nat) : Byte := if k < 4 then b.lo.byte k else b.hi.byte (k - 4)

/-- `MASK[k]` of a mask table (40_des_block.md R111). -/
def maskAt (m : List Byte) (k : Nat) : Byte := m.getD k 0#8

/-- Bit `k` of a half under a mask table, in the mask form of 00_scope.md R13. -/
def Half.bit (m : List Byte) (h : Half) (k : Nat) : Bool := (h.byte (k >>> 3) &&& maskAt m (k &&& 7)) != 0#8

/-- Bit `k` of a block under a mask table: `B[k >> 3] & MASK[k & 7]` (00_scope.md R13). -/
def Block.bit (m : List Byte) (b : Block) (k : Nat) : Bool := (b.byte (k >>> 3) &&& maskAt m (k &&& 7)) != 0#8

/-- `MASK[k]` ORed into a zero byte for each `k` where `f k` holds (40_des_block.md R116). -/
def byteOfBits (m : List Byte) (f : Nat → Bool) : Byte :=
  (List.range 8).foldl (fun o k => if f k then o ||| maskAt m k else o) 0#8

/-- The half assembled from its 32 bits under a mask table. -/
def halfOfBits (m : List Byte) (f : Nat → Bool) : Half :=
  ⟨byteOfBits m f, byteOfBits m fun k => f (8 + k), byteOfBits m fun k => f (16 + k), byteOfBits m fun k => f (24 + k)⟩

/-- The block assembled from its 64 bits under a mask table. -/
def blockOfBits (m : List Byte) (f : Nat → Bool) : Block := ⟨halfOfBits m f, halfOfBits m fun k => f (32 + k)⟩

end Sys2Proof
end

