-- ==== Sys2Proof/Machine/Tables.lean ====
section
/-! DEFINITION. The constant tables of the cipher and of inflate: the default `DES_TABLES` (40_des_block.md R111 to R115),
the swap pairs (41_cipher_modes.md R140), and the length and distance bases (43_inflate.md R201). -/

namespace Sys2Proof.Machine
open Sys2Proof

/-- `MASK`, the MSB-first bit mask (40_des_block.md R111). -/
def maskTable : List Byte := [0x80, 0x40, 0x20, 0x10, 0x08, 0x04, 0x02, 0x01]

/-- `IP`, the initial permutation (40_des_block.md R112): 1-based source bit numbers. -/
def ipTable : List Nat :=
  [58, 50, 42, 34, 26, 18, 10, 2,
   60, 52, 44, 36, 28, 20, 12, 4,
   62, 54, 46, 38, 30, 22, 14, 6,
   64, 56, 48, 40, 32, 24, 16, 8,
   57, 49, 41, 33, 25, 17, 9, 1,
   59, 51, 43, 35, 27, 19, 11, 3,
   61, 53, 45, 37, 29, 21, 13, 5,
   63, 55, 47, 39, 31, 23, 15, 7]

/-- `FP`, the final permutation (40_des_block.md R113): 1-based source bit numbers. -/
def fpTable : List Nat :=
  [40, 8, 48, 16, 56, 24, 64, 32,
   39, 7, 47, 15, 55, 23, 63, 31,
   38, 6, 46, 14, 54, 22, 62, 30,
   37, 5, 45, 13, 53, 21, 61, 29,
   36, 4, 44, 12, 52, 20, 60, 28,
   35, 3, 43, 11, 51, 19, 59, 27,
   34, 2, 42, 10, 50, 18, 58, 26,
   33, 1, 41, 9, 49, 17, 57, 25]

/-- `TP`, the P-box (40_des_block.md R114): 1-based source bit numbers. -/
def tpTable : List Nat :=
  [16, 7, 20, 21, 29, 12, 28, 17,
   1, 15, 23, 26, 5, 18, 31, 10,
   2, 8, 24, 14, 32, 27, 3, 9,
   19, 13, 30, 6, 22, 11, 4, 25]

/-- `SBOX[0]` (40_des_block.md R115). -/
def sbox0 : List Byte :=
  [0xEF, 0x03, 0x41, 0xFD, 0xD8, 0x74, 0x1E, 0x47, 0x26, 0xEF, 0xFB, 0x22, 0xB3, 0xD8, 0x84, 0x1E,
   0x39, 0xAC, 0xA7, 0x60, 0x62, 0xC1, 0xCD, 0xBA, 0x5C, 0x96, 0x90, 0x59, 0x05, 0x3B, 0x7A, 0x85,
   0x40, 0xFD, 0x1E, 0xC8, 0xE7, 0x8A, 0x8B, 0x21, 0xDA, 0x43, 0x64, 0x9F, 0x2D, 0x14, 0xB1, 0x72,
   0xF5, 0x5B, 0xC8, 0xB6, 0x9C, 0x37, 0x76, 0xEC, 0x39, 0xA0, 0xA3, 0x05, 0x52, 0x6E, 0x0F, 0xD9]

/-- `SBOX[1]` (40_des_block.md R115). -/
def sbox1 : List Byte :=
  [0xA7, 0xDD, 0x0D, 0x78, 0x9E, 0x0B, 0xE3, 0x95, 0x60, 0x36, 0x36, 0x4F, 0xF9, 0x60, 0x5A, 0xA3,
   0x11, 0x24, 0xD2, 0x87, 0xC8, 0x52, 0x75, 0xEC, 0xBB, 0xC1, 0x4C, 0xBA, 0x24, 0xFE, 0x8F, 0x19,
   0xDA, 0x13, 0x66, 0xAF, 0x49, 0xD0, 0x90, 0x06, 0x8C, 0x6A, 0xFB, 0x91, 0x37, 0x8D, 0x0D, 0x78,
   0xBF, 0x49, 0x11, 0xF4, 0x23, 0xE5, 0xCE, 0x3B, 0x55, 0xBC, 0xA2, 0x57, 0xE8, 0x22, 0x74, 0xCE]

/-- `SBOX[2]` (40_des_block.md R115). -/
def sbox2 : List Byte :=
  [0x2C, 0xEA, 0xC1, 0xBF, 0x4A, 0x24, 0x1F, 0xC2, 0x79, 0x47, 0xA2, 0x7C, 0xB6, 0xD9, 0x68, 0x15,
   0x80, 0x56, 0x5D, 0x01, 0x33, 0xFD, 0xF4, 0xAE, 0xDE, 0x30, 0x07, 0x9B, 0xE5, 0x83, 0x9B, 0x68,
   0x49, 0xB4, 0x2E, 0x83, 0x1F, 0xC2, 0xB5, 0x7C, 0xA2, 0x19, 0xD8, 0xE5, 0x7C, 0x2F, 0x83, 0xDA,
   0xF7, 0x6B, 0x90, 0xFE, 0xC4, 0x01, 0x5A, 0x97, 0x61, 0xA6, 0x3D, 0x40, 0x0B, 0x58, 0xE6, 0x3D]

/-- `SBOX[3]` (40_des_block.md R115). -/
def sbox3 : List Byte :=
  [0x4D, 0xD1, 0xB2, 0x0F, 0x28, 0xBD, 0xE4, 0x78, 0xF6, 0x4A, 0x0F, 0x93, 0x8B, 0x17, 0xD1, 0xA4,
   0x3A, 0xEC, 0xC9, 0x35, 0x93, 0x56, 0x7E, 0xCB, 0x55, 0x20, 0xA0, 0xFE, 0x6C, 0x89, 0x17, 0x62,
   0x17, 0x62, 0x4B, 0xB1, 0xB4, 0xDE, 0xD1, 0x87, 0xC9, 0x14, 0x3C, 0x4A, 0x7E, 0xA8, 0xE2, 0x7D,
   0xA0, 0x9F, 0xF6, 0x5C, 0x6A, 0x09, 0x8D, 0xF0, 0x0F, 0xE3, 0x53, 0x25, 0x95, 0x36, 0x28, 0xCB]

/-- The default `DES_TABLES` (00_scope.md R9, 92_eei_decisions.md D30). -/
def defaultDesTables : DesTables :=
  { ip := ipTable, fp := fpTable, tp := tpTable, sbox := [sbox0, sbox1, sbox2, sbox3], mask := maskTable }

/-- `SWAP_PAIRS`: exactly the seven pairs of 41_cipher_modes.md R140 (92_eei_decisions.md D31). -/
def swapPairs : List (Byte × Byte) :=
  [(0x00, 0x2B), (0x6C, 0x80), (0x01, 0x68), (0x48, 0x77), (0x60, 0xFF), (0xB9, 0xC0), (0xFE, 0xEB)]

/-- Base and extra bits of the length symbols 257 to 285 (43_inflate.md R201). -/
def lengthTable : List (Nat × Nat) :=
  [(3, 0), (4, 0), (5, 0), (6, 0), (7, 0), (8, 0), (9, 0), (10, 0), (11, 1), (13, 1),
   (15, 1), (17, 1), (19, 2), (23, 2), (27, 2), (31, 2), (35, 3), (43, 3), (51, 3), (59, 3),
   (67, 4), (83, 4), (99, 4), (115, 4), (131, 5), (163, 5), (195, 5), (227, 5), (258, 0)]

/-- Base and extra bits of the distance symbols 0 to 29 (43_inflate.md R201). -/
def distTable : List (Nat × Nat) :=
  [(1, 0), (2, 0), (3, 0), (4, 0), (5, 1), (7, 1), (9, 2), (13, 2), (17, 3), (25, 3),
   (33, 4), (49, 4), (65, 5), (97, 5), (129, 6), (193, 6), (257, 7), (385, 7), (513, 8), (769, 8),
   (1025, 9), (1537, 9), (2049, 10), (3073, 10), (4097, 11), (6145, 11), (8193, 12), (12289, 12), (16385, 13), (24577, 13)]

/-- The order in which a dynamic header gives the code-length code's lengths (43_inflate.md R200, `ORDER`). -/
def codeLengthOrder : List Nat := [16, 17, 18, 0, 8, 7, 9, 6, 10, 5, 11, 4, 12, 3, 13, 2, 14, 1, 15]

end Sys2Proof.Machine
end

