-- ==== Sys2Proof/Machine/Platform.lean ====
section
/-! DEFINITION. The OPEN parameters of the reset state: opaque constants of Config brought into the range the spec allows,
so that every legal value is possible and none is chosen (00_scope.md R9; log entry 3). -/

namespace Sys2Proof.Machine
open Sys2Proof

/-- A `WMEM_SIZE`: a multiple of 8 in 8 .. 2^31 (20_memory.md R60). Every such number is one for some `units`. -/
def openWmemSize (units : Nat) : Nat := 8 * (units % 2 ^ 28 + 1)

/-- A `MEM_BASE` for the given size and `REG_BASE`: aligned, and in a slot whose window does not overlap the register
window (20_memory.md R69). -/
def openMemBase (size regBase slot : Nat) : Nat :=
  if disjointWindows regBase (wmemAlign size * slot) size then wmemAlign size * slot
  else wmemAlign size * ((regBase + 0x1000) / wmemAlign size + 1)

/-- The parameters of the reset state (00_scope.md R9): `DES_TABLES` at its default, the rest free values. -/
def platformParams : Params :=
  { wmemSize := openWmemSize Config.wmemUnits
    regBase := 0x1000 * Config.regPage
    memBase := openMemBase (openWmemSize Config.wmemUnits) (0x1000 * Config.regPage) Config.memSlot
    desTables := defaultDesTables
    irqLine := Config.irqLine }

end Sys2Proof.Machine
end

