-- ==== Sys2Proof/Machine/State.lean ====
section
/-! DEFINITION. The state of GRFDEC (10_state.md), the reasons a step stops, and the state after reset. -/

namespace Sys2Proof.Machine
open Sys2Proof

/-- The engine's phase (10_state.md R46); `STATUS.BUSY` is 1 exactly when it is `busy`. -/
inductive Phase where
  | idle
  | busy
deriving DecidableEq, Repr

/-- Working memory: the bytes that hold a value since power-on, at strictly rising offsets (20_memory.md R60). A byte
that is not listed holds no value of its own; it reads as the power-on free value (log entry 4). -/
abbrev Memory := List Host.Cell

/-- Everything the spec gives the machine, and the model's own fields at the end (INVENTORY.md, State). -/
structure State where
  /-- The OPEN parameters (00_scope.md R9). No step changes them. -/
  params : Params
  /-- `CTRL.IE` (10_state.md R25). -/
  ie : Bool
  /-- The engine's phase and `STATUS.BUSY` (R26, R46). -/
  phase : Phase
  /-- `STATUS.DONE` (R26). -/
  done : Bool
  /-- `STATUS.ERR` (R26). -/
  err : Bool
  /-- `STATUS.WERR` (R26). -/
  werr : Bool
  /-- `STATUS.ECODE` (R26). -/
  ecode : BitVec 8
  /-- `CMD`, and the accepted command word (R27, R46). -/
  cmd : Word
  /-- `SRC` (R28). -/
  src : Word
  /-- `DST` (R29). -/
  dst : Word
  /-- `LEN` (R30). -/
  len : Word
  /-- `CSIZE` (R31). -/
  csize : Word
  /-- `RSIZE` (R32). -/
  rsize : Word
  /-- `TYPE[7:0]` (R33). -/
  typ : Byte
  /-- `OUTLEN` (R34). -/
  outlen : Word
  /-- `CYCLE[4:0]` (R35). -/
  cycle : BitVec 5
  /-- `BLK0` (R36). -/
  blk0 : Word
  /-- `BLK1` (R36). -/
  blk1 : Word
  /-- `WMEM` (20_memory.md R60). -/
  wmem : Memory
  /-- MODEL: which power-on the unlisted bytes of `wmem` were drawn at (log entry 4). -/
  powerOns : Nat
  /-- MODEL: how many unspecified values were drawn (log entry 5). -/
  draws : Nat
  /-- MODEL: the host wrote inside the busy command's footprint (70_reset_and_hazards.md R311; log entry 6). -/
  hostWroteFootprint : Bool
  /-- MODEL: the host wrote the input range of a busy `INFLATE` or `EXTRACT` (R311; log entry 6). -/
  hostWroteInput : Bool
  /-- MODEL: who moves next (log entry 2). -/
  inputs : List Move
  /-- MODEL: what the host's accesses answered, newest first (log entry 2). -/
  responses : List BusResponse
deriving DecidableEq, Repr

/-- Why the machine stops. -/
inductive Fault where
  /-- Raised by a host access that gets a bus error (20_memory.md R63, R64, U7): 'A model treats such an access as a host
  fault.' Safe: the block itself would go on unchanged (log entry 7). -/
  | busError (e : BusError) (op : BusOp)
deriving DecidableEq, Repr

/-- Why an instruction is refused. -/
inductive Refusal where
  /-- Raised by `exec` for an instruction that has no meaning yet; safe. No instruction of this model raises it. -/
  | notModelled (mnemonic : String)
deriving DecidableEq, Repr

/-- The power-on state of 10_state.md R52 and 70_reset_and_hazards.md R300, with the parameters and the contents of
`WMEM` as arguments. -/
def State.powerOn (p : Params) (contents : Memory) : State :=
  { params := p, ie := false, phase := .idle, done := false, err := false, werr := false, ecode := 0#8
    cmd := 0#32, src := 0#32, dst := 0#32, len := 0#32, csize := 0#32, rsize := 0#32, typ := 0#8
    outlen := 0#32, cycle := 0#5, blk0 := 0#32, blk1 := 0#32
    wmem := contents, powerOns := 0, draws := 0, hostWroteFootprint := false, hostWroteInput := false
    inputs := [], responses := [] }

/-- The machine right after power-on reset (10_state.md R52): the OPEN parameters free, every byte of `WMEM` unwritten. -/
def State.reset : State := State.powerOn platformParams []

end Sys2Proof.Machine
end

