-- ==== Sys2Proof/Machine/Flags.lean ====
section
/-! DEFINITION. The flags: the `STATUS` word (10_state.md R26, R38), completion codes (60_exceptions.md R270), and `irq`. -/

namespace Sys2Proof.Machine
open Sys2Proof

/-- The error codes of 60_exceptions.md R270. -/
inductive ErrCode where
  /-- 0x01: the word decodes to `Illegal`. -/
  | illegalCmd
  /-- 0x02: a size check fails. -/
  | malformed
  /-- 0x03: a range leaves `WMEM`. -/
  | range
  /-- 0x04: input and output share a byte. -/
  | overlap
  /-- 0x05: inflate fails or gives another length. -/
  | decompressFail
  /-- 0x06: reserved; no command raises it. -/
  | decryptRequired
deriving DecidableEq, Repr

/-- The number of an error code (60_exceptions.md R270). -/
def ErrCode.code : ErrCode → BitVec 8
  | .illegalCmd => 0x01#8
  | .malformed => 0x02#8
  | .range => 0x03#8
  | .overlap => 0x04#8
  | .decompressFail => 0x05#8
  | .decryptRequired => 0x06#8

/-- The completion code: 0x00 after success (60_exceptions.md R270). -/
def completionCode : Option ErrCode → BitVec 8
  | none => 0x00#8
  | some e => e.code

/-- `STATUS.BUSY` (10_state.md R46). -/
def State.busy (s : State) : Bool := s.phase == .busy

/-- One bit as a field. -/
def bit1 (b : Bool) : BitVec 1 := BitVec.ofBool b

/-- The word a read of `STATUS` returns: `16'b0, ECODE, 4'b0, WERR, ERR, DONE, BUSY` (44_control.md R252). -/
def State.statusWord (s : State) : Word :=
  0#16 ++ s.ecode ++ 0#4 ++ bit1 s.werr ++ bit1 s.err ++ bit1 s.done ++ bit1 s.busy

/-- The word a read of `CTRL` returns; `SRST` and the reserved bits read 0 (10_state.md R25). -/
def State.ctrlWord (s : State) : Word := 0#31 ++ bit1 s.ie

/-- A host write to `STATUS`: bits 1, 2 and 3 are W1C, and bit 2 clears `ECODE` with `ERR` (44_control.md R251). -/
def State.writeStatus (v : Word) (s : State) : State :=
  { s with
    done := s.done && !v.getLsbD 1
    err := s.err && !v.getLsbD 2
    ecode := if v.getLsbD 2 then 0#8 else s.ecode
    werr := s.werr && !v.getLsbD 3 }

/-- `irq = CTRL.IE & STATUS.DONE` (60_exceptions.md R280, 10_state.md R51). -/
def State.irq (s : State) : Bool := s.ie && s.done

/-- The level GRFDEC drives on the platform's interrupt input `n`: `irq` on the input `IRQ_LINE`, none on any other
(60_exceptions.md R280, 00_scope.md R9). -/
def State.drivesInput (n : Nat) (s : State) : Bool := n == s.params.irqLine && s.irq

end Sys2Proof.Machine
end

