-- ==== Sys2Proof/Machine/Memory.lean ====
section
/-! DEFINITION. The operations over working memory as data: reading one byte, writing a run of bytes, the canonical form. -/

namespace Sys2Proof.Machine
open Sys2Proof

/-- Offsets strictly rise from `lo` on. -/
def risingFrom : Nat → Memory → Bool
  | _, [] => true
  | lo, c :: m => decide (lo ≤ c.1) && risingFrom (c.1 + 1) m

/-- The canonical form: offsets strictly rise. An unlisted byte holds no value and a listed one does, so no entry equals
what an unlisted offset holds, and equal memories are equal lists (log entry 4). -/
def Memory.wf (m : Memory) : Bool := risingFrom 0 m

/-- The byte a memory holds at an offset; none where nothing has written since power-on. -/
def Memory.get? (m : Memory) (a : Nat) : Option Byte := (m.find? fun c => c.1 == a).map (·.2)

/-- The bytes `bs` as cells from offset `a` on. -/
def cellsAt : Nat → List Byte → Memory
  | _, [] => []
  | a, b :: bs => (a, b) :: cellsAt (a + 1) bs

/-- `MemWrite(a, n, bs)` with `n = len(bs)` (00_scope.md R15), keeping the canonical form. -/
def Memory.write (m : Memory) (a : Nat) (bs : List Byte) : Memory :=
  if bs.isEmpty then m
  else (m.filter fun c => c.1 < a) ++ cellsAt a bs ++ m.filter fun c => a + bs.length ≤ c.1

end Sys2Proof.Machine
end

