-- ==== Sys2Proof/Machine/Operands.lean ====
section
/-! DEFINITION. The operands of the commands (30_encoding.md R91): the register each comes from, its conversion, the cipher
mode `TYPE` selects, and the range checks. -/

namespace Sys2Proof.Machine
open Sys2Proof

/-- `SRC`, read with `zext_32` (10_state.md R28). -/
abbrev State.opSrc (s : State) : Nat := s.src.toNat

/-- `DST`, read with `zext_32` (10_state.md R29). -/
abbrev State.opDst (s : State) : Nat := s.dst.toNat

/-- `LEN`, read with `sext_32` (10_state.md R30). -/
abbrev State.opLen (s : State) : Int := s.len.toInt

/-- `CSIZE`, read with `sext_32` (10_state.md R31). -/
abbrev State.opCsize (s : State) : Int := s.csize.toInt

/-- `RSIZE`, read with `sext_32` (10_state.md R32). -/
abbrev State.opRsize (s : State) : Int := s.rsize.toInt

/-- `LEN` once it is known not to be negative. -/
def State.lenNat (s : State) : Nat := s.opLen.toNat

/-- `CSIZE` once it is known not to be negative. -/
def State.csizeNat (s : State) : Nat := s.opCsize.toNat

/-- `RSIZE` once it is known not to be negative. -/
def State.rsizeNat (s : State) : Nat := s.opRsize.toNat

/-- `blk()` of 10_state.md R36. -/
def State.blk (s : State) : Block := ⟨halfOfWord s.blk0, halfOfWord s.blk1⟩

/-- `setblk(B)` of 10_state.md R36. -/
def State.setBlk (b : Block) (s : State) : State :=
  { s with blk0 := wordOfHalf b.lo, blk1 := wordOfHalf b.hi }

/-- The cipher modes of 30_encoding.md R96. -/
inductive CipherMode where
  | none
  | mixed
  | header
deriving DecidableEq, Repr

/-- `mode(t)` of 30_encoding.md R96: bit 1 is tested first, then bit 2. -/
def modeOf (t : Byte) : CipherMode :=
  if t &&& 0x02#8 ≠ 0#8 then .mixed else if t &&& 0x04#8 ≠ 0#8 then .header else .none

/-- The mode `TYPE` selects (10_state.md R33). -/
def State.mode (s : State) : CipherMode := modeOf s.typ

/-- `inside(a, n)` on unbounded integers (20_memory.md R62). -/
def State.inside (s : State) (a n : Nat) : Bool := decide (a + n ≤ s.params.wmemSize)

/-- `overlap(a, n, b, k)` of 42_extract.md R170. -/
def overlap (a n b k : Nat) : Bool := decide (0 < n ∧ 0 < k ∧ a < b + k ∧ b < a + n)

/-- The first check that fails, in the order listed (60_exceptions.md R275): each entry is whether the check fails, and
its code. -/
def firstFailure : List (Bool × ErrCode) → Option ErrCode
  | [] => none
  | (fails, e) :: rest => if fails then some e else firstFailure rest

/-- The check phase of `CYCLE` (41_cipher_modes.md R148). -/
def checkCycle (s : State) : Option ErrCode :=
  firstFailure [(decide (s.opCsize < 0), .malformed)]

/-- The check phase of `DECHDR` (41_cipher_modes.md R151). -/
def checkDechdr (s : State) : Option ErrCode :=
  firstFailure
    [(decide (s.opLen < 0 ∨ s.opLen % 8 ≠ 0), .malformed),
     (!s.inside s.opSrc s.lenNat, .range)]

/-- The check phase of `DECMIX` (41_cipher_modes.md R155). -/
def checkDecmix (s : State) : Option ErrCode :=
  firstFailure
    [(decide (s.opLen < 0 ∨ s.opLen % 8 ≠ 0 ∨ s.opCsize < 0), .malformed),
     (!s.inside s.opSrc s.lenNat, .range)]

/-- The check phase of `DECIPHER` (41_cipher_modes.md R159). -/
def checkDecipher (s : State) : Option ErrCode :=
  firstFailure
    [(decide (s.opLen < 0), .malformed),
     (decide (s.mode ≠ .none ∧ s.opLen % 8 ≠ 0), .malformed),
     (decide (s.mode = .mixed ∧ s.opCsize < 0), .malformed),
     (!s.inside s.opSrc s.lenNat, .range)]

/-- The check phase of `INFLATE` (43_inflate.md R190). -/
def checkInflate (s : State) : Option ErrCode :=
  firstFailure
    [(decide (s.opCsize < 0 ∨ s.opRsize < 0), .malformed),
     (!s.inside s.opSrc s.csizeNat || !s.inside s.opDst s.rsizeNat, .range),
     (overlap s.opSrc s.csizeNat s.opDst s.rsizeNat, .overlap)]

/-- The check phase of `EXTRACT` (42_extract.md R170). -/
def checkExtract (s : State) : Option ErrCode :=
  firstFailure
    [(decide (s.opLen < 0 ∨ s.opCsize < 0 ∨ s.opRsize < 0), .malformed),
     (decide (s.mode ≠ .none ∧ s.opLen % 8 ≠ 0), .malformed),
     (decide (s.opLen < s.opCsize), .malformed),
     (!s.inside s.opSrc s.lenNat || !s.inside s.opDst s.rsizeNat, .range),
     (overlap s.opSrc s.lenNat s.opDst s.rsizeNat, .overlap)]

/-- The check phase of a command; `NOP`, `DESBLK` and `SHUFBLK` check nothing (60_exceptions.md R270). -/
def checkOf : Instr → State → Option ErrCode
  | .nop, _ => none
  | .desblk, _ => none
  | .shufblk, _ => none
  | .cycle, s => checkCycle s
  | .dechdr, s => checkDechdr s
  | .decmix, s => checkDecmix s
  | .decipher, s => checkDecipher s
  | .inflate, s => checkInflate s
  | .extract, s => checkExtract s

/-- A range of `WMEM` offsets. -/
structure Span where
  start : Nat
  count : Nat
deriving DecidableEq, Repr

/-- An offset lies in a range. -/
def Span.has (r : Span) (a : Nat) : Bool := decide (r.start ≤ a ∧ a < r.start + r.count)

/-- `[SRC, SRC + LEN)`. -/
def State.payloadSpan (s : State) : Span := ⟨s.opSrc, s.lenNat⟩

/-- `[SRC, SRC + CSIZE)`. -/
def State.streamSpan (s : State) : Span := ⟨s.opSrc, s.csizeNat⟩

/-- `[DST, DST + RSIZE)`. -/
def State.resultSpan (s : State) : Span := ⟨s.opDst, s.rsizeNat⟩

/-- The ranges of a command whose checks pass (20_memory.md R66). -/
def spansOf : Instr → State → List Span
  | .nop, _ => []
  | .desblk, _ => []
  | .shufblk, _ => []
  | .cycle, _ => []
  | .dechdr, s => [s.payloadSpan]
  | .decmix, s => [s.payloadSpan]
  | .decipher, s => [s.payloadSpan]
  | .inflate, s => [s.streamSpan, s.resultSpan]
  | .extract, s => [s.payloadSpan, s.resultSpan]

/-- The input range whose overwriting leaves the completion code open (70_reset_and_hazards.md R311). -/
def inputSpansOf : Instr → State → List Span
  | .nop, _ => []
  | .desblk, _ => []
  | .shufblk, _ => []
  | .cycle, _ => []
  | .dechdr, _ => []
  | .decmix, _ => []
  | .decipher, _ => []
  | .inflate, s => [s.streamSpan]
  | .extract, s => [s.payloadSpan]

/-- Ranges of the command in `CMD`: none for an illegal word or where a check fails (20_memory.md R66). -/
def State.spansWhenRun (spans : Instr → State → List Span) (s : State) : List Span :=
  match decode s.cmd with
  | .ok i => match checkOf i s with
    | none => spans i s
    | some _ => []
  | .error _ => []

/-- The footprint of the command in `CMD` (20_memory.md R66). -/
def State.footprint (s : State) : List Span := s.spansWhenRun spansOf

/-- The input range of the command in `CMD` (70_reset_and_hazards.md R311). -/
def State.inputRange (s : State) : List Span := s.spansWhenRun inputSpansOf

/-- An offset lies in one of the ranges. -/
def inSpans (rs : List Span) (a : Nat) : Bool := rs.any fun r => r.has a

end Sys2Proof.Machine
end

