-- ==== Sys2Proof/Machine/Ops.lean ====
section
/-! DEFINITION. The shared operations: engine accesses to `WMEM`, unspecified bytes, acceptance, completion with and
without an error, and the two resets. -/

namespace Sys2Proof.Machine
open Sys2Proof

/-- The byte of `WMEM` at an offset: what was last written there, else its power-on value, arbitrary and fixed until
written (70_reset_and_hazards.md R301, log entry 4). -/
def State.byteAt (s : State) (a : Nat) : Byte := (s.wmem.get? a).getD (Config.powerOnByte s.powerOns a)

/-- `MemRead(a, n)` (00_scope.md R15). -/
def State.memRead (s : State) (a n : Nat) : List Byte := (List.range n).map fun k => s.byteAt (a + k)

/-- `MemWrite(a, len(bs), bs)` (00_scope.md R15). -/
def State.memWrite (s : State) (a : Nat) (bs : List Byte) : State := { s with wmem := s.wmem.write a bs }

/-- The unspecified bytes of one draw: byte `a + k` is the free value of the draw at that offset (log entry 5). -/
def freeBytes (draw a n : Nat) : List Byte := (List.range n).map fun k => Config.freeByte draw (a + k)

/-- `WMEM[a .. a + n] <- unspecified`, each byte independently (43_inflate.md R190, 70_reset_and_hazards.md R303). -/
def State.spoil (s : State) (a n : Nat) : State :=
  { s with wmem := s.wmem.write a (freeBytes s.draws a n), draws := s.draws + 1 }

/-- Each range in turn becomes unspecified. -/
def State.spoilSpans (rs : List Span) (s : State) : State := rs.foldl (fun s r => s.spoil r.start r.count) s

/-- A command's write of its output range: the bytes, or unspecified bytes where the host wrote inside the footprint
while the command ran (70_reset_and_hazards.md R311). -/
def State.writeOutput (s : State) (a : Nat) (bs : List Byte) : State :=
  if s.hostWroteFootprint then s.spoil a bs.length else s.memWrite a bs

/-- `OUTLEN` becomes 0 at the acceptance of these words (10_state.md R48). -/
def clearsOutlen (w : Word) : Bool := (opField w == 0x20#8 || opField w == 0x30#8) && rsvField w == 0#24

/-- Command acceptance: one atomic host step (10_state.md R48). `WERR` is unchanged. -/
def State.accept (w : Word) (s : State) : State :=
  { s with
    cmd := w, phase := .busy, done := false, err := false, ecode := 0x00#8
    outlen := if clearsOutlen w then 0#32 else s.outlen
    hostWroteFootprint := false, hostWroteInput := false }

/-- Command completion with a code: the one operation by which a command ends (10_state.md R49, 60_exceptions.md R271,
R272, R277). It is also how an error is reported: there is no trap entry. -/
def State.complete (c : Option ErrCode) (s : State) : State :=
  { s with
    phase := .idle, done := true, err := decide (completionCode c ≠ 0x00#8), ecode := completionCode c
    hostWroteFootprint := false, hostWroteInput := false }

/-- `finish()` (60_exceptions.md R271). -/
def State.finish (s : State) : State := s.complete none

/-- `raise Error(c)` (60_exceptions.md R272). -/
def State.raiseError (e : ErrCode) (s : State) : State := s.complete (some e)

/-- A command with a check phase: nothing but the completion where a check fails, else its execute phase
(60_exceptions.md R273). -/
def State.checked (c : Option ErrCode) (execute : State → State) (s : State) : State :=
  match c with
  | some e => s.raiseError e
  | none => execute s

/-- `Abandon()`: the command never completes and every byte of its footprint becomes unspecified
(70_reset_and_hazards.md R303). -/
def State.abandon (s : State) : State := s.spoilSpans s.footprint

/-- The register part of a reset: every register at its reset value, the engine Idle (10_state.md R52). -/
def State.clearRegisters (s : State) : State :=
  { s with
    ie := false, phase := .idle, done := false, err := false, werr := false, ecode := 0x00#8
    cmd := 0#32, src := 0#32, dst := 0#32, len := 0#32, csize := 0#32, rsize := 0#32, typ := 0#8
    outlen := 0#32, cycle := 0#5, blk0 := 0#32, blk1 := 0#32
    hostWroteFootprint := false, hostWroteInput := false }

/-- `SoftReset()` (70_reset_and_hazards.md R302). -/
def State.softReset (s : State) : State := (if s.busy then s.abandon else s).clearRegisters

/-- Power-on reset while the machine runs: registers as R52, every byte of `WMEM` a fresh arbitrary value
(70_reset_and_hazards.md R300, R301). -/
def State.powerOnReset (s : State) : State :=
  { s.clearRegisters with wmem := [], powerOns := s.powerOns + 1 }

end Sys2Proof.Machine
end

