-- ==== Sys2Proof/Machine/Control.lean ====
section
/-! DEFINITION. The command `NOP` (44_control.md R250). -/

namespace Sys2Proof.Machine
open Sys2Proof

/-- `NOP` (44_control.md R250). -/
def execNop (s : State) : Host.Outcome State Fault Refusal := .next s.finish

end Sys2Proof.Machine
end

