-- ==== Sys2Proof/Machine/Des.lean ====
section
/-! DEFINITION. The single-round DES block decrypt (40_des_block.md) and the command `DESBLK`. -/

namespace Sys2Proof.Machine
open Sys2Proof

/-- The 0-based source bit of output bit `i` under a table of 1-based numbers (40_des_block.md R116). -/
def sourceBit (t : List Nat) (i : Nat) : Nat := t.getD i 0 - 1

/-- `PERM64(B, T)` with the mask `m`: output bit `i` is input bit `T[i] - 1` (40_des_block.md R116). -/
def perm64 (m : List Byte) (t : List Nat) (b : Block) : Block := blockOfBits m fun i => b.bit m (sourceBit t i)

/-- `PBOX(S)` with the mask `m`: output bit `i` is input bit `TP[i] - 1` (40_des_block.md R119). -/
def pbox (m : List Byte) (t : List Nat) (s : Half) : Half := halfOfBits m fun i => s.bit m (sourceBit t i)

/-- `((hi << left) | (lo >> right)) & 0x3f`, the bytes first promoted to a wider integer (40_des_block.md R117,
00_scope.md R11). -/
def sixBits (hi : Byte) (left : Nat) (lo : Byte) (right : Nat) : Nat :=
  ((hi.toNat <<< left) ||| (lo.toNat >>> right)) &&& 0x3f

/-- The eight 6-bit values `E0` to `E7` of 40_des_block.md R117. -/
structure Expanded where
  e0 : Nat
  e1 : Nat
  e2 : Nat
  e3 : Nat
  e4 : Nat
  e5 : Nat
  e6 : Nat
  e7 : Nat
deriving DecidableEq, Repr

/-- `EXPAND(R)` (40_des_block.md R117). -/
def expand (r : Half) : Expanded :=
  { e0 := sixBits r.b3 5 r.b0 3
    e1 := sixBits r.b0 1 r.b1 7
    e2 := sixBits r.b0 5 r.b1 3
    e3 := sixBits r.b1 1 r.b2 7
    e4 := sixBits r.b1 5 r.b2 3
    e5 := sixBits r.b2 1 r.b3 7
    e6 := sixBits r.b2 5 r.b3 3
    e7 := sixBits r.b3 1 r.b0 7 }

/-- `SBOX[i][x]` (40_des_block.md R115). -/
def sboxAt (t : DesTables) (i x : Nat) : Byte := (t.sbox.getD i []).getD x 0#8

/-- `S_i = (SBOX[i][Ea] & 0xF0) | (SBOX[i][Eb] & 0x0F)` (40_des_block.md R118). -/
def substByte (t : DesTables) (i ea eb : Nat) : Byte :=
  (sboxAt t i ea &&& 0xF0#8) ||| (sboxAt t i eb &&& 0x0F#8)

/-- `SUBST(E)` (40_des_block.md R118). -/
def subst (t : DesTables) (e : Expanded) : Half :=
  ⟨substByte t 0 e.e0 e.e1, substByte t 1 e.e2 e.e3, substByte t 2 e.e4 e.e5, substByte t 3 e.e6 e.e7⟩

/-- The round output `F`, of the right half alone: steps 2 to 4 of 40_des_block.md R120. -/
def roundOutput (t : DesTables) (r : Half) : Half := pbox t.mask t.tp (subst t (expand r))

/-- Bytewise XOR of two halves. -/
def xorHalf (x y : Half) : Half := ⟨x.b0 ^^^ y.b0, x.b1 ^^^ y.b1, x.b2 ^^^ y.b2, x.b3 ^^^ y.b3⟩

/-- One Feistel round without swap: `L` becomes `L ^ F`, `R` passes through (40_des_block.md R120, 90_conflicts.md C1). -/
def feistel (t : DesTables) (b : Block) : Block := ⟨xorHalf b.lo (roundOutput t b.hi), b.hi⟩

/-- `DESDEC(B)` (40_des_block.md R120). -/
def desDec (t : DesTables) (b : Block) : Block := perm64 t.mask t.fp (feistel t (perm64 t.mask t.ip b))

/-- `DESBLK` (40_des_block.md R125). -/
def execDesblk (s : State) : Host.Outcome State Fault Refusal :=
  .next (s.setBlk (desDec s.params.desTables s.blk)).finish

end Sys2Proof.Machine
end

