-- ==== Sys2Proof/Machine/Cipher.lean ====
section
/-! DEFINITION. Shuffle-decode, the cycle, header-only and mixed mode (41_cipher_modes.md), and the commands `SHUFBLK`,
`CYCLE`, `DECHDR`, `DECMIX` and `DECIPHER`. -/

namespace Sys2Proof.Machine
open Sys2Proof

/-- The partner of a byte under a list of swap pairs, or the byte itself. -/
def swapIn : List (Byte × Byte) → Byte → Byte
  | [], v => v
  | (x, y) :: rest, v => if v = x then y else if v = y then x else swapIn rest v

/-- `SWAP[v]` (41_cipher_modes.md R140). -/
def swap (v : Byte) : Byte := swapIn swapPairs v

/-- `SHUF(X)` (41_cipher_modes.md R142). -/
def shuf (x : Block) : Block :=
  ⟨⟨x.lo.b3, x.hi.b0, x.hi.b2, x.lo.b0⟩, ⟨x.lo.b1, x.lo.b2, x.hi.b1, swap x.hi.b3⟩⟩

/-- The number of decimal digits of `n`; `fuel` bounds the divisions. -/
def digitsWithin : Nat → Nat → Nat
  | 0, _ => 1
  | fuel + 1, n => if n < 10 then 1 else digitsWithin fuel (n / 10) + 1

/-- `DIGITS(n)`, with `DIGITS(0) = 1` (41_cipher_modes.md R145). -/
def digits (n : Nat) : Nat := digitsWithin n n

/-- `CYCLEOF(cs)` (41_cipher_modes.md R146). -/
def cycleOf (cs : Nat) : Nat :=
  if digits cs < 3 then 1
  else if digits cs < 5 then digits cs + 1
  else if digits cs < 7 then digits cs + 9
  else digits cs + 15

/-- What a mode does to one block. -/
inductive Action where
  | des
  | shuffle
  | plain
deriving DecidableEq, Repr

/-- A block after an action. -/
def Action.apply (t : DesTables) : Action → Block → Block
  | .des, b => desDec t b
  | .shuffle, b => shuf b
  | .plain, b => b

/-- `HDRDEC` from block `i` on: the blocks below 20 are DES-decrypted, the rest stays (41_cipher_modes.md R149). -/
def hdrFrom (t : DesTables) : Nat → List Byte → List Byte
  | i, b0 :: b1 :: b2 :: b3 :: b4 :: b5 :: b6 :: b7 :: rest =>
    ((if i < 20 then Action.des else Action.plain).apply t ⟨⟨b0, b1, b2, b3⟩, ⟨b4, b5, b6, b7⟩⟩).bytes
      ++ hdrFrom t (i + 1) rest
  | _, rest => rest

/-- `HDRDEC(buf)` (41_cipher_modes.md R149). -/
def hdrDec (t : DesTables) (buf : List Byte) : List Byte := hdrFrom t 0 buf

/-- Whether mixed mode advances `j` at block `i` (41_cipher_modes.md R152). -/
def advancesJ (c i : Nat) : Bool := decide (20 ≤ i ∧ i % c ≠ 0)

/-- What mixed mode does to block `i` when the counter, advanced if this block advances it, is `j`
(41_cipher_modes.md R152). -/
def mixAction (c i : Nat) (j : Int) : Action :=
  if advancesJ c i then (if j ≠ 0 ∧ j % 7 = 0 then .shuffle else .plain) else .des

/-- `MIXDEC` from block `i` on, with the counter `j` as block `i - 1` left it (41_cipher_modes.md R152). -/
def mixFrom (t : DesTables) (c : Nat) : Nat → Int → List Byte → List Byte
  | i, j, b0 :: b1 :: b2 :: b3 :: b4 :: b5 :: b6 :: b7 :: rest =>
    ((mixAction c i (if advancesJ c i then j + 1 else j)).apply t ⟨⟨b0, b1, b2, b3⟩, ⟨b4, b5, b6, b7⟩⟩).bytes
      ++ mixFrom t c (i + 1) (if advancesJ c i then j + 1 else j) rest
  | _, _, rest => rest

/-- `MIXDEC(buf, cs)` (41_cipher_modes.md R152). -/
def mixDec (t : DesTables) (buf : List Byte) (cs : Nat) : List Byte := mixFrom t (cycleOf cs) 0 (-1) buf

/-- `DECODE(buf, t, cs)` (41_cipher_modes.md R158). -/
def decodeBuf (t : DesTables) (m : CipherMode) (buf : List Byte) (cs : Nat) : List Byte :=
  match m with
  | .mixed => mixDec t buf cs
  | .header => hdrDec t buf
  | .none => buf

/-- `x[CYCLE] <- CYCLEOF(CSIZE)` (41_cipher_modes.md R148, 10_state.md R35). -/
def State.setCycle (s : State) : State := { s with cycle := BitVec.ofNat 5 (cycleOf s.csizeNat) }

/-- `CYCLE` is written in mixed mode alone (41_cipher_modes.md R159, 42_extract.md R170). -/
def State.setCycleIn (m : CipherMode) (s : State) : State := if m = .mixed then s.setCycle else s

/-- The deciphered payload `DECODE(MemRead(SRC, LEN), mode, CSIZE)`. -/
def State.deciphered (m : CipherMode) (s : State) : List Byte :=
  decodeBuf s.params.desTables m (s.memRead s.opSrc s.lenNat) s.csizeNat

/-- Decipher `[SRC, SRC + LEN)` in place in a mode. With neither cipher bit nothing is written (41_cipher_modes.md R159),
unless the host wrote inside the footprint meanwhile (70_reset_and_hazards.md R311). -/
def State.decipherInPlace (m : CipherMode) (s : State) : State :=
  if m = .none ∧ s.hostWroteFootprint = false then s
  else (s.setCycleIn m).writeOutput s.opSrc (s.deciphered m)

/-- `SHUFBLK` (41_cipher_modes.md R143). -/
def execShufblk (s : State) : Host.Outcome State Fault Refusal :=
  .next (s.setBlk (shuf s.blk)).finish

/-- `CYCLE` (41_cipher_modes.md R148). -/
def execCycle (s : State) : Host.Outcome State Fault Refusal :=
  .next (s.checked (checkCycle s) fun s => s.setCycle.finish)

/-- `DECHDR` (41_cipher_modes.md R151). -/
def execDechdr (s : State) : Host.Outcome State Fault Refusal :=
  .next (s.checked (checkDechdr s) fun s => (s.decipherInPlace .header).finish)

/-- `DECMIX` (41_cipher_modes.md R155). -/
def execDecmix (s : State) : Host.Outcome State Fault Refusal :=
  .next (s.checked (checkDecmix s) fun s => (s.decipherInPlace .mixed).finish)

/-- `DECIPHER` (41_cipher_modes.md R159). -/
def execDecipher (s : State) : Host.Outcome State Fault Refusal :=
  .next (s.checked (checkDecipher s) fun s => (s.decipherInPlace s.mode).finish)

end Sys2Proof.Machine
end

