-- ==== Sys2Proof/Machine/Zlib.lean ====
section
/-! DEFINITION. The zlib and deflate decoder `ZINFLATE` (43_inflate.md R191 to R206), a total function of the input bytes
and the required length. A position is a bit index into the input; the output is held newest byte first. -/

namespace Sys2Proof.Machine
open Sys2Proof

/-- `getbit()`: the bit at `pos` and the next position; none on an input overrun (43_inflate.md R192). -/
def getBit (s : List Byte) (pos : Nat) : Option (Nat × Nat) :=
  if 8 * s.length ≤ pos then none
  else some (((s.getD (pos >>> 3) 0#8).toNat >>> (pos &&& 7)) &&& 1, pos + 1)

/-- `getbits(n)`: the first bit read is bit 0 (43_inflate.md R192). -/
def getBits (s : List Byte) : Nat → Nat → Option (Nat × Nat)
  | 0, pos => some (0, pos)
  | n + 1, pos => do
    let (b, p) ← getBit s pos
    let (v, q) ← getBits s n p
    some (b + 2 * v, q)

/-- `align()` (43_inflate.md R192). -/
def alignByte (pos : Nat) : Nat := 8 * ((pos + 7) / 8)

/-- `emit(b)`: none on an output overrun (43_inflate.md R193). -/
def emit (rs : Nat) (b : Byte) (out : List Byte) : Option (List Byte) :=
  if out.length = rs then none else some (b :: out)

/-- The zlib header: the position after it, or none where a check of 43_inflate.md R194 fails. -/
def zlibHeader (s : List Byte) : Option Nat := do
  let (cmf, p) ← getBits s 8 0
  let (flg, q) ← getBits s 8 p
  if cmf % 16 ≠ 8 ∨ 7 < cmf / 16 ∨ (cmf * 256 + flg) % 31 ≠ 0 ∨ (flg / 32) % 2 = 1 then none
  else some q

/-- A canonical Huffman code (43_inflate.md R196): for each length 1 to 15 the first code of that length and the symbols of
that length in increasing order, the code of the `k`-th being the first plus `k`; then `left` and `maxlen`. -/
structure Huffman where
  rows   : List (Nat × List Nat)
  left   : Nat
  maxlen : Nat
deriving DecidableEq, Repr

/-- The symbols of a code length, in increasing order; `sym` numbers the first of `lens`. -/
def symbolsOf (l : Nat) : Nat → List Nat → List Nat
  | _, [] => []
  | sym, x :: lens => if x = l then sym :: symbolsOf l (sym + 1) lens else symbolsOf l (sym + 1) lens

/-- The code lengths 1 to 15. -/
def codeLengths : List Nat := [1, 2, 3, 4, 5, 6, 7, 8, 9, 10, 11, 12, 13, 14, 15]

/-- `left` after the given lengths; none where the code is over-subscribed (43_inflate.md R196). -/
def leftAfter (lens : List Nat) : List Nat → Nat → Option Nat
  | [], left => some left
  | l :: ls, left =>
    if 2 * left < lens.count l then none else leftAfter lens ls (2 * left - lens.count l)

/-- The rows of a code: `code <- (code + count[l-1]) << 1` at each length (43_inflate.md R196). -/
def codeRows (lens : List Nat) : List Nat → Nat → Nat → List (Nat × List Nat)
  | [], _, _ => []
  | l :: ls, code, prev =>
    ((code + prev) <<< 1, symbolsOf l 0 lens) :: codeRows lens ls ((code + prev) <<< 1) (lens.count l)

/-- `BUILD(lens)`; none stands for `OverSubscribed` (43_inflate.md R196). -/
def buildCode (lens : List Nat) : Option Huffman := do
  let left ← leftAfter lens codeLengths 1
  some { rows := codeRows lens codeLengths 0 0, left := left, maxlen := lens.foldl max 0 }

/-- The symbol whose code is `c` among those of one length. -/
def symbolAt (row : Nat × List Nat) (c : Nat) : Option Nat :=
  if row.1 ≤ c then row.2[c - row.1]? else none

/-- `DECODESYM` over the rows still to try, with the bits `c` read so far (43_inflate.md R196). -/
def decodeSymIn (s : List Byte) : List (Nat × List Nat) → Nat → Nat → Option (Nat × Nat)
  | [], _, _ => none
  | row :: rows, c, pos => do
    let (b, p) ← getBit s pos
    match symbolAt row ((c <<< 1) ||| b) with
    | some sym => some (sym, p)
    | none => decodeSymIn s rows ((c <<< 1) ||| b) p

/-- `DECODESYM(code)`: the symbol and the position after it (43_inflate.md R196). -/
def decodeSym (s : List Byte) (code : Huffman) (pos : Nat) : Option (Nat × Nat) := decodeSymIn s code.rows 0 pos

/-- `len` bytes of input to the output from a byte boundary on (43_inflate.md R198). -/
def copyStored (s : List Byte) (rs : Nat) : Nat → Nat → List Byte → Option (Nat × List Byte)
  | 0, pos, out => some (pos, out)
  | len + 1, pos, out => do
    let (v, p) ← getBits s 8 pos
    let out' ← emit rs (BitVec.ofNat 8 v) out
    copyStored s rs len p out'

/-- `STORED()` (43_inflate.md R198). -/
def storedBlock (s : List Byte) (rs pos : Nat) (out : List Byte) : Option (Nat × List Byte) := do
  let (len, p) ← getBits s 16 (alignByte pos)
  let (nlen, q) ← getBits s 16 p
  if nlen ≠ 0xFFFF - len then none else copyStored s rs len q out

/-- `FIXED_LIT` (43_inflate.md R199). -/
def fixedLitLengths : List Nat :=
  List.replicate 144 8 ++ List.replicate 112 9 ++ List.replicate 24 7 ++ List.replicate 8 8

/-- `FIXED_DIST` (43_inflate.md R199). -/
def fixedDistLengths : List Nat := List.replicate 32 5

/-- The lengths of the code-length code: `ncode` three-bit values in `ORDER`, at their symbols; the rest 0
(43_inflate.md R200). -/
def readCodeLengthLengths (s : List Byte) : List Nat → Nat → List Nat → Option (List Nat × Nat)
  | [], pos, cl => some (cl, pos)
  | sym :: order, pos, cl => do
    let (v, p) ← getBits s 3 pos
    readCodeLengthLengths s order p (cl.set sym v)

/-- A repeat symbol 16, 17 or 18: the value, the count and the position after it; `prev` is the last length read
(43_inflate.md R200). -/
def repeatOf (s : List Byte) (sym : Nat) (prev : Option Nat) (pos : Nat) : Option (Nat × Nat × Nat) :=
  if sym = 16 then do
    let v ← prev
    let (x, p) ← getBits s 2 pos
    some (v, 3 + x, p)
  else if sym = 17 then do
    let (x, p) ← getBits s 3 pos
    some (0, 3 + x, p)
  else do
    let (x, p) ← getBits s 7 pos
    some (0, 11 + x, p)

/-- The code lengths of a dynamic header, read newest first until there are `total` (43_inflate.md R200). `fuel` bounds the
symbols read; each adds at least one length. -/
def readLengths (s : List Byte) (code : Huffman) (total : Nat) : Nat → Nat → List Nat → Option (List Nat × Nat)
  | 0, _, _ => none
  | fuel + 1, pos, acc =>
    if total ≤ acc.length then some (acc.reverse, pos)
    else do
      let (sym, p) ← decodeSym s code pos
      if sym < 16 then readLengths s code total fuel p (sym :: acc)
      else do
        let (v, r, q) ← repeatOf s sym acc.head? p
        if total < acc.length + r then none
        else readLengths s code total fuel q (List.replicate r v ++ acc)

/-- An incomplete code is accepted only where no code is longer than one bit (43_inflate.md R200, 90_conflicts.md C10). -/
def acceptable (h : Huffman) : Bool := !(decide (0 < h.left) && decide (1 < h.maxlen))

/-- `DYNAMIC_HEADER()`: the literal/length code, the distance code and the position after the header
(43_inflate.md R200). -/
def dynamicHeader (s : List Byte) (pos : Nat) : Option (Huffman × Huffman × Nat) := do
  let (hlit, p1) ← getBits s 5 pos
  let (hdist, p2) ← getBits s 5 p1
  let (hclen, p3) ← getBits s 4 p2
  let nlen := hlit + 257
  let ndist := hdist + 1
  if 286 < nlen ∨ 30 < ndist then none
  else do
    let (cl, p4) ← readCodeLengthLengths s (codeLengthOrder.take (hclen + 4)) p3 (List.replicate 19 0)
    let clcode ← buildCode cl
    if 0 < clcode.left then none
    else do
      let (lens, p5) ← readLengths s clcode (nlen + ndist) (nlen + ndist + 1) p4 []
      if lens.getD 256 0 = 0 then none
      else do
        let lit ← buildCode (lens.take nlen)
        let dist ← buildCode (lens.drop nlen)
        if acceptable lit && acceptable dist then some (lit, dist, p5) else none

/-- `base + getbits(extra)` for an entry of a base table (43_inflate.md R201). -/
def baseAndExtra (s : List Byte) (entry : Nat × Nat) (pos : Nat) : Option (Nat × Nat) := do
  let (x, p) ← getBits s entry.2 pos
  some (entry.1 + x, p)

/-- The back-reference copy, byte by byte: `out[m - d]`, `len` times (43_inflate.md R202). -/
def copyBack (rs d : Nat) : Nat → List Byte → Option (List Byte)
  | 0, out => some out
  | len + 1, out => do
    let out' ← emit rs (out.getD (d - 1) 0#8) out
    copyBack rs d len out'

/-- The length and distance of a length symbol and the output after the copy (43_inflate.md R202). -/
def matchCopy (s : List Byte) (rs : Nat) (dist : Huffman) (sym pos : Nat) (out : List Byte) :
    Option (Nat × List Byte) := do
  let (len, p1) ← baseAndExtra s (lengthTable.getD (sym - 257) (0, 0)) pos
  let (dsym, p2) ← decodeSym s dist p1
  if 29 < dsym then none
  else do
    let (d, p3) ← baseAndExtra s (distTable.getD dsym (0, 0)) p2
    if out.length < d then none
    else do
      let out' ← copyBack rs d len out
      some (p3, out')

/-- `CODES(lit, dist)` (43_inflate.md R202). `fuel` bounds the symbols read; each takes at least one bit (R207). -/
def codes (s : List Byte) (rs : Nat) (lit dist : Huffman) : Nat → Nat → List Byte → Option (Nat × List Byte)
  | 0, _, _ => none
  | fuel + 1, pos, out => do
    let (sym, p) ← decodeSym s lit pos
    if sym < 256 then do
      let out' ← emit rs (BitVec.ofNat 8 sym) out
      codes s rs lit dist fuel p out'
    else if sym = 256 then some (p, out)
    else if 285 < sym then none
    else do
      let (q, out') ← matchCopy s rs dist sym p out
      codes s rs lit dist fuel q out'

/-- The body of one deflate block of the given type (43_inflate.md R197). -/
def blockBody (s : List Byte) (rs fuel btype pos : Nat) (out : List Byte) : Option (Nat × List Byte) :=
  if btype = 0 then storedBlock s rs pos out
  else if btype = 1 then do
    let lit ← buildCode fixedLitLengths
    let dist ← buildCode fixedDistLengths
    codes s rs lit dist fuel pos out
  else if btype = 2 then do
    let (lit, dist, p) ← dynamicHeader s pos
    codes s rs lit dist fuel p out
  else none

/-- The block loop (43_inflate.md R197). `fuel` bounds the blocks and, in each, the symbols. -/
def blockLoop (s : List Byte) (rs symFuel : Nat) : Nat → Nat → List Byte → Option (Nat × List Byte)
  | 0, _, _ => none
  | fuel + 1, pos, out => do
    let (bfinal, p) ← getBits s 1 pos
    let (btype, q) ← getBits s 2 p
    let (r, out') ← blockBody s rs symFuel btype q out
    if bfinal = 1 then some (r, out') else blockLoop s rs symFuel fuel r out'

/-- The pair `(a, b)` of Adler-32 after a byte (43_inflate.md R205). -/
def adlerStep (ab : Nat × Nat) (v : Byte) : Nat × Nat :=
  ((ab.1 + v.toNat) % 65521, (ab.2 + (ab.1 + v.toNat) % 65521) % 65521)

/-- `ADLER32(out)` (43_inflate.md R205). -/
def adler32 (out : List Byte) : Nat :=
  ((out.foldl adlerStep (1, 0)).2 <<< 16) ||| (out.foldl adlerStep (1, 0)).1

/-- The trailer: four bytes at the next byte boundary, equal to the Adler-32 of the output (43_inflate.md R195). -/
def trailerOk (s : List Byte) (pos : Nat) (out : List Byte) : Bool :=
  let t := (s.drop (alignByte pos / 8)).take 4
  t.length == 4 && beNat t == adler32 out

/-- `ZINFLATE` with a given bound on the passes of its loops (43_inflate.md R197). -/
def zinflateWithin (fuel : Nat) (s : List Byte) (rs : Nat) : Option (List Byte) := do
  let start ← zlibHeader s
  let (pos, out) ← blockLoop s rs fuel fuel start []
  if trailerOk s pos out.reverse && out.length == rs then some out.reverse else none

/-- `ZINFLATE(s, rs)`; none is `Fail` (43_inflate.md R191). Every pass of a loop reads a bit, so `8 * len(s) + 1` passes
are enough (R207). -/
def zinflate (s : List Byte) (rs : Nat) : Option (List Byte) := zinflateWithin (8 * s.length + 1) s rs

end Sys2Proof.Machine
end

