-- ==== Sys2Proof/Machine/Inflate.lean ====
section
/-! DEFINITION. The command `INFLATE` (43_inflate.md R190) and the placing of a result at `DST`, which `EXTRACT` shares. -/

namespace Sys2Proof.Machine
open Sys2Proof

/-- The end of a command that produces `[DST, DST + RSIZE)`, with the output range left unspecified: success sets `OUTLEN`
to `RSIZE`, failure is `DECOMPRESS_FAIL` (43_inflate.md R190, 70_reset_and_hazards.md R311). -/
def State.endUnspecified (ok : Bool) (s : State) : State :=
  ({ s.spoil s.opDst s.rsizeNat with outlen := if ok then s.rsize else s.outlen }).complete
    (if ok then none else some .decompressFail)

/-- The end of a command that produces `[DST, DST + RSIZE)`: the bytes are written and `OUTLEN` is `RSIZE`, or the command
fails with `DECOMPRESS_FAIL` and the range is unspecified (43_inflate.md R190, 42_extract.md R170). Where the host wrote
the input range while the command ran, which of the two happens is unspecified (70_reset_and_hazards.md R311). -/
def State.placeResult (r : Option (List Byte)) (s : State) : State :=
  if s.hostWroteInput then s.endUnspecified (Config.freeBool s.draws)
  else match r with
    | none => s.endUnspecified false
    | some out => { s.writeOutput s.opDst out with outlen := s.rsize }.finish

/-- `INFLATE` (43_inflate.md R190). -/
def execInflate (s : State) : Host.Outcome State Fault Refusal :=
  .next (s.checked (checkInflate s) fun s => s.placeResult (zinflate (s.memRead s.opSrc s.csizeNat) s.rsizeNat))

end Sys2Proof.Machine
end

