-- ==== Sys2Proof/Machine/Extract.lean ====
section
/-! DEFINITION. The command `EXTRACT` (42_extract.md R170): decipher in place, then copy or inflate. -/

namespace Sys2Proof.Machine
open Sys2Proof

/-- What `EXTRACT` places at `DST`: the first `CSIZE` bytes of a stored entry, else their inflation
(42_extract.md R170). -/
def extractResult (cs rs : Nat) (buf : List Byte) : Option (List Byte) :=
  if rs = cs then some (buf.take cs) else zinflate (buf.take cs) rs

/-- `EXTRACT` (42_extract.md R170). -/
def execExtract (s : State) : Host.Outcome State Fault Refusal :=
  .next (s.checked (checkExtract s) fun s =>
    (s.decipherInPlace s.mode).placeResult (extractResult s.csizeNat s.rsizeNat (s.deciphered s.mode)))

end Sys2Proof.Machine
end

