-- ==== Sys2Proof/Machine/Dispatch.lean ====
section
/-! DEFINITION. The meaning of each command: `Exec` of 10_state.md R47 and the completion step of R49. -/

namespace Sys2Proof.Machine
open Sys2Proof

def exec (i : Instr) (s : State) : Host.Outcome State Fault Refusal :=
  match i with
  | .nop => Sys2Proof.Machine.execNop s
  | .desblk => Sys2Proof.Machine.execDesblk s
  | .shufblk => Sys2Proof.Machine.execShufblk s
  | .cycle => Sys2Proof.Machine.execCycle s
  | .dechdr => Sys2Proof.Machine.execDechdr s
  | .decmix => Sys2Proof.Machine.execDecmix s
  | .decipher => Sys2Proof.Machine.execDecipher s
  | .inflate => Sys2Proof.Machine.execInflate s
  | .extract => Sys2Proof.Machine.execExtract s

end Sys2Proof.Machine
end

