-- ==== Sys2Proof/Machine/HostBus.lean ====
section
/-! DEFINITION. The host's side of the bus: the register map (10_state.md R23), register writes and reads (44_control.md R251,
R252), working-memory accesses (20_memory.md R64, R67), bus errors (R63, R64, U7) and the hazards of a busy command
(70_reset_and_hazards.md R311, R312). -/

namespace Sys2Proof.Machine
open Sys2Proof

/-- The registers of 10_state.md R23. -/
inductive Reg where
  | id
  | ctrl
  | status
  | cmd
  | src
  | dst
  | len
  | csize
  | rsize
  | type
  | outlen
  | cycle
  | blk0
  | blk1
  | wmsize
deriving DecidableEq, Repr

/-- The offset of a register in the register window (10_state.md R23). -/
def Reg.offset : Reg → Nat
  | .id => 0x000
  | .ctrl => 0x004
  | .status => 0x008
  | .cmd => 0x00C
  | .src => 0x010
  | .dst => 0x014
  | .len => 0x018
  | .csize => 0x01C
  | .rsize => 0x020
  | .type => 0x024
  | .outlen => 0x028
  | .cycle => 0x02C
  | .blk0 => 0x030
  | .blk1 => 0x034
  | .wmsize => 0x038

/-- Every register. -/
def allRegs : List Reg :=
  [.id, .ctrl, .status, .cmd, .src, .dst, .len, .csize, .rsize, .type, .outlen, .cycle, .blk0, .blk1, .wmsize]

/-- The register at an offset; none at the reserved offsets 0x03C to 0xFFC (10_state.md R23). -/
def regAt (off : Nat) : Option Reg := allRegs.find? fun r => r.offset == off

/-- `ID_VALUE` (10_state.md R24). -/
def idValue : Word := 0x47524601#32

/-- A locked write while busy: ignored, and `WERR` is set (10_state.md R22, 44_control.md R251). -/
def State.locked (write : State → State) (s : State) : State :=
  if s.busy then { s with werr := true } else write s

/-- A host write to `CTRL`: `SRST` wins over `IE` (10_state.md R25, 44_control.md R251). -/
def State.writeCtrl (v : Word) (s : State) : State :=
  if v.getLsbD 1 then s.softReset else { s with ie := v.getLsbD 0 }

/-- A host write of a register: `HostWrite` of 44_control.md R251. -/
def State.writeReg (r : Reg) (v : Word) (s : State) : State :=
  match r with
  | .id => s
  | .ctrl => s.writeCtrl v
  | .status => s.writeStatus v
  | .cmd => s.locked fun s => s.accept v
  | .src => s.locked fun s => { s with src := v }
  | .dst => s.locked fun s => { s with dst := v }
  | .len => s.locked fun s => { s with len := v }
  | .csize => s.locked fun s => { s with csize := v }
  | .rsize => s.locked fun s => { s with rsize := v }
  | .type => s.locked fun s => { s with typ := v.extractLsb' 0 8 }
  | .outlen => s
  | .cycle => s
  | .blk0 => s.locked fun s => { s with blk0 := v }
  | .blk1 => s.locked fun s => { s with blk1 := v }
  | .wmsize => s

/-- A host write at an offset of the register window; the reserved offsets ignore it (44_control.md R251). -/
def State.hostWriteReg (off : Nat) (v : Word) (s : State) : State :=
  match regAt off with
  | none => s
  | some r => s.writeReg r v

/-- A result register read by the host: unspecified while busy (44_control.md R252, 70_reset_and_hazards.md R312). -/
def State.resultReg (s : State) (v : Word) : Word := if s.busy then Config.freeWord s.draws else v

/-- The value a host read of a register returns: `HostRead` of 44_control.md R252. -/
def State.readReg (r : Reg) (s : State) : Word :=
  match r with
  | .id => idValue
  | .ctrl => s.ctrlWord
  | .status => s.statusWord
  | .cmd => s.cmd
  | .src => s.src
  | .dst => s.dst
  | .len => s.len
  | .csize => s.csize
  | .rsize => s.rsize
  | .type => s.typ.setWidth 32
  | .outlen => s.resultReg s.outlen
  | .cycle => s.resultReg (s.cycle.setWidth 32)
  | .blk0 => s.resultReg s.blk0
  | .blk1 => s.resultReg s.blk1
  | .wmsize => BitVec.ofNat 32 s.params.wmemSize

/-- The value a host read at an offset of the register window returns; the reserved offsets read 0 (44_control.md R252). -/
def State.hostReadReg (off : Nat) (s : State) : Word :=
  match regAt off with
  | none => 0#32
  | some r => s.readReg r

/-- A host access to this byte of `WMEM` is a footprint hazard (70_reset_and_hazards.md R311). -/
def State.hazardAt (s : State) (a : Nat) : Bool := s.busy && inSpans s.footprint a

/-- The byte a host read sees (70_reset_and_hazards.md R311). -/
def State.hostByte (s : State) (a : Nat) : Byte :=
  if s.hazardAt a then Config.freeByte s.draws a else s.byteAt a

/-- A host read of `n` bytes of `WMEM`, little-endian and zero-extended (20_memory.md R67, 44_control.md R255). -/
def State.hostReadMem (a n : Nat) (s : State) : Word :=
  BitVec.ofNat 32 (leNat ((List.range n).map fun k => s.hostByte (a + k)))

/-- An access to the `n` bytes from `a` on touches a byte of which `p` holds. -/
def touches (p : Nat → Bool) (a n : Nat) : Bool := (List.range n).any fun k => p (a + k)

/-- A host write of the given bytes from an offset of `WMEM` on: one access, single-copy atomic at its own width
(20_memory.md R65). Where it touches a busy command's footprint it remains as a whole or not at all, and it marks the
command's output (70_reset_and_hazards.md R311; log entry 6). -/
def State.hostWriteMem (a : Nat) (bs : List Byte) (s : State) : State :=
  if touches s.hazardAt a bs.length then
    { s with
      wmem := if Config.freeBool s.draws then s.wmem.write a bs else s.wmem
      draws := s.draws + 1
      hostWroteFootprint := true
      hostWroteInput := s.hostWroteInput || touches (inSpans s.inputRange) a bs.length }
  else s.memWrite a bs

/-- The window and offset a target names; an absolute address is resolved by the map of 20_memory.md R69. -/
def resolve (p : Params) : BusTarget → Option (Window × Nat)
  | .reg off => some (.reg, off)
  | .mem off => some (.mem, off)
  | .addr a =>
    if p.regBase ≤ a ∧ a < p.regBase + 0x1000 then some (.reg, a - p.regBase)
    else if p.memBase ≤ a ∧ a < p.memBase + p.wmemSize then some (.mem, a - p.memBase)
    else none

/-- The bus error of an access at an offset of a window, if it gets one (20_memory.md R63, R64). -/
def windowError (p : Params) (w : Window) (off width : Nat) : Option BusError :=
  match w with
  | .reg =>
    if 0x1000 ≤ off then some .outsideWindows
    else if width ≠ 4 then some .regWidth
    else if off % 4 ≠ 0 then some .regMisaligned
    else none
  | .mem =>
    if width ≠ 1 ∧ width ≠ 2 ∧ width ≠ 4 then some .memWidth
    else if off % width ≠ 0 then some .memMisaligned
    else if p.wmemSize < off + width then some .memRange
    else none

/-- Another draw is used up where the access may have read an unspecified value. -/
def State.afterRead (s : State) : State := if s.busy then { s with draws := s.draws + 1 } else s

/-- Records what an access answered, for the host (log entry 2). -/
def State.answer (r : BusResponse) (s : State) : State := { s with responses := r :: s.responses }

/-- A host access that is no bus error, at an offset of a window. -/
def State.windowAccess (w : Window) (off width : Nat) (d : BusDir) (s : State) : State :=
  match w, d with
  | .reg, .read => s.afterRead.answer (.data (s.hostReadReg off))
  | .reg, .write v => (s.hostWriteReg off v).answer .written
  | .mem, .read => s.afterRead.answer (.data (s.hostReadMem off width))
  | .mem, .write v => (s.hostWriteMem off (leBytes width v)).answer .written

/-- One host bus access: one atomic host step, or a bus error that changes nothing (20_memory.md R63 to R65). -/
def State.hostAccess (op : BusOp) (s : State) : Host.Outcome State Fault Refusal :=
  match resolve s.params op.target with
  | none => .fault (.busError .outsideWindows op)
  | some (w, off) =>
    match windowError s.params w off op.width with
    | some e => .fault (.busError e op)
    | none => .next (s.windowAccess w off op.width op.dir)

end Sys2Proof.Machine
end

