-- ==== Sys2Proof/Machine/Schedule.lean ====
section
/-! DEFINITION. Who moves next: the engine's completion step (10_state.md R49), the host's accesses and the platform's
reset, in the order `State.inputs` gives (60_exceptions.md R276; log entry 2). -/

namespace Sys2Proof.Machine
open Sys2Proof

/-- An illegal word is a command whose pseudocode is `raise Error(ILLEGAL_CMD)` (60_exceptions.md R272). -/
def execIllegal (s : State) : Host.Outcome State Fault Refusal := .next (s.raiseError .illegalCmd)

/-- The completion step of the accepted word in `CMD` (10_state.md R49). -/
def engineStep (s : State) : Host.Outcome State Fault Refusal :=
  match decode s.cmd with
  | .ok i => exec i s
  | .error _ => execIllegal s

/-- The end of the host's `wait`: the `STATUS` read whose `BUSY` is 0 (30_encoding.md R101). -/
def State.endWait (s : State) : State := s.answer (.data s.statusWord)

/-- The state in which the engine completes its command, where it is the engine's turn: it is Busy, and the next move is
the engine's, or the host waits, or nothing is left to come (70_reset_and_hazards.md R316). -/
def State.engineTurn (s : State) : Option State :=
  match s.phase, s.inputs with
  | .busy, [] => some s
  | .busy, .wait :: _ => some s
  | .busy, .engine :: rest => some { s with inputs := rest }
  | _, _ => none

/-- A move of the host or the platform, or an engine turn that finds the engine Idle. -/
def outsideMove (m : Move) (s : State) : Host.Outcome State Fault Refusal :=
  match m with
  | .access op => s.hostAccess op
  | .wait => .next s.endWait
  | .engine => .next s
  | .rst => .next s.powerOnReset

/-- One step of the whole machine. An Idle engine with nothing to come stays as it is. -/
def advance (s : State) : Host.Outcome State Fault Refusal :=
  match s.engineTurn with
  | some t => engineStep t
  | none =>
    match s.inputs with
    | [] => .next s
    | m :: rest => outsideMove m { s with inputs := rest }

/-- A word accepted as a command with the engine's turn next: what a `CMD` write and the engine's turn after it come to
(log entry 8). -/
def State.loadCommand (w : Word) (s : State) : State :=
  { s.accept w with inputs := .engine :: s.inputs }

end Sys2Proof.Machine
end

