-- ==== Sys2Proof/Machine/Program.lean ====
section
/-! DEFINITION. Host programs: the notation of 30_encoding.md R100 and the pseudo-instructions of R101 as lists of moves. -/

namespace Sys2Proof.Machine
open Sys2Proof

/-- `wr REG, v` (30_encoding.md R100). -/
def wr (r : Reg) (v : Word) : Move := .access ⟨.reg r.offset, 4, .write v⟩

/-- `rd REG` (30_encoding.md R100). -/
def rd (r : Reg) : Move := .access ⟨.reg r.offset, 4, .read⟩

/-- `sb`, `sh`, `sw` by width (30_encoding.md R100). -/
def storeMem (width a : Nat) (v : Word) : Move := .access ⟨.mem a, width, .write v⟩

/-- `lb`, `lh`, `lw` by width (30_encoding.md R100). -/
def loadMem (width a : Nat) : Move := .access ⟨.mem a, width, .read⟩

/-- `cmd MNEMONIC` (30_encoding.md R101). -/
def cmdMove (i : Instr) : Move := wr .cmd (encode i)

/-- `ack` (30_encoding.md R101). -/
def ackMove : Move := wr .status 0x00000006#32

/-- `srst` (30_encoding.md R101). -/
def srstMove : Move := wr .ctrl 0x00000002#32

/-- `setblk b0 .. b7` (30_encoding.md R101). -/
def setblkMoves (b : Block) : List Move := [wr .blk0 (wordOfHalf b.lo), wr .blk1 (wordOfHalf b.hi)]

/-- `entry t, la, cs, rs` (30_encoding.md R101). -/
def entryMoves (t la cs rs : Word) : List Move := [wr .type t, wr .len la, wr .csize cs, wr .rsize rs]

/-- `wrm a, s` (30_encoding.md R101): words where the offset is a multiple of 4 and four bytes are left, else bytes. -/
def wrm : Nat → List Byte → List Move
  | a, b0 :: b1 :: b2 :: b3 :: rest =>
    if a % 4 = 0 then storeMem 4 a (wordOfHalf ⟨b0, b1, b2, b3⟩) :: wrm (a + 4) rest
    else storeMem 1 a (b0.setWidth 32) :: wrm (a + 1) (b1 :: b2 :: b3 :: rest)
  | a, b :: rest => storeMem 1 a (b.setWidth 32) :: wrm (a + 1) rest
  | _, [] => []

/-- `rdm a, n` (30_encoding.md R101). -/
def rdm : Nat → Nat → List Move
  | a, n + 4 => if a % 4 = 0 then loadMem 4 a :: rdm (a + 4) n else loadMem 1 a :: rdm (a + 1) (n + 3)
  | a, n + 1 => loadMem 1 a :: rdm (a + 1) n
  | _, 0 => []

end Sys2Proof.Machine
end

