-- ==== Sys2Proof/Safety.lean ====
section
/-! DEFINITION. What holds of every state a run reaches: the machine invariant, in the terms the statements use. -/

namespace Sys2Proof.Machine
open Sys2Proof

/-- The values `CYCLE` can hold: 0 after reset, else a value of `CYCLEOF` (10_state.md R35, 41_cipher_modes.md R147). -/
def legalCycles : List (BitVec 5) := [0#5, 1#5, 4#5, 5#5, 14#5, 15#5, 22#5, 23#5, 24#5, 25#5]

/-- The codes `ECODE` can hold (60_exceptions.md R270, 93_implementation_defined.md U11, U18). -/
def legalCodes : List (BitVec 8) := [0x00#8, 0x01#8, 0x02#8, 0x03#8, 0x04#8, 0x05#8]

/-- The invariant of the machine. -/
structure State.Inv (s : State) : Prop where
  /-- Working memory is in canonical form. -/
  memCanonical : s.wmem.wf = true
  /-- Every byte of `WMEM` that holds a value lies inside `WMEM` (20_memory.md R60). -/
  memInside : ∀ c ∈ s.wmem, c.1 < s.params.wmemSize
  /-- `BUSY = 1 -> DONE = 0 and ERR = 0 and ECODE = 0` (10_state.md R26). -/
  busyClear : s.phase = .busy → s.done = false ∧ s.err = false ∧ s.ecode = 0x00#8
  /-- `ECODE != 0` exactly when `ERR = 1` (10_state.md R26, R49, 44_control.md R251). -/
  errIffCode : s.err = true ↔ s.ecode ≠ 0x00#8
  /-- Only the codes 0x00 to 0x05 are ever reported (60_exceptions.md R270). -/
  codeLegal : s.ecode ∈ legalCodes
  /-- `CYCLE` holds 0 or a value of `CYCLEOF` (10_state.md R35). -/
  cycleLegal : s.cycle ∈ legalCycles
  /-- `OUTLEN` is 0 while `INFLATE` or `EXTRACT` runs (10_state.md R34, R48). -/
  outlenZero : s.phase = .busy → clearsOutlen s.cmd = true → s.outlen = 0#32
  /-- No hazard is recorded while the engine is Idle (70_reset_and_hazards.md R311). -/
  idleNoHazard : s.phase = .idle → s.hostWroteFootprint = false ∧ s.hostWroteInput = false

end Sys2Proof.Machine
end

