-- ==== Sys2Proof/Certificates/Slice0/Obligations.lean ====
section
/-! DEFINITION. The statements for the provers, each a `def Obligations.<Name> : Prop`, and the few terms they share. A
statement quantifies over every state unless it says otherwise; where it says how a command ends, the equation gives the
whole next state, so it is the command's frame and its completion at once. -/

namespace Sys2Proof.Machine
open Sys2Proof

/-- A state as the completion step leaves it with a code (10_state.md R49): `BUSY` 0, `DONE` 1, `ERR` = (code != 0x00). -/
def State.afterCompletion (s : State) (code : BitVec 8) : State :=
  { s with
    phase := .idle, done := true, err := decide (code ≠ 0x00#8), ecode := code
    hostWroteFootprint := false, hostWroteInput := false }

/-- No host access has interfered with the command that runs (70_reset_and_hazards.md R311). -/
def State.undisturbed (s : State) : Prop := s.hostWroteFootprint = false ∧ s.hostWroteInput = false

/-- The byte at `x` after the bytes `bs` were stored from offset `a` on, and nothing else. -/
def State.storedByte (s : State) (a : Nat) (bs : List Byte) (x : Nat) : Byte :=
  if a ≤ x ∧ x < a + bs.length then bs.getD (x - a) 0#8 else s.byteAt x

/-- The byte at `x` is an unspecified value: a free value drawn at or after this state. -/
def State.unspecifiedAt (s t : State) (x : Nat) : Prop := ∃ k, s.draws ≤ k ∧ t.byteAt x = Config.freeByte k x

/-- Bit `k` of a block: bit `7 - (k % 8)` of byte `k / 8` (00_scope.md R13). -/
def msbBit (b : Block) (k : Nat) : Bool := (b.byte (k / 8)).getLsbD (7 - k % 8)

/-- Block `i` of a buffer (00_scope.md R18). -/
def blockAt (buf : List Byte) (i : Nat) : Block :=
  ⟨⟨buf.getD (8 * i) 0#8, buf.getD (8 * i + 1) 0#8, buf.getD (8 * i + 2) 0#8, buf.getD (8 * i + 3) 0#8⟩,
   ⟨buf.getD (8 * i + 4) 0#8, buf.getD (8 * i + 5) 0#8, buf.getD (8 * i + 6) 0#8, buf.getD (8 * i + 7) 0#8⟩⟩

/-- The counter `j` of mixed mode at block `i`: how many of the blocks 20 to `i` are not DES blocks, less 1
(41_cipher_modes.md R153). -/
def scheduleJ (i c : Nat) : Int := ((List.range (i + 1)).countP fun k => decide (20 ≤ k ∧ k % c ≠ 0) : Nat) - 1

/-- `action(i, c)`, the closed form of the mixed-mode schedule (41_cipher_modes.md R153). -/
def scheduleAction (i c : Nat) : Action :=
  if i < 20 then .des
  else if i % c = 0 then .des
  else if scheduleJ i c ≠ 0 ∧ scheduleJ i c % 7 = 0 then .shuffle
  else .plain

/-- `next[l]` before any symbol is given a code: the loop over `l` of 43_inflate.md R196, with `count[0]` = 0. -/
def specFirstCode (lens : List Nat) : Nat → Nat
  | 0 => 0
  | l + 1 => (specFirstCode lens l + (if l = 0 then 0 else lens.count l)) <<< 1

/-- `(lens[sym], codeof[sym])` for each symbol in increasing order: the last loop of `BUILD` in 43_inflate.md R196. -/
def specAssign : (Nat → Nat) → List Nat → List (Nat × Nat)
  | _, [] => []
  | next, l :: lens =>
    if l = 0 then (0, 0) :: specAssign next lens
    else (l, next l) :: specAssign (fun m => if m = l then next m + 1 else next m) lens

/-- `DECODESYM` as 43_inflate.md R196 writes it: at each length `l`, a symbol with `lens[sym] = l` and `codeof[sym] = c`. -/
def specDecodeSym (s : List Byte) (table : List (Nat × Nat)) : List Nat → Nat → Nat → Option (Nat × Nat)
  | [], _, _ => none
  | l :: ls, c, pos =>
    match getBit s pos with
    | none => none
    | some (b, p) =>
      match table.findIdx? fun e => e == (l, (c <<< 1) ||| b) with
      | some sym => some (sym, p)
      | none => specDecodeSym s table ls ((c <<< 1) ||| b) p

/-- A zlib stream of one stored block that holds `d` (43_inflate.md R194, R195, R198). -/
def storedStream (d : List Byte) : List Byte :=
  [0x78#8, 0x01#8, 0x01#8]
    ++ [BitVec.ofNat 8 d.length, BitVec.ofNat 8 (d.length / 256)]
    ++ [BitVec.ofNat 8 (0xFFFF - d.length), BitVec.ofNat 8 ((0xFFFF - d.length) / 256)]
    ++ d
    ++ [BitVec.ofNat 8 (adler32 d / 2 ^ 24), BitVec.ofNat 8 (adler32 d / 2 ^ 16), BitVec.ofNat 8 (adler32 d / 2 ^ 8),
        BitVec.ofNat 8 (adler32 d)]

/-- The accesses that get no bus error at an offset of the register window (20_memory.md R63). -/
def legalRegAccess (off width : Nat) : Prop := off < 0x1000 ∧ width = 4 ∧ off % 4 = 0

/-- The accesses that get no bus error at an offset of the working-memory window (20_memory.md R64). -/
def legalMemAccess (p : Params) (off width : Nat) : Prop :=
  (width = 1 ∨ width = 2 ∨ width = 4) ∧ off % width = 0 ∧ off + width ≤ p.wmemSize

/-- The host accesses that get no bus error (20_memory.md R63, R64, R69). -/
def legalAccess (p : Params) (op : BusOp) : Prop :=
  match op.target with
  | .reg off => legalRegAccess off op.width
  | .mem off => legalMemAccess p off op.width
  | .addr a =>
    (p.regBase ≤ a ∧ a < p.regBase + 0x1000 ∧ legalRegAccess (a - p.regBase) op.width) ∨
    (¬ (p.regBase ≤ a ∧ a < p.regBase + 0x1000) ∧ p.memBase ≤ a ∧ a < p.memBase + p.wmemSize ∧
      legalMemAccess p (a - p.memBase) op.width)

/-- The range condition of a check phase: `a + n > WMEM_SIZE` (20_memory.md R62). -/
abbrev outsideWmem (s : State) (a n : Nat) : Prop := s.params.wmemSize < a + n

/-- The ranges `[a, a + n)` and `[b, b + k)` share a byte (42_extract.md R170): the larger start lies below the smaller end. -/
abbrev shareByte (a n b k : Nat) : Prop := max a b < min (a + n) (b + k)

/-- The check phase of `EXTRACT` passes (42_extract.md R170). -/
def extractChecksPass (s : State) : Prop :=
  0 ≤ s.len.toInt ∧ 0 ≤ s.csize.toInt ∧ 0 ≤ s.rsize.toInt ∧
  (s.typ.getLsbD 1 = true ∨ s.typ.getLsbD 2 = true → s.len.toInt % 8 = 0) ∧
  s.csize.toNat ≤ s.len.toNat ∧
  s.src.toNat + s.len.toNat ≤ s.params.wmemSize ∧ s.dst.toNat + s.rsize.toNat ≤ s.params.wmemSize ∧
  ¬ shareByte s.src.toNat s.len.toNat s.dst.toNat s.rsize.toNat

/-- The deciphered payload of `EXTRACT`: `DECODE(MemRead(SRC, LEN), TYPE, CSIZE)` (41_cipher_modes.md R158). -/
def plainPayload (s : State) : List Byte :=
  decodeBuf s.params.desTables (modeOf s.typ) (s.memRead s.src.toNat s.len.toNat) s.csize.toNat

/-- `CYCLE` after a command that runs the mode `TYPE` selects: written in mixed mode alone (42_extract.md R170). -/
def cycleAfterMode (s : State) : BitVec 5 :=
  if s.typ.getLsbD 1 then BitVec.ofNat 5 (cycleOf s.csize.toNat) else s.cycle

/-- `CYCLE` after a command of the decipher family or `INFLATE` whose checks pass (41_cipher_modes.md R151, R155, R159,
42_extract.md R170, 43_inflate.md R190). -/
def cycleAfter (i : Instr) (s : State) : BitVec 5 :=
  if i = .decmix then BitVec.ofNat 5 (cycleOf s.csize.toNat)
  else if i = .decipher ∨ i = .extract then cycleAfterMode s
  else s.cycle

/-- An access to the `n` bytes from `a` on touches one of the ranges. -/
def touchesSpans (rs : List Span) (a n : Nat) : Prop := ∃ x, a ≤ x ∧ x < a + n ∧ inSpans rs x = true

end Sys2Proof.Machine

open Sys2Proof Sys2Proof.Machine

/-! ## Words and steps -/

/-- 30_encoding.md R93: the decoder maps each of the nine words to its command and every other word to `Illegal`. -/
def Obligations.DecodeMapsExactlyNineWords : Prop :=
  ∀ w : Word,
    (decode w = .ok .nop ↔ w = 0x00#32) ∧ (decode w = .ok .desblk ↔ w = 0x01#32) ∧
    (decode w = .ok .shufblk ↔ w = 0x02#32) ∧ (decode w = .ok .cycle ↔ w = 0x03#32) ∧
    (decode w = .ok .dechdr ↔ w = 0x10#32) ∧ (decode w = .ok .decmix ↔ w = 0x11#32) ∧
    (decode w = .ok .decipher ↔ w = 0x12#32) ∧ (decode w = .ok .inflate ↔ w = 0x20#32) ∧
    (decode w = .ok .extract ↔ w = 0x30#32) ∧
    ((∃ e, decode w = .error e) ↔
      ¬ (w = 0x00#32 ∨ w = 0x01#32 ∨ w = 0x02#32 ∨ w = 0x03#32 ∨ w = 0x10#32 ∨ w = 0x11#32 ∨ w = 0x12#32 ∨
        w = 0x20#32 ∨ w = 0x30#32))

/-- Decoder and encoder agree in both directions: a word decodes to a well-formed command exactly when it is that
command's word (30_encoding.md R90, R92). -/
def Obligations.DecodeInvertsEncode : Prop :=
  ∀ (i : Instr) (w : Word), i.wf = true → (decode w = .ok i ↔ w = encode i)

/-- Words written out from 30_encoding.md R92 decode to their commands. -/
def Obligations.SampleWordsDecode : Prop :=
  decode 0x00000000#32 = .ok .nop ∧ decode 0x00000002#32 = .ok .shufblk ∧ decode 0x00000012#32 = .ok .decipher ∧
  decode 0x00000020#32 = .ok .inflate ∧ decode 0x00000030#32 = .ok .extract ∧
  decode 0x00000100#32 = .error .reservedBits ∧ decode 0x000000FF#32 = .error .unassignedOpcode

/-- A step of a Busy engine whose turn it is is `exec` of the command in `CMD`; the step around it takes the engine's turn
off the list of moves. A word of the table placed by `withFetchWord` is what the next step runs. The list of moves and
`withFetchWord` are the model's (log entries 2 and 8). -/
def Obligations.StepRunsDecodedCommand : Prop :=
  (∀ (s : State) (i : Instr), s.phase = .busy → decode s.cmd = .ok i → i.wf = true →
    (s.inputs = [] → step s = exec i s) ∧
    (∀ rest, s.inputs = .wait :: rest → step s = exec i s) ∧
    (∀ rest, s.inputs = .engine :: rest → step s = exec i { s with inputs := rest })) ∧
  (∀ (s : State) (nbits w : Nat) (i : Instr), decodeTableWord nbits w = some i →
    step (s.withFetchWord nbits w) = exec i (s.accept (tableWord nbits w)))

/-- 30_encoding.md R94, 60_exceptions.md R272: an illegal word is accepted like any other, and its completion, on each of the
engine's turns, sets `ILLEGAL_CMD` and touches no working memory and no register other than `STATUS` (and `CMD`, which holds
the word). The list of moves is the model's (log entry 2). -/
def Obligations.IllegalWordCompletesWithError : Prop :=
  ∀ (s : State) (w : Word) (e : DecodeError), s.phase = .idle → decode w = .error e →
    (s.hostWriteReg 0x00C w).phase = .busy ∧
    (s.inputs = [] → step (s.hostWriteReg 0x00C w) = .next ({ s with cmd := w }.afterCompletion 0x01#8)) ∧
    (∀ rest, s.inputs = .wait :: rest →
      step (s.hostWriteReg 0x00C w) = .next ({ s with cmd := w }.afterCompletion 0x01#8)) ∧
    (∀ rest, s.inputs = .engine :: rest →
      step (s.hostWriteReg 0x00C w) = .next ({ s with cmd := w, inputs := rest }.afterCompletion 0x01#8))

/-- 10_state.md R49, 43_inflate.md R207: every command completes from every state, with `BUSY` 0, `DONE` 1 and `ERR` set
exactly when the code is not 0x00; no command faults or is refused. -/
def Obligations.EveryCommandCompletes : Prop :=
  ∀ (i : Instr) (s : State), ∃ t, exec i s = .next t ∧
    t.phase = .idle ∧ t.done = true ∧ (t.err = true ↔ t.ecode ≠ 0x00#8)

/-- 70_reset_and_hazards.md R316: a Busy engine is Idle after at most one step more than there are moves to come, unless
the host runs into a bus error first. The list of moves is the model's choice (log entry 2). -/
def Obligations.BusyEngineBecomesIdle : Prop :=
  ∀ s : State, s.phase = .busy → ∃ n, n ≤ s.inputs.length + 1 ∧
    ((∃ t : State, Host.Core.run Sys2Proof.core n s = .next t ∧ t.phase = .idle) ∨
     (∃ f : Fault, Host.Core.run Sys2Proof.core n s = .fault f))

/-! ## The commands -/

/-- 44_control.md R250: `NOP` completes with code 0x00 and changes nothing else; its footprint is empty, it raises `irq`
where `IE` = 1, its acceptance clears a stale `DONE` or `ERR`, and from power-on `wr CMD, 0` followed by `wait` reads
`STATUS` 0x00000002. `CMD` holds the word of `NOP` at power-on, but without a write no command starts. -/
def Obligations.NopCompletes : Prop :=
  encode .nop = 0x00000000#32 ∧
  (∀ s, exec .nop s = .next (s.afterCompletion 0x00#8)) ∧
  (∀ s, spansOf .nop s = []) ∧
  (∀ s t, exec .nop s = .next t → t.irq = s.ie) ∧
  (∀ s : State, s.phase = .idle →
    (s.hostWriteReg 0x00C 0x00000000#32).done = false ∧ (s.hostWriteReg 0x00C 0x00000000#32).err = false) ∧
  (∀ p m, ∃ t : State, Host.Core.run Sys2Proof.core 3
    { State.powerOn p m with inputs := [wr .cmd 0x00000000#32, .wait] } = .next t ∧
    t.responses.head? = some (.data 0x00000002#32)) ∧
  (∀ p m, (State.powerOn p m).cmd = encode .nop ∧ step (State.powerOn p m) = .next (State.powerOn p m))

/-- 40_des_block.md R125: `DESBLK` replaces the block in `BLK0`/`BLK1` by its DES-decryption and changes nothing else but
the status; two in a row restore it; the two worked blocks, with the default tables. -/
def Obligations.DesblkReplacesBlock : Prop :=
  encode .desblk = 0x00000001#32 ∧
  (∀ s, exec .desblk s = .next
    ({ s with
        blk0 := wordOfHalf (desDec s.params.desTables s.blk).lo
        blk1 := wordOfHalf (desDec s.params.desTables s.blk).hi }.afterCompletion 0x00#8)) ∧
  (∀ s t u, s.params.desTables.wf = true → exec .desblk s = .next t → exec .desblk t = .next u →
    u.blk0 = s.blk0 ∧ u.blk1 = s.blk1) ∧
  (∀ s, s.params.desTables = defaultDesTables → s.blk0 = 0#32 → s.blk1 = 0#32 →
    ∃ t, exec .desblk s = .next t ∧ t.blk0 = 0x55010404#32 ∧ t.blk1 = 0x55540155#32) ∧
  (∀ s, s.params.desTables = defaultDesTables → s.blk0 = 0x67452301#32 → s.blk1 = 0xEFCDAB89#32 →
    ∃ t, exec .desblk s = .next t ∧ t.blk0 = 0x76057651#32 ∧ t.blk1 = 0xEBD9EA98#32)

/-- 41_cipher_modes.md R143: `SHUFBLK` replaces the block by its shuffle-decode and changes nothing else but the status;
the sixth power of `SHUF` is the identity and no smaller positive power is, two applications restore byte 7, and byte 7
changes exactly where `SWAP` changes it. -/
def Obligations.ShufblkReplacesBlock : Prop :=
  encode .shufblk = 0x00000002#32 ∧
  (∀ s, exec .shufblk s = .next
    ({ s with blk0 := wordOfHalf (shuf s.blk).lo, blk1 := wordOfHalf (shuf s.blk).hi }.afterCompletion 0x00#8)) ∧
  (∀ b, shuf^[6] b = b) ∧
  (∀ k, 0 < k → k < 6 → ∃ b, shuf^[k] b ≠ b) ∧
  (∀ b, (shuf (shuf b)).byte 7 = b.byte 7) ∧
  (∀ b, (shuf b).byte 7 = swap (b.byte 7)) ∧
  (∀ s, s.blk0 = 0x03020100#32 → s.blk1 = 0x07060504#32 →
    ∃ t, exec .shufblk s = .next t ∧ t.blk0 = 0x00060403#32 ∧ t.blk1 = 0x07050201#32)

/-- 41_cipher_modes.md R148: `CYCLE` sets the `CYCLE` register to `CYCLEOF(CSIZE)` and changes nothing else but the status;
with a negative `CSIZE` it ends with `MALFORMED` and `CYCLE` is unchanged; the corner cases and examples. -/
def Obligations.CycleWritesCycleRegister : Prop :=
  encode .cycle = 0x00000003#32 ∧
  (∀ s, 0 ≤ s.csize.toInt →
    exec .cycle s = .next ({ s with cycle := BitVec.ofNat 5 (cycleOf s.csize.toNat) }.afterCompletion 0x00#8)) ∧
  (∀ s, s.csize.toInt < 0 → exec .cycle s = .next (s.afterCompletion 0x02#8)) ∧
  (∀ s t, exec .cycle s = .next t →
    (s.csize = 0#32 → t.cycle = 1#5) ∧ (s.csize = 75#32 → t.cycle = 1#5) ∧ (s.csize = 99#32 → t.cycle = 1#5) ∧
    (s.csize = 100#32 → t.cycle = 4#5) ∧ (s.csize = 12345#32 → t.cycle = 14#5) ∧
    (s.csize = 2147483647#32 → t.cycle = 25#5) ∧ (s.csize = 0x80000000#32 → t.ecode = 0x02#8))

/-- 41_cipher_modes.md R151: where the checks pass and no host access interferes, `DECHDR` stores `HDRDEC` of the payload
over `[SRC, SRC+LEN)` and changes no other byte and no register but `STATUS`. -/
def Obligations.DechdrDeciphersInPlace : Prop :=
  ∀ s : State, 0 ≤ s.len.toInt → s.len.toInt % 8 = 0 → s.src.toNat + s.len.toNat ≤ s.params.wmemSize →
    s.undisturbed →
    ∃ t, exec .dechdr s = .next t ∧
      t = { s with wmem := t.wmem }.afterCompletion 0x00#8 ∧
      ∀ x, t.byteAt x =
        s.storedByte s.src.toNat (hdrDec s.params.desTables (s.memRead s.src.toNat s.len.toNat)) x

/-- 41_cipher_modes.md R155: where the checks pass and no host access interferes, `DECMIX` stores `MIXDEC` of the payload
over `[SRC, SRC+LEN)`, sets `CYCLE` to `CYCLEOF(CSIZE)`, and changes no other byte and no other register but `STATUS`. -/
def Obligations.DecmixDeciphersInPlace : Prop :=
  ∀ s : State, 0 ≤ s.len.toInt → s.len.toInt % 8 = 0 → 0 ≤ s.csize.toInt →
    s.src.toNat + s.len.toNat ≤ s.params.wmemSize → s.undisturbed →
    ∃ t, exec .decmix s = .next t ∧
      t = { s with wmem := t.wmem, cycle := BitVec.ofNat 5 (cycleOf s.csize.toNat) }.afterCompletion 0x00#8 ∧
      ∀ x, t.byteAt x =
        s.storedByte s.src.toNat (mixDec s.params.desTables (s.memRead s.src.toNat s.len.toNat) s.csize.toNat) x

/-- 41_cipher_modes.md R159: where the checks of the mode `TYPE` selects pass and no host access interferes, `DECIPHER` does
what that mode says: mixed mode stores `MIXDEC` and sets `CYCLE`, header mode stores `HDRDEC` whatever `CSIZE` is, and with
neither cipher bit `LEN` need not be a multiple of 8 and no byte changes. -/
def Obligations.DecipherFollowsType : Prop :=
  ∀ s : State, 0 ≤ s.len.toInt → s.src.toNat + s.len.toNat ≤ s.params.wmemSize → s.undisturbed →
    (s.typ.getLsbD 1 = true → s.len.toInt % 8 = 0 → 0 ≤ s.csize.toInt →
      ∃ t, exec .decipher s = .next t ∧
        t = { s with wmem := t.wmem, cycle := BitVec.ofNat 5 (cycleOf s.csize.toNat) }.afterCompletion 0x00#8 ∧
        ∀ x, t.byteAt x =
          s.storedByte s.src.toNat (mixDec s.params.desTables (s.memRead s.src.toNat s.len.toNat) s.csize.toNat) x) ∧
    (s.typ.getLsbD 1 = false → s.typ.getLsbD 2 = true → s.len.toInt % 8 = 0 →
      ∃ t, exec .decipher s = .next t ∧
        t = { s with wmem := t.wmem }.afterCompletion 0x00#8 ∧
        ∀ x, t.byteAt x =
          s.storedByte s.src.toNat (hdrDec s.params.desTables (s.memRead s.src.toNat s.len.toNat)) x) ∧
    (s.typ.getLsbD 1 = false → s.typ.getLsbD 2 = false → exec .decipher s = .next (s.afterCompletion 0x00#8))

/-- 43_inflate.md R190: where the checks pass, no host access interferes and `ZINFLATE` gives `out`, `INFLATE` stores `out`
at `DST`, sets `OUTLEN` to `RSIZE`, and changes no other byte and no other register but `STATUS`. -/
def Obligations.InflateStoresTheData : Prop :=
  ∀ (s : State) (out : List Byte), 0 ≤ s.csize.toInt → 0 ≤ s.rsize.toInt →
    s.src.toNat + s.csize.toNat ≤ s.params.wmemSize → s.dst.toNat + s.rsize.toNat ≤ s.params.wmemSize →
    ¬ shareByte s.src.toNat s.csize.toNat s.dst.toNat s.rsize.toNat → s.undisturbed →
    zinflate (s.memRead s.src.toNat s.csize.toNat) s.rsize.toNat = some out →
    ∃ t, exec .inflate s = .next t ∧
      t = { s with wmem := t.wmem, outlen := s.rsize }.afterCompletion 0x00#8 ∧
      t.memRead s.dst.toNat s.rsize.toNat = out ∧
      ∀ x, t.byteAt x = s.storedByte s.dst.toNat out x

/-- 43_inflate.md R190, 60_exceptions.md R273: where the checks pass and `ZINFLATE` fails, `INFLATE` ends with
`DECOMPRESS_FAIL`; every byte of `[DST, DST+RSIZE)` is unspecified and no other byte and no other register changes. -/
def Obligations.InflateFailureLeavesResultUnspecified : Prop :=
  ∀ s : State, 0 ≤ s.csize.toInt → 0 ≤ s.rsize.toInt →
    s.src.toNat + s.csize.toNat ≤ s.params.wmemSize → s.dst.toNat + s.rsize.toNat ≤ s.params.wmemSize →
    ¬ shareByte s.src.toNat s.csize.toNat s.dst.toNat s.rsize.toNat → s.undisturbed →
    zinflate (s.memRead s.src.toNat s.csize.toNat) s.rsize.toNat = none →
    ∃ t, exec .inflate s = .next t ∧
      t = { s with wmem := t.wmem, draws := t.draws }.afterCompletion 0x05#8 ∧
      (∀ x, s.dst.toNat ≤ x → x < s.dst.toNat + s.rsize.toNat → s.unspecifiedAt t x) ∧
      ∀ x, ¬ (s.dst.toNat ≤ x ∧ x < s.dst.toNat + s.rsize.toNat) → t.byteAt x = s.byteAt x

/-- 42_extract.md R170: a stored entry (`RSIZE` = `CSIZE`) that passes the checks is deciphered in place and its first
`CSIZE` bytes are copied to `DST`; `OUTLEN` = `RSIZE`; no other byte and no other register but `CYCLE` and `STATUS`
changes. -/
def Obligations.ExtractCopiesStoredEntry : Prop :=
  ∀ s : State, extractChecksPass s → s.undisturbed → s.rsize = s.csize →
    ∃ t, exec .extract s = .next t ∧
      t = { s with wmem := t.wmem, outlen := s.rsize, cycle := cycleAfterMode s }.afterCompletion 0x00#8 ∧
      t.memRead s.src.toNat s.len.toNat = plainPayload s ∧
      t.memRead s.dst.toNat s.rsize.toNat = (plainPayload s).take s.csize.toNat ∧
      ∀ x, ¬ (s.src.toNat ≤ x ∧ x < s.src.toNat + s.len.toNat) →
        ¬ (s.dst.toNat ≤ x ∧ x < s.dst.toNat + s.rsize.toNat) → t.byteAt x = s.byteAt x

/-- 42_extract.md R170: a compressed entry (`RSIZE` not `CSIZE`) that passes the checks and whose first `CSIZE` deciphered
bytes inflate to `out` is deciphered in place and `out` is placed at `DST`. -/
def Obligations.ExtractInflatesCompressedEntry : Prop :=
  ∀ (s : State) (out : List Byte), extractChecksPass s → s.undisturbed → s.rsize ≠ s.csize →
    zinflate ((plainPayload s).take s.csize.toNat) s.rsize.toNat = some out →
    ∃ t, exec .extract s = .next t ∧
      t = { s with wmem := t.wmem, outlen := s.rsize, cycle := cycleAfterMode s }.afterCompletion 0x00#8 ∧
      t.memRead s.src.toNat s.len.toNat = plainPayload s ∧
      t.memRead s.dst.toNat s.rsize.toNat = out ∧
      ∀ x, ¬ (s.src.toNat ≤ x ∧ x < s.src.toNat + s.len.toNat) →
        ¬ (s.dst.toNat ≤ x ∧ x < s.dst.toNat + s.rsize.toNat) → t.byteAt x = s.byteAt x

/-- 42_extract.md R170, 60_exceptions.md R273: a compressed entry that passes the checks and does not inflate ends with
`DECOMPRESS_FAIL`; the payload stays deciphered, `[DST, DST+RSIZE)` is unspecified, `CYCLE` is written in mixed mode, and no
other byte and no other register changes. -/
def Obligations.ExtractFailureKeepsDecipheredPayload : Prop :=
  ∀ s : State, extractChecksPass s → s.undisturbed → s.rsize ≠ s.csize →
    zinflate ((plainPayload s).take s.csize.toNat) s.rsize.toNat = none →
    ∃ t, exec .extract s = .next t ∧
      t = { s with wmem := t.wmem, draws := t.draws, cycle := cycleAfterMode s }.afterCompletion 0x05#8 ∧
      t.memRead s.src.toNat s.len.toNat = plainPayload s ∧
      (∀ x, s.dst.toNat ≤ x → x < s.dst.toNat + s.rsize.toNat → s.unspecifiedAt t x) ∧
      ∀ x, ¬ (s.src.toNat ≤ x ∧ x < s.src.toNat + s.len.toNat) →
        ¬ (s.dst.toNat ≤ x ∧ x < s.dst.toNat + s.rsize.toNat) → t.byteAt x = s.byteAt x

/-! ## Errors, frames and purity -/

/-- 60_exceptions.md R275, R270: the code each command reports is the first that holds in the order `MALFORMED`, `RANGE`,
`OVERLAP`, `DECOMPRESS_FAIL`, and 0x00 where none holds. -/
def Obligations.FirstFailingCheckIsReported : Prop :=
  ∀ (s t : State),
    (exec .nop s = .next t ∨ exec .desblk s = .next t ∨ exec .shufblk s = .next t → t.ecode = 0x00#8) ∧
    (exec .cycle s = .next t → t.ecode = if s.csize.toInt < 0 then 0x02#8 else 0x00#8) ∧
    (exec .dechdr s = .next t → t.ecode =
      if s.len.toInt < 0 ∨ s.len.toInt % 8 ≠ 0 then 0x02#8
      else if outsideWmem s s.src.toNat s.len.toNat then 0x03#8 else 0x00#8) ∧
    (exec .decmix s = .next t → t.ecode =
      if s.len.toInt < 0 ∨ s.len.toInt % 8 ≠ 0 ∨ s.csize.toInt < 0 then 0x02#8
      else if outsideWmem s s.src.toNat s.len.toNat then 0x03#8 else 0x00#8) ∧
    (exec .decipher s = .next t → t.ecode =
      if s.len.toInt < 0 ∨ ((s.typ.getLsbD 1 = true ∨ s.typ.getLsbD 2 = true) ∧ s.len.toInt % 8 ≠ 0) ∨
          (s.typ.getLsbD 1 = true ∧ s.csize.toInt < 0) then 0x02#8
      else if outsideWmem s s.src.toNat s.len.toNat then 0x03#8 else 0x00#8) ∧
    (exec .inflate s = .next t → s.hostWroteInput = false → t.ecode =
      if s.csize.toInt < 0 ∨ s.rsize.toInt < 0 then 0x02#8
      else if outsideWmem s s.src.toNat s.csize.toNat ∨ outsideWmem s s.dst.toNat s.rsize.toNat then 0x03#8
      else if shareByte s.src.toNat s.csize.toNat s.dst.toNat s.rsize.toNat then 0x04#8
      else if zinflate (s.memRead s.src.toNat s.csize.toNat) s.rsize.toNat = none then 0x05#8 else 0x00#8) ∧
    (exec .extract s = .next t → s.hostWroteInput = false → t.ecode =
      if s.len.toInt < 0 ∨ s.csize.toInt < 0 ∨ s.rsize.toInt < 0 ∨
          ((s.typ.getLsbD 1 = true ∨ s.typ.getLsbD 2 = true) ∧ s.len.toInt % 8 ≠ 0) ∨
          s.len.toInt < s.csize.toInt then 0x02#8
      else if outsideWmem s s.src.toNat s.len.toNat ∨ outsideWmem s s.dst.toNat s.rsize.toNat then 0x03#8
      else if shareByte s.src.toNat s.len.toNat s.dst.toNat s.rsize.toNat then 0x04#8
      else if s.rsize ≠ s.csize ∧ zinflate ((plainPayload s).take s.csize.toNat) s.rsize.toNat = none then 0x05#8
      else 0x00#8)

/-- 60_exceptions.md R273, R277: errors are precise. A command that ends with one of the codes 0x01 to 0x04 changes no byte
and no register other than `STATUS`. -/
def Obligations.CheckErrorsTouchNothing : Prop :=
  ∀ (i : Instr) (s t : State), exec i s = .next t → t.ecode ≠ 0x00#8 → t.ecode ≠ 0x05#8 →
    t = s.afterCompletion t.ecode

/-- 20_memory.md R61, R66: the command in `CMD` changes no byte outside its footprint, whatever its code and whatever the
host did. -/
def Obligations.CommandChangesOnlyItsFootprint : Prop :=
  ∀ (i : Instr) (s t : State), decode s.cmd = .ok i → exec i s = .next t →
    ∀ a, inSpans s.footprint a = false → t.byteAt a = s.byteAt a

/-- 44_control.md R255, 60_exceptions.md R274: no command changes `CMD`, an operand register, `CTRL` or `WERR`; `BLK0` and
`BLK1` are changed by `DESBLK` and `SHUFBLK` alone, `OUTLEN` by `INFLATE` and `EXTRACT` alone, `CYCLE` by `CYCLE`, `DECMIX`,
`DECIPHER` and `EXTRACT` alone. -/
def Obligations.CommandsKeepOperandRegisters : Prop :=
  ∀ (i : Instr) (s t : State), exec i s = .next t →
    t.cmd = s.cmd ∧ t.src = s.src ∧ t.dst = s.dst ∧ t.len = s.len ∧ t.csize = s.csize ∧ t.rsize = s.rsize ∧
    t.typ = s.typ ∧ t.ie = s.ie ∧ t.werr = s.werr ∧
    (i ≠ .desblk → i ≠ .shufblk → t.blk0 = s.blk0 ∧ t.blk1 = s.blk1) ∧
    (i ≠ .inflate → i ≠ .extract → t.outlen = s.outlen) ∧
    (i ≠ .cycle → i ≠ .decmix → i ≠ .decipher → i ≠ .extract → t.cycle = s.cycle)

/-- 10_state.md R47: a command's effect is a function of the registers and of the working-memory bytes of its footprint. Two
states that differ only in bytes outside the footprint end with the same registers and the same footprint bytes. -/
def Obligations.CommandDependsOnlyOnFootprint : Prop :=
  ∀ (i : Instr) (s u s' u' : State), decode s.cmd = .ok i → u = { s with wmem := u.wmem } →
    (∀ a, inSpans s.footprint a = true → u.byteAt a = s.byteAt a) →
    exec i s = .next s' → exec i u = .next u' →
    u' = { s' with wmem := u'.wmem } ∧ ∀ a, inSpans s.footprint a = true → u'.byteAt a = s'.byteAt a

/-- 42_extract.md R171: the result of a successful `EXTRACT` depends only on the payload bytes and on `LEN`, `CSIZE`, `RSIZE`
and `TYPE` (and the machine's tables), not on `SRC`, `DST` or anything earlier. -/
def Obligations.ExtractDependsOnlyOnPayload : Prop :=
  ∀ s u s' u' : State, s.params.desTables = u.params.desTables →
    s.len = u.len → s.csize = u.csize → s.rsize = u.rsize → s.typ = u.typ →
    s.memRead s.src.toNat s.len.toNat = u.memRead u.src.toNat u.len.toNat →
    s.undisturbed → u.undisturbed →
    exec .extract s = .next s' → exec .extract u = .next u' → s'.ecode = 0x00#8 → u'.ecode = 0x00#8 →
    s'.memRead s.dst.toNat s.rsize.toNat = u'.memRead u.dst.toNat u.rsize.toNat ∧
    s'.memRead s.src.toNat s.len.toNat = u'.memRead u.src.toNat u.len.toNat ∧
    s'.outlen = u'.outlen ∧ (s.typ.getLsbD 1 = true → s'.cycle = u'.cycle)

/-- 95_test_vectors.md P3, 92_eei_decisions.md D19: for a compressed entry that passes the checks of `EXTRACT`, `DECIPHER` and
then `INFLATE` end in the very state `EXTRACT` ends in, success or failure. That the unspecified bytes a failure leaves in
`[DST, DST+RSIZE)` are the same ones too is the model's: both ways draw them at the same count of draws (log entry 5). -/
def Obligations.ExtractIsDecipherThenInflate : Prop :=
  ∀ s : State, extractChecksPass s → s.undisturbed → s.rsize ≠ s.csize →
    ∃ t u, exec .decipher s = .next t ∧ exec .inflate t = .next u ∧ exec .extract s = .next u

/-- 70_reset_and_hazards.md R311, 20_memory.md R65: a host access that touches a busy command's footprint is a hazard and any
other is not. A host read of a footprint byte sees an unspecified value; a host write that touches the footprint marks the
command and remains as a whole or not at all. A marked decipher command still completes with code 0x00 and leaves every byte
of `[SRC, SRC+LEN)` unspecified. A marked `INFLATE` or `EXTRACT` leaves its output ranges unspecified and completes with code
0x00 and `OUTLEN` = `RSIZE`, or with code 0x05 and `OUTLEN` as it was; which of the two is open where its input range was
written. A marked command writes `CYCLE` as an unmarked one does, and keeps every other byte and register. The marks, and that
a write across the edge of the footprint remains or not as one, are the model's (log entry 6). -/
def Obligations.HostInterferenceIsConfined : Prop :=
  (∀ (s : State) (a : Nat), s.phase = .busy → inSpans s.footprint a = true →
    ∃ k, s.draws ≤ k ∧ s.hostByte a = Config.freeByte k a) ∧
  (∀ (s : State) (a : Nat), s.phase = .idle ∨ inSpans s.footprint a = false → s.hostByte a = s.byteAt a) ∧
  (∀ (s t : State) (a : Nat) (bs : List Byte), s.phase = .busy → touchesSpans s.footprint a bs.length →
    t = s.hostWriteMem a bs →
    t = { s with
      wmem := t.wmem, draws := t.draws, hostWroteFootprint := true, hostWroteInput := t.hostWroteInput } ∧
    (t.hostWroteInput = true ↔ s.hostWroteInput = true ∨ touchesSpans s.inputRange a bs.length) ∧
    ((∀ x, t.byteAt x = s.storedByte a bs x) ∨ ∀ x, t.byteAt x = s.byteAt x)) ∧
  (∀ (s : State) (a : Nat) (bs : List Byte), s.phase = .idle ∨ ¬ touchesSpans s.footprint a bs.length →
    s.hostWriteMem a bs = s.memWrite a bs) ∧
  (∀ (i : Instr) (s : State), i = .dechdr ∨ i = .decmix ∨ i = .decipher → checkOf i s = none →
    s.hostWroteFootprint = true →
    ∃ t, exec i s = .next t ∧
      t = { s with wmem := t.wmem, draws := t.draws, cycle := cycleAfter i s }.afterCompletion 0x00#8 ∧
      (∀ x, s.src.toNat ≤ x → x < s.src.toNat + s.len.toNat → s.unspecifiedAt t x) ∧
      ∀ x, ¬ (s.src.toNat ≤ x ∧ x < s.src.toNat + s.len.toNat) → t.byteAt x = s.byteAt x) ∧
  (∀ (i : Instr) (s : State), i = .inflate ∨ i = .extract → checkOf i s = none → s.hostWroteFootprint = true →
    ∃ t, exec i s = .next t ∧
      t = { s with wmem := t.wmem, draws := t.draws, outlen := t.outlen, cycle := cycleAfter i s }.afterCompletion
        t.ecode ∧
      ((t.ecode = 0x00#8 ∧ t.outlen = s.rsize) ∨ (t.ecode = 0x05#8 ∧ t.outlen = s.outlen)) ∧
      (∀ x, s.dst.toNat ≤ x → x < s.dst.toNat + s.rsize.toNat → s.unspecifiedAt t x) ∧
      (i = .extract → ∀ x, s.src.toNat ≤ x → x < s.src.toNat + s.len.toNat → s.unspecifiedAt t x) ∧
      ∀ x, ¬ (s.dst.toNat ≤ x ∧ x < s.dst.toNat + s.rsize.toNat) →
        i = .inflate ∨ ¬ (s.src.toNat ≤ x ∧ x < s.src.toNat + s.len.toNat) → t.byteAt x = s.byteAt x) ∧
  (∀ (i : Instr) (s : State), i = .inflate ∨ i = .extract → checkOf i s = none → s.hostWroteInput = true →
    ∃ t k, exec i s = .next t ∧ s.draws ≤ k ∧ t.ecode = (if Config.freeBool k then 0x00#8 else 0x05#8) ∧
      t.outlen = if Config.freeBool k then s.rsize else s.outlen)

/-! ## The block function -/

/-- 40_des_block.md R116, R111: with the mask of R111, output bit `i` of `PERM64(B, T)` is input bit `T[i] - 1`, both numbered
MSB-first within each byte, and `PERM64` is a bijection on blocks when `T` is a permutation of `1..64`. The default mask is
that mask. -/
def Obligations.Perm64MovesBits : Prop :=
  (∀ (m : List Byte) (t : List Nat) (b : Block) (i : Nat), isMaskTable m = true → i < 64 →
    msbBit (perm64 m t b) i = msbBit b (t.getD i 0 - 1)) ∧
  (∀ (m : List Byte) (t : List Nat), isMaskTable m = true → isPermTable 64 t = true →
    Function.Bijective (perm64 m t)) ∧
  defaultDesTables.mask = [0x80#8, 0x40#8, 0x20#8, 0x10#8, 0x08#8, 0x04#8, 0x02#8, 0x01#8]

/-- 40_des_block.md R122: `DESDEC` is its own inverse, for every tables of the shape R111 to R115 give. -/
def Obligations.DesdecIsInvolution : Prop :=
  ∀ (t : DesTables) (b : Block), t.wf = true → desDec t (desDec t b) = b

/-- 40_des_block.md R121: the right half passes through unchanged, and the round output depends on the right half alone. -/
def Obligations.RightHalfPassesThrough : Prop :=
  ∀ (t : DesTables) (b c : Block), t.wf = true →
    (perm64 t.mask t.ip (desDec t b)).hi = (perm64 t.mask t.ip b).hi ∧
    ((perm64 t.mask t.ip b).hi = (perm64 t.mask t.ip c).hi →
      xorHalf (perm64 t.mask t.ip (desDec t b)).lo (perm64 t.mask t.ip b).lo =
      xorHalf (perm64 t.mask t.ip (desDec t c)).lo (perm64 t.mask t.ip c).lo)

/-! ## Shuffle, cycle and modes -/

/-- 41_cipher_modes.md R140, R141: `SWAP` swaps the seven pairs and leaves every other byte; it is an involution, and exactly
14 byte values are changed and 242 are fixed. -/
def Obligations.SwapIsInvolution : Prop :=
  (swap 0x00#8 = 0x2B#8 ∧ swap 0x2B#8 = 0x00#8 ∧ swap 0x6C#8 = 0x80#8 ∧ swap 0x80#8 = 0x6C#8 ∧
   swap 0x01#8 = 0x68#8 ∧ swap 0x68#8 = 0x01#8 ∧ swap 0x48#8 = 0x77#8 ∧ swap 0x77#8 = 0x48#8 ∧
   swap 0x60#8 = 0xFF#8 ∧ swap 0xFF#8 = 0x60#8 ∧ swap 0xB9#8 = 0xC0#8 ∧ swap 0xC0#8 = 0xB9#8 ∧
   swap 0xFE#8 = 0xEB#8 ∧ swap 0xEB#8 = 0xFE#8) ∧
  (∀ v : Byte, v ∉ [0x00#8, 0x2B#8, 0x6C#8, 0x80#8, 0x01#8, 0x68#8, 0x48#8, 0x77#8, 0x60#8, 0xFF#8, 0xB9#8, 0xC0#8,
    0xFE#8, 0xEB#8] → swap v = v) ∧
  (∀ v : Byte, swap (swap v) = v) ∧
  ((List.range 256).countP fun n => swap (BitVec.ofNat 8 n) != BitVec.ofNat 8 n) = 14 ∧
  ((List.range 256).countP fun n => swap (BitVec.ofNat 8 n) == BitVec.ofNat 8 n) = 242

/-- 41_cipher_modes.md R142: `SHUF` byte by byte, the inverse the rule gives, and that it is a bijection but no involution. -/
def Obligations.ShufPermutesBytes : Prop :=
  (∀ x0 x1 x2 x3 x4 x5 x6 x7 : Byte,
    shuf ⟨⟨x0, x1, x2, x3⟩, ⟨x4, x5, x6, x7⟩⟩ = ⟨⟨x3, x4, x6, x0⟩, ⟨x1, x2, x5, swap x7⟩⟩) ∧
  (∀ y0 y1 y2 y3 y4 y5 y6 y7 : Byte,
    shuf ⟨⟨y3, y4, y5, y0⟩, ⟨y1, y6, y2, swap y7⟩⟩ = ⟨⟨y0, y1, y2, y3⟩, ⟨y4, y5, y6, y7⟩⟩) ∧
  Function.Bijective shuf ∧ ¬ Function.Involutive shuf

/-- 41_cipher_modes.md R145: `DIGITS(0)` = 1, and for `n >= 1` `DIGITS(n)` = `d` exactly when `10^(d-1) <= n < 10^d`; a
`compressed_size` of `0 .. 2^31 - 1` has 1 to 10 digits. -/
def Obligations.DigitsCountsDecimalDigits : Prop :=
  digits 0 = 1 ∧
  (∀ n d : Nat, 1 ≤ n → 1 ≤ d → (digits n = d ↔ 10 ^ (d - 1) ≤ n ∧ n < 10 ^ d)) ∧
  (∀ n : Nat, n < 2 ^ 31 → 1 ≤ digits n ∧ digits n ≤ 10)

/-- 41_cipher_modes.md R147: the number of digits and the value of `CYCLEOF` for every `compressed_size` a signed 32-bit
field can hold. -/
def Obligations.CycleTable : Prop :=
  ∀ cs : Nat,
    (cs ≤ 99 → (digits cs = 1 ∨ digits cs = 2) ∧ cycleOf cs = 1) ∧
    (100 ≤ cs → cs ≤ 999 → digits cs = 3 ∧ cycleOf cs = 4) ∧
    (1000 ≤ cs → cs ≤ 9999 → digits cs = 4 ∧ cycleOf cs = 5) ∧
    (10000 ≤ cs → cs ≤ 99999 → digits cs = 5 ∧ cycleOf cs = 14) ∧
    (100000 ≤ cs → cs ≤ 999999 → digits cs = 6 ∧ cycleOf cs = 15) ∧
    (1000000 ≤ cs → cs ≤ 9999999 → digits cs = 7 ∧ cycleOf cs = 22) ∧
    (10000000 ≤ cs → cs ≤ 99999999 → digits cs = 8 ∧ cycleOf cs = 23) ∧
    (100000000 ≤ cs → cs ≤ 999999999 → digits cs = 9 ∧ cycleOf cs = 24) ∧
    (1000000000 ≤ cs → cs ≤ 2147483647 → digits cs = 10 ∧ cycleOf cs = 25)

/-- 41_cipher_modes.md R149: header-only mode DES-decrypts the first `min(20, n/8)` blocks and leaves the rest verbatim. -/
def Obligations.HeaderModeDecryptsFirstTwenty : Prop :=
  ∀ (t : DesTables) (buf : List Byte), buf.length % 8 = 0 →
    (hdrDec t buf).length = buf.length ∧
    (∀ i, i < buf.length / 8 →
      blockAt (hdrDec t buf) i =
        if i < min 20 (buf.length / 8) then desDec t (blockAt buf i) else blockAt buf i) ∧
    ∀ k, 160 ≤ k → (hdrDec t buf)[k]? = buf[k]?

/-- 41_cipher_modes.md R152, R153: mixed mode does to each block what the closed form of its schedule says. -/
def Obligations.MixedModeFollowsSchedule : Prop :=
  ∀ (t : DesTables) (buf : List Byte) (cs : Nat), buf.length % 8 = 0 →
    (mixDec t buf cs).length = buf.length ∧
    ∀ i, i < buf.length / 8 →
      blockAt (mixDec t buf cs) i = (scheduleAction i (cycleOf cs)).apply t (blockAt buf i)

/-- 41_cipher_modes.md R154, R152: with at most 20 blocks mixed mode equals header-only mode; with a `compressed_size` below
100 every block is DES-decrypted. -/
def Obligations.MixedModeSpecialCases : Prop :=
  ∀ (t : DesTables) (buf : List Byte) (cs : Nat), buf.length % 8 = 0 →
    (buf.length ≤ 160 → mixDec t buf cs = hdrDec t buf) ∧
    (cs < 100 → ∀ i, i < buf.length / 8 → blockAt (mixDec t buf cs) i = desDec t (blockAt buf i))

/-- 30_encoding.md R96: bit 1 of `TYPE` selects mixed mode, else bit 2 header mode, else none; no command but `DECIPHER` and
`EXTRACT` reads `TYPE`. -/
def Obligations.TypeSelectsMode : Prop :=
  (∀ t : Byte,
    (t.getLsbD 1 = true → modeOf t = .mixed) ∧
    (t.getLsbD 1 = false → t.getLsbD 2 = true → modeOf t = .header) ∧
    (t.getLsbD 1 = false → t.getLsbD 2 = false → modeOf t = .none)) ∧
  (∀ (i : Instr) (s t : State) (v : Byte), i ≠ .decipher → i ≠ .extract → exec i s = .next t →
    exec i { s with typ := v } = .next { t with typ := v })

/-! ## Inflate -/

/-- 43_inflate.md R191: what `ZINFLATE` returns has exactly `rs` bytes. -/
def Obligations.ZinflateGivesExactLength : Prop :=
  ∀ (s : List Byte) (rs : Nat) (r : List Byte), zinflate s rs = some r → r.length = rs

/-- 43_inflate.md R206: bytes of the input after the end of the stream are ignored. -/
def Obligations.ZinflateIgnoresTrailingInput : Prop :=
  ∀ (s extra : List Byte) (rs : Nat) (r : List Byte), zinflate s rs = some r → zinflate (s ++ extra) rs = some r

/-- 43_inflate.md R207: the decoder terminates within the model's bounds (log entry 14), which are not the count of steps that
R207 names: `8 * len(s) + 1` passes for the block loop of R197 and the symbol loop of R202, and one pass more than there are
lengths for the loop of R200. With any more passes allowed each loop gives the same answer. -/
def Obligations.ZinflateBoundSuffices : Prop :=
  (∀ (s : List Byte) (rs k : Nat), zinflateWithin (8 * s.length + 1 + k) s rs = zinflate s rs) ∧
  (∀ (s : List Byte) (code : Huffman) (total pos k : Nat),
    readLengths s code total (total + 1 + k) pos [] = readLengths s code total (total + 1) pos [])

/-- 43_inflate.md R194, R195, R197, R198: a zlib stream of one stored block inflates to the bytes it holds. -/
def Obligations.StoredStreamInflatesToItsData : Prop :=
  ∀ d : List Byte, d.length < 2 ^ 16 → zinflate (storedStream d) d.length = some d

/-- 43_inflate.md R192: the bits are those of the input read as one little-endian integer, and a read past the end fails. -/
def Obligations.GetbitsReadsLeastSignificantFirst : Prop :=
  ∀ (s : List Byte) (n pos : Nat),
    getBits s n pos =
      if n = 0 ∨ pos + n ≤ 8 * s.length then some ((leNat s / 2 ^ pos) % 2 ^ n, pos + n) else none

/-- 43_inflate.md R196: the decoder's tables find the symbol that the rule's own construction assigns to the bits read. -/
def Obligations.HuffmanDecodingFollowsAssignment : Prop :=
  ∀ (s : List Byte) (lens : List Nat) (h : Huffman) (pos : Nat), buildCode lens = some h →
    decodeSym s h pos = specDecodeSym s (specAssign (specFirstCode lens) lens) codeLengths 0 pos

/-- 43_inflate.md R202, R193: a back-reference copy succeeds exactly where the output has room, keeps the output so far, and
each new byte equals the byte `d` before it, so a copy longer than `d` repeats the last `d` bytes. The output is held newest
byte first. -/
def Obligations.BackReferenceRepeatsOutput : Prop :=
  ∀ (rs d len : Nat) (out : List Byte), 1 ≤ d → d ≤ out.length → out.length ≤ rs →
    ((copyBack rs d len out).isSome = true ↔ out.length + len ≤ rs) ∧
    ∀ out', copyBack rs d len out = some out' →
      out'.length = out.length + len ∧ out'.drop len = out ∧ ∀ k, k < len → out'[k]? = out'[k + d]?

/-- 43_inflate.md R205: the two sums of Adler-32 in closed form, and the two values the rule gives. -/
def Obligations.AdlerSums : Prop :=
  (∀ out : List Byte,
    adler32 out % 2 ^ 16 = (1 + (out.map (·.toNat)).sum) % 65521 ∧
    adler32 out / 2 ^ 16 =
      (out.length + ((List.range out.length).map fun i => (out.length - i) * (out.getD i 0#8).toNat).sum) % 65521) ∧
  adler32 [] = 0x00000001 ∧ adler32 [0x61#8] = 0x00620062

/-! ## Registers, status and reset -/

/-- 10_state.md R36: the bytes of `BLK0` and `BLK1` in order, and that `setblk` and `blk` invert each other. -/
def Obligations.BlockRegistersHoldBytesInOrder : Prop :=
  (∀ (s : State) (k : Nat), k < 4 →
    s.blk.byte k = s.blk0.extractLsb' (8 * k) 8 ∧ s.blk.byte (4 + k) = s.blk1.extractLsb' (8 * k) 8) ∧
  (∀ (s : State) (b : Block), (s.setBlk b).blk = b) ∧ (∀ s : State, s.setBlk s.blk = s)

/-- 10_state.md R48: command acceptance, the whole next state. `WERR` is unchanged, and `OUTLEN` becomes 0 for the words of
`INFLATE` and `EXTRACT` alone. -/
def Obligations.CmdWriteAcceptsCommand : Prop :=
  ∀ (s : State) (w : Word), s.phase = .idle →
    s.hostWriteReg 0x00C w =
      { s with
        cmd := w, phase := .busy, done := false, err := false, ecode := 0x00#8
        outlen := if w = 0x20#32 ∨ w = 0x30#32 then 0#32 else s.outlen
        hostWroteFootprint := false, hostWroteInput := false }

/-- 44_control.md R251: what a host write of each register does, and that such a bus access, by offset or by address, is one
atomic host step with that effect. The list of moves and the record of answers are the model's (log entry 2). -/
def Obligations.HostWriteFollowsRegisterMap : Prop :=
  ∀ (s : State) (v : Word),
    s.hostWriteReg 0x004 v = (if v.getLsbD 1 then s.softReset else { s with ie := v.getLsbD 0 }) ∧
    s.hostWriteReg 0x008 v =
      { s with
        done := if v.getLsbD 1 then false else s.done
        err := if v.getLsbD 2 then false else s.err
        ecode := if v.getLsbD 2 then 0x00#8 else s.ecode
        werr := if v.getLsbD 3 then false else s.werr } ∧
    (s.phase = .busy → ∀ off ∈ [0x00C, 0x010, 0x014, 0x018, 0x01C, 0x020, 0x024, 0x030, 0x034],
      s.hostWriteReg off v = { s with werr := true }) ∧
    (s.phase = .idle →
      s.hostWriteReg 0x00C v = s.accept v ∧
      s.hostWriteReg 0x010 v = { s with src := v } ∧ s.hostWriteReg 0x014 v = { s with dst := v } ∧
      s.hostWriteReg 0x018 v = { s with len := v } ∧ s.hostWriteReg 0x01C v = { s with csize := v } ∧
      s.hostWriteReg 0x020 v = { s with rsize := v } ∧
      s.hostWriteReg 0x024 v = { s with typ := v.extractLsb' 0 8 } ∧
      s.hostWriteReg 0x030 v = { s with blk0 := v } ∧ s.hostWriteReg 0x034 v = { s with blk1 := v }) ∧
    (∀ off, off = 0x000 ∨ off = 0x028 ∨ off = 0x02C ∨ 0x038 ≤ off → s.hostWriteReg off v = s) ∧
    (∀ off, off < 0x1000 → off % 4 = 0 →
      s.hostAccess ⟨.reg off, 4, .write v⟩ = .next ((s.hostWriteReg off v).answer .written) ∧
      s.hostAccess ⟨.addr (s.params.regBase + off), 4, .write v⟩ =
        .next ((s.hostWriteReg off v).answer .written)) ∧
    (∀ op rest, s.inputs = .access op :: rest → step s = State.hostAccess op { s with inputs := rest })

/-- 44_control.md R252: what a host read of each register returns, a free value for a result register while Busy, and that it
changes no state of the block: only the model's record of answers and count of draws. -/
def Obligations.HostReadFollowsRegisterMap : Prop :=
  ∀ s : State,
    s.hostReadReg 0x000 = 0x47524601#32 ∧ s.hostReadReg 0x004 = (if s.ie then 1#32 else 0#32) ∧
    s.hostReadReg 0x008 =
      0#16 ++ s.ecode ++ 0#4 ++ BitVec.ofBool s.werr ++ BitVec.ofBool s.err ++ BitVec.ofBool s.done
        ++ BitVec.ofBool (decide (s.phase = .busy)) ∧
    s.hostReadReg 0x00C = s.cmd ∧ s.hostReadReg 0x010 = s.src ∧ s.hostReadReg 0x014 = s.dst ∧
    s.hostReadReg 0x018 = s.len ∧ s.hostReadReg 0x01C = s.csize ∧ s.hostReadReg 0x020 = s.rsize ∧
    s.hostReadReg 0x024 = 0#24 ++ s.typ ∧
    (s.phase = .idle →
      s.hostReadReg 0x028 = s.outlen ∧ s.hostReadReg 0x02C = 0#27 ++ s.cycle ∧
      s.hostReadReg 0x030 = s.blk0 ∧ s.hostReadReg 0x034 = s.blk1) ∧
    (s.phase = .busy → ∀ off ∈ [0x028, 0x02C, 0x030, 0x034],
      ∃ k, s.draws ≤ k ∧ s.hostReadReg off = Config.freeWord k) ∧
    s.hostReadReg 0x038 = BitVec.ofNat 32 s.params.wmemSize ∧
    (∀ off, 0x03C ≤ off → s.hostReadReg off = 0#32) ∧
    (∀ off, off < 0x1000 → off % 4 = 0 → ∃ t, s.hostAccess ⟨.reg off, 4, .read⟩ = .next t ∧
      t = { s with responses := .data (s.hostReadReg off) :: s.responses, draws := t.draws })

/-- 44_control.md R253: what `STATUS` reads after a completed command. -/
def Obligations.StatusAfterCompletion : Prop :=
  ∀ (i : Instr) (s t : State), exec i s = .next t →
    t.statusWord =
      (if t.ecode = 0x00#8 then 0x00000002#32 else 0x00000006#32 ||| (t.ecode.setWidth 32 <<< 8)) |||
      (if s.werr then 0x8#32 else 0#32)

/-- 60_exceptions.md R280: `irq` is `CTRL.IE & STATUS.DONE`: raised by every completion where enabled, lowered by the W1C of
`DONE`, by acceptance and by a soft reset, raised and masked at once by `IE`; it drives the platform's input `IRQ_LINE` and no
other. -/
def Obligations.IrqFollowsDoneAndEnable : Prop :=
  (∀ s : State, s.irq = (s.ie && s.done)) ∧
  (∀ (s : State) (n : Nat), s.drivesInput n = true ↔ n = s.params.irqLine ∧ s.irq = true) ∧
  (∀ (i : Instr) (s t : State), exec i s = .next t → t.irq = s.ie) ∧
  (∀ (s : State) (v : Word), v.getLsbD 1 = true → (s.hostWriteReg 0x008 v).irq = false) ∧
  (∀ (s : State) (w : Word), s.phase = .idle → (s.hostWriteReg 0x00C w).irq = false) ∧
  (∀ (s : State) (v : Word), v.getLsbD 1 = true → (s.hostWriteReg 0x004 v).irq = false) ∧
  (∀ (s : State) (v : Word), v.getLsbD 1 = false → (s.hostWriteReg 0x004 v).irq = (v.getLsbD 0 && s.done))

/-- 70_reset_and_hazards.md R302, R303: a write of `SRST` = 1 sets every register to 0 and the engine Idle in one step, busy
or not. Idle, it changes no byte of `WMEM`; busy, the command is abandoned, each byte of its footprint becomes unspecified and
every other byte is unchanged. -/
def Obligations.SoftResetClearsRegisters : Prop :=
  ∀ (s t : State) (v : Word), v.getLsbD 1 = true → t = s.hostWriteReg 0x004 v →
    t.ie = false ∧ t.phase = .idle ∧ t.done = false ∧ t.err = false ∧ t.werr = false ∧ t.ecode = 0x00#8 ∧
    t.cmd = 0#32 ∧ t.src = 0#32 ∧ t.dst = 0#32 ∧ t.len = 0#32 ∧ t.csize = 0#32 ∧ t.rsize = 0#32 ∧ t.typ = 0#8 ∧
    t.outlen = 0#32 ∧ t.cycle = 0#5 ∧ t.blk0 = 0#32 ∧ t.blk1 = 0#32 ∧ t.params = s.params ∧ t.irq = false ∧
    (s.phase = .idle → t.wmem = s.wmem) ∧
    (s.phase = .busy → ∀ x, inSpans s.footprint x = true → s.unspecifiedAt t x) ∧
    (∀ x, s.phase = .idle ∨ inSpans s.footprint x = false → t.byteAt x = s.byteAt x)

/-- 10_state.md R52: after power-on every register but the two hardwired ones reads 0, the engine is Idle and `irq` is 0,
whatever the parameters and the contents of `WMEM`; the reset state is such a power-on state, and `rst` gives one again, busy
or not, with another draw for `WMEM`. That no byte of `WMEM` is listed after either is the model's choice (log entry 4), and
so is the list of moves (log entry 2). -/
def Obligations.PowerOnValues : Prop :=
  (∀ (p : Params) (m : Memory),
    (State.powerOn p m).phase = .idle ∧ (State.powerOn p m).irq = false ∧
    (State.powerOn p m).hostReadReg 0x000 = 0x47524601#32 ∧
    (State.powerOn p m).hostReadReg 0x038 = BitVec.ofNat 32 p.wmemSize ∧
    ∀ off, off ≠ 0x000 → off ≠ 0x038 → (State.powerOn p m).hostReadReg off = 0#32) ∧
  State.reset = State.powerOn platformParams [] ∧
  (∀ (s : State) (rest : List Move), s.inputs = .rst :: rest →
    step s = .next { State.powerOn s.params [] with
      powerOns := s.powerOns + 1, draws := s.draws, inputs := rest, responses := s.responses })

/-! ## The host's bus -/

/-- 20_memory.md R67: a host write of 1, 2 or 4 bytes stores the value's bytes least significant first and nothing else, and
a host read of the same bytes returns them in the same order, zero-extended. -/
def Obligations.HostMemoryIsLittleEndian : Prop :=
  ∀ (s : State) (a n : Nat) (v : Word), s.phase = .idle → n = 1 ∨ n = 2 ∨ n = 4 → a % n = 0 →
    a + n ≤ s.params.wmemSize →
    ∃ t, s.hostAccess ⟨.mem a, n, .write v⟩ = .next t ∧
      t = { s with wmem := t.wmem, responses := .written :: s.responses } ∧
      (∀ k, k < n → t.byteAt (a + k) = v.extractLsb' (8 * k) 8) ∧
      (∀ x, ¬ (a ≤ x ∧ x < a + n) → t.byteAt x = s.byteAt x) ∧
      t.hostAccess ⟨.mem a, n, .read⟩ =
        .next { t with responses := .data (BitVec.ofNat 32 (v.toNat % 2 ^ (8 * n))) :: t.responses }

/-- 20_memory.md R63, R64: exactly the accesses these rules do not allow get a bus error, and every other completes; a step
faults only on the host's next access. That a bus error ends the run is the model's choice (log entry 7). -/
def Obligations.BusErrorsExactlyOnIllegalAccesses : Prop :=
  (∀ (s : State) (op : BusOp), legalAccess s.params op → ∃ t, s.hostAccess op = .next t) ∧
  (∀ (s : State) (op : BusOp), ¬ legalAccess s.params op → ∃ e, s.hostAccess op = .fault (.busError e op)) ∧
  (∀ (s : State) (f : Fault), step s = .fault f →
    ∃ e op rest, f = .busError e op ∧ s.inputs = .access op :: rest ∧ ¬ legalAccess s.params op)

/-- 30_encoding.md R101: the bus writes of `wrm a, bs`, run from an Idle engine, end with `WMEM[a .. a+len(bs)] = bs` and
leave every other byte. -/
def Obligations.WrmPlacesItsBytes : Prop :=
  ∀ (bs : List Byte) (a : Nat) (s : State) (rest : List Move), s.phase = .idle →
    a + bs.length ≤ s.params.wmemSize → s.inputs = wrm a bs ++ rest →
    ∃ t : State, Host.Core.run Sys2Proof.core (wrm a bs).length s = .next t ∧
      t.inputs = rest ∧ t.phase = .idle ∧ t.memRead a bs.length = bs ∧
      ∀ x, ¬ (a ≤ x ∧ x < a + bs.length) → t.byteAt x = s.byteAt x

/-! ## Invariants -/

/-- The machine invariant (Safety.lean) is kept by every step: canonical working memory inside `WMEM_SIZE`, the status
relations of 10_state.md R26, the legal codes and cycles, `OUTLEN` = 0 while `INFLATE` or `EXTRACT` runs. -/
def Obligations.EveryStepKeepsInvariant : Prop :=
  ∀ s t : State, s.Inv → step s = .next t → t.Inv

/-- The reset state meets the invariant, and its parameters meet the constraints of 00_scope.md R9 and 20_memory.md R69. -/
def Obligations.ResetMeetsInvariant : Prop := State.reset.Inv ∧ State.reset.params.wf = true

/-- 10_state.md R53, R24, R37: no step changes the tables or the other parameters, so `ID` and `WMSIZE` always read the
same. -/
def Obligations.NoStepChangesParameters : Prop :=
  ∀ s t : State, step s = .next t →
    t.params = s.params ∧ t.hostReadReg 0x000 = s.hostReadReg 0x000 ∧ t.hostReadReg 0x038 = s.hostReadReg 0x038
end

