-- ==== Sys2Proof/Laws/Memory.lean ====
section
/-! SUPPORT. Working memory as data: what a write reads back as, that it keeps the canonical form, that it stays inside a
bound, and that equal contents are equal lists. -/

namespace Sys2Proof.Machine
open Sys2Proof

@[simp] theorem Memory.get?_nil (a : Nat) : Memory.get? [] a = none := rfl

theorem Memory.get?_cons (c : Host.Cell) (m : Memory) (a : Nat) :
    Memory.get? (c :: m) a = if c.1 = a then some c.2 else Memory.get? m a := by
  by_cases h : c.1 = a <;> simp [Memory.get?, h]

theorem Memory.get?_append (m n : Memory) (a : Nat) :
    Memory.get? (m ++ n) a = (Memory.get? m a).or (Memory.get? n a) := by
  induction m with
  | nil => simp
  | cons c m ih => rw [List.cons_append, get?_cons, get?_cons, ih]; split <;> simp

theorem Memory.get?_filter_keep (m : Memory) (p : Host.Cell → Bool) (a : Nat) (h : ∀ b, p (a, b) = true) :
    Memory.get? (m.filter p) a = Memory.get? m a := by
  induction m with
  | nil => rfl
  | cons c m ih =>
    by_cases hc : c.1 = a
    · have : p c = true := by have := h c.2; rwa [← hc] at this
      simp [this, get?_cons, hc]
    · by_cases hp : p c <;> simp [hp, get?_cons, hc, ih]

theorem Memory.get?_filter_drop (m : Memory) (p : Host.Cell → Bool) (a : Nat) (h : ∀ b, p (a, b) = false) :
    Memory.get? (m.filter p) a = none := by
  induction m with
  | nil => rfl
  | cons c m ih =>
    by_cases hp : p c
    · have hc : c.1 ≠ a := by
        rintro rfl; simp [h c.2] at hp
      simp [hp, get?_cons, hc, ih]
    · simp [hp, ih]

theorem Memory.get?_cellsAt (a : Nat) (bs : List Byte) (x : Nat) :
    Memory.get? (cellsAt a bs) x = if a ≤ x then bs[x - a]? else none := by
  induction bs generalizing a with
  | nil => simp [cellsAt]
  | cons b bs ih =>
    rw [cellsAt, get?_cons, ih]
    by_cases h : a = x
    · simp [h]
    · by_cases h1 : a ≤ x
      · obtain ⟨k, rfl⟩ : ∃ k, x = a + 1 + k := ⟨x - a - 1, by omega⟩
        have e1 : a + 1 + k - (a + 1) = k := by omega
        have e2 : a + 1 + k - a = k + 1 := by omega
        simp [h, h1, e1, e2]
      · have : ¬ a + 1 ≤ x := by omega
        simp [h, h1, this]

/-- A write reads back its bytes in its range and leaves every other byte. -/
theorem Memory.get?_write (m : Memory) (a : Nat) (bs : List Byte) (x : Nat) :
    (m.write a bs).get? x = if a ≤ x ∧ x < a + bs.length then bs[x - a]? else m.get? x := by
  by_cases hb : bs = []
  · subst hb
    have h : ¬ (a ≤ x ∧ x < a + ([] : List Byte).length) := by simp
    rw [if_neg h]; simp [Memory.write]
  · have he : bs.isEmpty = false := by simp [hb]
    simp only [Memory.write, he, Bool.false_eq_true, if_false]
    rw [get?_append, get?_append, get?_cellsAt]
    by_cases h1 : x < a
    · have hn : ¬ a ≤ x := by omega
      rw [get?_filter_keep m _ x (by simp [h1])]
      rw [get?_filter_drop m (fun c => decide (a + bs.length ≤ c.1)) x (by simp; omega)]
      simp [hn]
    · have hn : a ≤ x := by omega
      rw [get?_filter_drop m (fun c => decide (c.1 < a)) x (by simp; omega)]
      by_cases h2 : x < a + bs.length
      · have hlt : x - a < bs.length := by omega
        simp [hn, h2, List.getElem?_eq_getElem hlt]
      · rw [get?_filter_keep m (fun c => decide (a + bs.length ≤ c.1)) x (by simp; omega)]
        have : bs[x - a]? = none := List.getElem?_eq_none (by omega)
        simp [hn, h2, this]

/-- Rising offsets with a smaller bound below. -/
theorem risingFrom_mono {lo lo' : Nat} (h : lo' ≤ lo) {m : Memory} (hm : risingFrom lo m = true) :
    risingFrom lo' m = true := by
  cases m with
  | nil => rfl
  | cons c m => simp [risingFrom] at hm ⊢; exact ⟨by omega, hm.2⟩

theorem risingFrom_filter {m : Memory} (p : Host.Cell → Bool) {lo : Nat} (h : risingFrom lo m = true) :
    risingFrom lo (m.filter p) = true := by
  induction m generalizing lo with
  | nil => rfl
  | cons c m ih =>
    simp [risingFrom] at h
    by_cases hp : p c
    · simp [hp, risingFrom, h.1, ih h.2]
    · simp [hp]; exact risingFrom_mono (by omega) (ih h.2)

theorem risingFrom_ge {m : Memory} {lo : Nat} (h : risingFrom lo m = true) : ∀ c ∈ m, lo ≤ c.1 := by
  induction m generalizing lo with
  | nil => simp
  | cons c m ih =>
    simp [risingFrom] at h
    intro d hd
    rcases List.mem_cons.1 hd with rfl | hd
    · exact h.1
    · have := ih h.2 d hd; omega

theorem risingFrom_of_ge {m : Memory} {lo hi : Nat} (h : risingFrom lo m = true) (hg : ∀ c ∈ m, hi ≤ c.1) :
    risingFrom hi m = true := by
  cases m with
  | nil => rfl
  | cons c m => simp [risingFrom] at h ⊢; exact ⟨hg c (by simp), h.2⟩

theorem risingFrom_append {m n : Memory} {lo mid : Nat} (hm : risingFrom lo m = true)
    (hlt : ∀ c ∈ m, c.1 < mid) (hle : lo ≤ mid) (hn : risingFrom mid n = true) :
    risingFrom lo (m ++ n) = true := by
  induction m generalizing lo with
  | nil => exact risingFrom_mono hle hn
  | cons c m ih =>
    simp [risingFrom] at hm ⊢
    exact ⟨hm.1, ih hm.2 (fun d hd => hlt d (by simp [hd])) (by have := hlt c (by simp); omega)⟩

theorem risingFrom_cellsAt (a : Nat) (bs : List Byte) : risingFrom a (cellsAt a bs) = true := by
  induction bs generalizing a with
  | nil => rfl
  | cons b bs ih => simp [cellsAt, risingFrom, ih]

theorem mem_cellsAt {a : Nat} {bs : List Byte} {c : Host.Cell} (h : c ∈ cellsAt a bs) :
    a ≤ c.1 ∧ c.1 < a + bs.length := by
  induction bs generalizing a with
  | nil => simp [cellsAt] at h
  | cons b bs ih =>
    rcases List.mem_cons.1 h with rfl | h
    · simp
    · have := ih h; simp; omega

/-- Every memory operation keeps the canonical form: a write is the only one. -/
theorem Memory.write_wf {m : Memory} (h : m.wf = true) (a : Nat) (bs : List Byte) : (m.write a bs).wf = true := by
  unfold Memory.write
  split
  · exact h
  · rename_i hb
    have hpos : 0 < bs.length := by cases bs <;> simp_all
    have h1 : risingFrom 0 (m.filter fun c => c.1 < a) = true := risingFrom_filter _ h
    have h3 : risingFrom (a + bs.length) (m.filter fun c => a + bs.length ≤ c.1) = true :=
      risingFrom_of_ge (risingFrom_filter _ h) (by intro c hc; simpa using (List.mem_filter.1 hc).2)
    have h2 : risingFrom a (cellsAt a bs ++ m.filter fun c => a + bs.length ≤ c.1) = true :=
      risingFrom_append (risingFrom_cellsAt a bs) (fun c hc => (mem_cellsAt hc).2) (by omega) h3
    rw [Memory.wf, List.append_assoc]
    exact risingFrom_append h1 (by intro c hc; simpa using (List.mem_filter.1 hc).2) (by omega) h2

/-- A write inside a bound leaves every cell inside it. -/
theorem Memory.write_inside {m : Memory} {size : Nat} (h : ∀ c ∈ m, c.1 < size) {a : Nat} {bs : List Byte}
    (hb : a + bs.length ≤ size) : ∀ c ∈ m.write a bs, c.1 < size := by
  intro c hc
  unfold Memory.write at hc
  split at hc
  · exact h c hc
  · simp only [List.mem_append, List.mem_filter] at hc
    rcases hc with (hc | hc) | hc
    · exact h c hc.1
    · have := mem_cellsAt hc; omega
    · exact h c hc.1

/-- Memories in canonical form with equal contents are equal. -/
theorem Memory.ext_of_get? {m n : Memory} {lo : Nat} (hm : risingFrom lo m = true) (hn : risingFrom lo n = true)
    (h : ∀ a, m.get? a = n.get? a) : m = n := by
  have none_below : ∀ {k : Memory} {l a : Nat}, risingFrom l k = true → a < l → k.get? a = none := by
    intro k l a hk ha
    have hf : k.find? (fun c => c.1 == a) = none := by
      rw [List.find?_eq_none]; intro c hc; have := risingFrom_ge hk c hc; simp; omega
    simp [Memory.get?, hf]
  induction m generalizing n lo with
  | nil =>
    cases n with
    | nil => rfl
    | cons d n => have := h d.1; simp [get?_cons] at this
  | cons c m ih =>
    cases n with
    | nil => have := h c.1; simp [get?_cons] at this
    | cons d n =>
      simp [risingFrom] at hm hn
      have hcd : c.1 = d.1 := by
        by_contra hne
        rcases Nat.lt_or_gt_of_ne hne with hlt | hlt
        · have := h c.1
          rw [get?_cons, get?_cons, if_pos rfl, if_neg (by omega), none_below hn.2 (by omega)] at this
          cases this
        · have := h d.1
          rw [get?_cons, get?_cons, if_pos rfl, if_neg (by omega), none_below hm.2 (by omega)] at this
          cases this
      have hval : c.2 = d.2 := by have := h c.1; simpa [get?_cons, hcd] using this
      have hrest : m = n := by
        refine ih hm.2 (by rw [hcd]; exact hn.2) (fun a => ?_)
        by_cases ha : a = c.1
        · rw [none_below hm.2 (by omega), none_below hn.2 (by omega)]
        · have := h a
          rwa [get?_cons, get?_cons, if_neg (by omega), if_neg (by omega)] at this
      rw [hrest, Prod.ext hcd hval]

end Sys2Proof.Machine
end

