-- ==== Sys2Proof/Laws/State.lean ====
section
/-! SUPPORT. The state under each shared update, field by field: true by rfl, so that no later proof unfolds a record
update. -/

namespace Sys2Proof.Machine
open Sys2Proof

/-! `setBlk` -/

@[simp] theorem State.setBlk_params (s : State) (b : Block) : (s.setBlk b).params = s.params := rfl
@[simp] theorem State.setBlk_ie (s : State) (b : Block) : (s.setBlk b).ie = s.ie := rfl
@[simp] theorem State.setBlk_phase (s : State) (b : Block) : (s.setBlk b).phase = s.phase := rfl
@[simp] theorem State.setBlk_done (s : State) (b : Block) : (s.setBlk b).done = s.done := rfl
@[simp] theorem State.setBlk_err (s : State) (b : Block) : (s.setBlk b).err = s.err := rfl
@[simp] theorem State.setBlk_werr (s : State) (b : Block) : (s.setBlk b).werr = s.werr := rfl
@[simp] theorem State.setBlk_ecode (s : State) (b : Block) : (s.setBlk b).ecode = s.ecode := rfl
@[simp] theorem State.setBlk_cmd (s : State) (b : Block) : (s.setBlk b).cmd = s.cmd := rfl
@[simp] theorem State.setBlk_src (s : State) (b : Block) : (s.setBlk b).src = s.src := rfl
@[simp] theorem State.setBlk_dst (s : State) (b : Block) : (s.setBlk b).dst = s.dst := rfl
@[simp] theorem State.setBlk_len (s : State) (b : Block) : (s.setBlk b).len = s.len := rfl
@[simp] theorem State.setBlk_csize (s : State) (b : Block) : (s.setBlk b).csize = s.csize := rfl
@[simp] theorem State.setBlk_rsize (s : State) (b : Block) : (s.setBlk b).rsize = s.rsize := rfl
@[simp] theorem State.setBlk_typ (s : State) (b : Block) : (s.setBlk b).typ = s.typ := rfl
@[simp] theorem State.setBlk_outlen (s : State) (b : Block) : (s.setBlk b).outlen = s.outlen := rfl
@[simp] theorem State.setBlk_cycle (s : State) (b : Block) : (s.setBlk b).cycle = s.cycle := rfl
@[simp] theorem State.setBlk_blk0 (s : State) (b : Block) : (s.setBlk b).blk0 = wordOfHalf b.lo := rfl
@[simp] theorem State.setBlk_blk1 (s : State) (b : Block) : (s.setBlk b).blk1 = wordOfHalf b.hi := rfl
@[simp] theorem State.setBlk_wmem (s : State) (b : Block) : (s.setBlk b).wmem = s.wmem := rfl
@[simp] theorem State.setBlk_powerOns (s : State) (b : Block) : (s.setBlk b).powerOns = s.powerOns := rfl
@[simp] theorem State.setBlk_draws (s : State) (b : Block) : (s.setBlk b).draws = s.draws := rfl
@[simp] theorem State.setBlk_hostWroteFootprint (s : State) (b : Block) : (s.setBlk b).hostWroteFootprint = s.hostWroteFootprint := rfl
@[simp] theorem State.setBlk_hostWroteInput (s : State) (b : Block) : (s.setBlk b).hostWroteInput = s.hostWroteInput := rfl
@[simp] theorem State.setBlk_inputs (s : State) (b : Block) : (s.setBlk b).inputs = s.inputs := rfl
@[simp] theorem State.setBlk_responses (s : State) (b : Block) : (s.setBlk b).responses = s.responses := rfl

/-! `setCycle` -/

@[simp] theorem State.setCycle_params (s : State) : s.setCycle.params = s.params := rfl
@[simp] theorem State.setCycle_ie (s : State) : s.setCycle.ie = s.ie := rfl
@[simp] theorem State.setCycle_phase (s : State) : s.setCycle.phase = s.phase := rfl
@[simp] theorem State.setCycle_done (s : State) : s.setCycle.done = s.done := rfl
@[simp] theorem State.setCycle_err (s : State) : s.setCycle.err = s.err := rfl
@[simp] theorem State.setCycle_werr (s : State) : s.setCycle.werr = s.werr := rfl
@[simp] theorem State.setCycle_ecode (s : State) : s.setCycle.ecode = s.ecode := rfl
@[simp] theorem State.setCycle_cmd (s : State) : s.setCycle.cmd = s.cmd := rfl
@[simp] theorem State.setCycle_src (s : State) : s.setCycle.src = s.src := rfl
@[simp] theorem State.setCycle_dst (s : State) : s.setCycle.dst = s.dst := rfl
@[simp] theorem State.setCycle_len (s : State) : s.setCycle.len = s.len := rfl
@[simp] theorem State.setCycle_csize (s : State) : s.setCycle.csize = s.csize := rfl
@[simp] theorem State.setCycle_rsize (s : State) : s.setCycle.rsize = s.rsize := rfl
@[simp] theorem State.setCycle_typ (s : State) : s.setCycle.typ = s.typ := rfl
@[simp] theorem State.setCycle_outlen (s : State) : s.setCycle.outlen = s.outlen := rfl
@[simp] theorem State.setCycle_cycle (s : State) : s.setCycle.cycle = BitVec.ofNat 5 (cycleOf s.csizeNat) := rfl
@[simp] theorem State.setCycle_blk0 (s : State) : s.setCycle.blk0 = s.blk0 := rfl
@[simp] theorem State.setCycle_blk1 (s : State) : s.setCycle.blk1 = s.blk1 := rfl
@[simp] theorem State.setCycle_wmem (s : State) : s.setCycle.wmem = s.wmem := rfl
@[simp] theorem State.setCycle_powerOns (s : State) : s.setCycle.powerOns = s.powerOns := rfl
@[simp] theorem State.setCycle_draws (s : State) : s.setCycle.draws = s.draws := rfl
@[simp] theorem State.setCycle_hostWroteFootprint (s : State) : s.setCycle.hostWroteFootprint = s.hostWroteFootprint := rfl
@[simp] theorem State.setCycle_hostWroteInput (s : State) : s.setCycle.hostWroteInput = s.hostWroteInput := rfl
@[simp] theorem State.setCycle_inputs (s : State) : s.setCycle.inputs = s.inputs := rfl
@[simp] theorem State.setCycle_responses (s : State) : s.setCycle.responses = s.responses := rfl

/-! `memWrite` -/

@[simp] theorem State.memWrite_params (s : State) (a : Nat) (bs : List Byte) : (s.memWrite a bs).params = s.params := rfl
@[simp] theorem State.memWrite_ie (s : State) (a : Nat) (bs : List Byte) : (s.memWrite a bs).ie = s.ie := rfl
@[simp] theorem State.memWrite_phase (s : State) (a : Nat) (bs : List Byte) : (s.memWrite a bs).phase = s.phase := rfl
@[simp] theorem State.memWrite_done (s : State) (a : Nat) (bs : List Byte) : (s.memWrite a bs).done = s.done := rfl
@[simp] theorem State.memWrite_err (s : State) (a : Nat) (bs : List Byte) : (s.memWrite a bs).err = s.err := rfl
@[simp] theorem State.memWrite_werr (s : State) (a : Nat) (bs : List Byte) : (s.memWrite a bs).werr = s.werr := rfl
@[simp] theorem State.memWrite_ecode (s : State) (a : Nat) (bs : List Byte) : (s.memWrite a bs).ecode = s.ecode := rfl
@[simp] theorem State.memWrite_cmd (s : State) (a : Nat) (bs : List Byte) : (s.memWrite a bs).cmd = s.cmd := rfl
@[simp] theorem State.memWrite_src (s : State) (a : Nat) (bs : List Byte) : (s.memWrite a bs).src = s.src := rfl
@[simp] theorem State.memWrite_dst (s : State) (a : Nat) (bs : List Byte) : (s.memWrite a bs).dst = s.dst := rfl
@[simp] theorem State.memWrite_len (s : State) (a : Nat) (bs : List Byte) : (s.memWrite a bs).len = s.len := rfl
@[simp] theorem State.memWrite_csize (s : State) (a : Nat) (bs : List Byte) : (s.memWrite a bs).csize = s.csize := rfl
@[simp] theorem State.memWrite_rsize (s : State) (a : Nat) (bs : List Byte) : (s.memWrite a bs).rsize = s.rsize := rfl
@[simp] theorem State.memWrite_typ (s : State) (a : Nat) (bs : List Byte) : (s.memWrite a bs).typ = s.typ := rfl
@[simp] theorem State.memWrite_outlen (s : State) (a : Nat) (bs : List Byte) : (s.memWrite a bs).outlen = s.outlen := rfl
@[simp] theorem State.memWrite_cycle (s : State) (a : Nat) (bs : List Byte) : (s.memWrite a bs).cycle = s.cycle := rfl
@[simp] theorem State.memWrite_blk0 (s : State) (a : Nat) (bs : List Byte) : (s.memWrite a bs).blk0 = s.blk0 := rfl
@[simp] theorem State.memWrite_blk1 (s : State) (a : Nat) (bs : List Byte) : (s.memWrite a bs).blk1 = s.blk1 := rfl
@[simp] theorem State.memWrite_wmem (s : State) (a : Nat) (bs : List Byte) : (s.memWrite a bs).wmem = s.wmem.write a bs := rfl
@[simp] theorem State.memWrite_powerOns (s : State) (a : Nat) (bs : List Byte) : (s.memWrite a bs).powerOns = s.powerOns := rfl
@[simp] theorem State.memWrite_draws (s : State) (a : Nat) (bs : List Byte) : (s.memWrite a bs).draws = s.draws := rfl
@[simp] theorem State.memWrite_hostWroteFootprint (s : State) (a : Nat) (bs : List Byte) : (s.memWrite a bs).hostWroteFootprint = s.hostWroteFootprint := rfl
@[simp] theorem State.memWrite_hostWroteInput (s : State) (a : Nat) (bs : List Byte) : (s.memWrite a bs).hostWroteInput = s.hostWroteInput := rfl
@[simp] theorem State.memWrite_inputs (s : State) (a : Nat) (bs : List Byte) : (s.memWrite a bs).inputs = s.inputs := rfl
@[simp] theorem State.memWrite_responses (s : State) (a : Nat) (bs : List Byte) : (s.memWrite a bs).responses = s.responses := rfl

/-! `spoil` -/

@[simp] theorem State.spoil_params (s : State) (a n : Nat) : (s.spoil a n).params = s.params := rfl
@[simp] theorem State.spoil_ie (s : State) (a n : Nat) : (s.spoil a n).ie = s.ie := rfl
@[simp] theorem State.spoil_phase (s : State) (a n : Nat) : (s.spoil a n).phase = s.phase := rfl
@[simp] theorem State.spoil_done (s : State) (a n : Nat) : (s.spoil a n).done = s.done := rfl
@[simp] theorem State.spoil_err (s : State) (a n : Nat) : (s.spoil a n).err = s.err := rfl
@[simp] theorem State.spoil_werr (s : State) (a n : Nat) : (s.spoil a n).werr = s.werr := rfl
@[simp] theorem State.spoil_ecode (s : State) (a n : Nat) : (s.spoil a n).ecode = s.ecode := rfl
@[simp] theorem State.spoil_cmd (s : State) (a n : Nat) : (s.spoil a n).cmd = s.cmd := rfl
@[simp] theorem State.spoil_src (s : State) (a n : Nat) : (s.spoil a n).src = s.src := rfl
@[simp] theorem State.spoil_dst (s : State) (a n : Nat) : (s.spoil a n).dst = s.dst := rfl
@[simp] theorem State.spoil_len (s : State) (a n : Nat) : (s.spoil a n).len = s.len := rfl
@[simp] theorem State.spoil_csize (s : State) (a n : Nat) : (s.spoil a n).csize = s.csize := rfl
@[simp] theorem State.spoil_rsize (s : State) (a n : Nat) : (s.spoil a n).rsize = s.rsize := rfl
@[simp] theorem State.spoil_typ (s : State) (a n : Nat) : (s.spoil a n).typ = s.typ := rfl
@[simp] theorem State.spoil_outlen (s : State) (a n : Nat) : (s.spoil a n).outlen = s.outlen := rfl
@[simp] theorem State.spoil_cycle (s : State) (a n : Nat) : (s.spoil a n).cycle = s.cycle := rfl
@[simp] theorem State.spoil_blk0 (s : State) (a n : Nat) : (s.spoil a n).blk0 = s.blk0 := rfl
@[simp] theorem State.spoil_blk1 (s : State) (a n : Nat) : (s.spoil a n).blk1 = s.blk1 := rfl
@[simp] theorem State.spoil_wmem (s : State) (a n : Nat) : (s.spoil a n).wmem = s.wmem.write a (freeBytes s.draws a n) := rfl
@[simp] theorem State.spoil_powerOns (s : State) (a n : Nat) : (s.spoil a n).powerOns = s.powerOns := rfl
@[simp] theorem State.spoil_draws (s : State) (a n : Nat) : (s.spoil a n).draws = s.draws + 1 := rfl
@[simp] theorem State.spoil_hostWroteFootprint (s : State) (a n : Nat) : (s.spoil a n).hostWroteFootprint = s.hostWroteFootprint := rfl
@[simp] theorem State.spoil_hostWroteInput (s : State) (a n : Nat) : (s.spoil a n).hostWroteInput = s.hostWroteInput := rfl
@[simp] theorem State.spoil_inputs (s : State) (a n : Nat) : (s.spoil a n).inputs = s.inputs := rfl
@[simp] theorem State.spoil_responses (s : State) (a n : Nat) : (s.spoil a n).responses = s.responses := rfl

/-! `accept` -/

@[simp] theorem State.accept_params (s : State) (w : Word) : (s.accept w).params = s.params := rfl
@[simp] theorem State.accept_ie (s : State) (w : Word) : (s.accept w).ie = s.ie := rfl
@[simp] theorem State.accept_phase (s : State) (w : Word) : (s.accept w).phase = .busy := rfl
@[simp] theorem State.accept_done (s : State) (w : Word) : (s.accept w).done = false := rfl
@[simp] theorem State.accept_err (s : State) (w : Word) : (s.accept w).err = false := rfl
@[simp] theorem State.accept_werr (s : State) (w : Word) : (s.accept w).werr = s.werr := rfl
@[simp] theorem State.accept_ecode (s : State) (w : Word) : (s.accept w).ecode = 0x00#8 := rfl
@[simp] theorem State.accept_cmd (s : State) (w : Word) : (s.accept w).cmd = w := rfl
@[simp] theorem State.accept_src (s : State) (w : Word) : (s.accept w).src = s.src := rfl
@[simp] theorem State.accept_dst (s : State) (w : Word) : (s.accept w).dst = s.dst := rfl
@[simp] theorem State.accept_len (s : State) (w : Word) : (s.accept w).len = s.len := rfl
@[simp] theorem State.accept_csize (s : State) (w : Word) : (s.accept w).csize = s.csize := rfl
@[simp] theorem State.accept_rsize (s : State) (w : Word) : (s.accept w).rsize = s.rsize := rfl
@[simp] theorem State.accept_typ (s : State) (w : Word) : (s.accept w).typ = s.typ := rfl
@[simp] theorem State.accept_outlen (s : State) (w : Word) : (s.accept w).outlen = if clearsOutlen w then 0#32 else s.outlen := rfl
@[simp] theorem State.accept_cycle (s : State) (w : Word) : (s.accept w).cycle = s.cycle := rfl
@[simp] theorem State.accept_blk0 (s : State) (w : Word) : (s.accept w).blk0 = s.blk0 := rfl
@[simp] theorem State.accept_blk1 (s : State) (w : Word) : (s.accept w).blk1 = s.blk1 := rfl
@[simp] theorem State.accept_wmem (s : State) (w : Word) : (s.accept w).wmem = s.wmem := rfl
@[simp] theorem State.accept_powerOns (s : State) (w : Word) : (s.accept w).powerOns = s.powerOns := rfl
@[simp] theorem State.accept_draws (s : State) (w : Word) : (s.accept w).draws = s.draws := rfl
@[simp] theorem State.accept_hostWroteFootprint (s : State) (w : Word) : (s.accept w).hostWroteFootprint = false := rfl
@[simp] theorem State.accept_hostWroteInput (s : State) (w : Word) : (s.accept w).hostWroteInput = false := rfl
@[simp] theorem State.accept_inputs (s : State) (w : Word) : (s.accept w).inputs = s.inputs := rfl
@[simp] theorem State.accept_responses (s : State) (w : Word) : (s.accept w).responses = s.responses := rfl

/-! `complete` -/

@[simp] theorem State.complete_params (s : State) (c : Option ErrCode) : (s.complete c).params = s.params := rfl
@[simp] theorem State.complete_ie (s : State) (c : Option ErrCode) : (s.complete c).ie = s.ie := rfl
@[simp] theorem State.complete_phase (s : State) (c : Option ErrCode) : (s.complete c).phase = .idle := rfl
@[simp] theorem State.complete_done (s : State) (c : Option ErrCode) : (s.complete c).done = true := rfl
@[simp] theorem State.complete_err (s : State) (c : Option ErrCode) : (s.complete c).err = decide (completionCode c ≠ 0x00#8) := rfl
@[simp] theorem State.complete_werr (s : State) (c : Option ErrCode) : (s.complete c).werr = s.werr := rfl
@[simp] theorem State.complete_ecode (s : State) (c : Option ErrCode) : (s.complete c).ecode = completionCode c := rfl
@[simp] theorem State.complete_cmd (s : State) (c : Option ErrCode) : (s.complete c).cmd = s.cmd := rfl
@[simp] theorem State.complete_src (s : State) (c : Option ErrCode) : (s.complete c).src = s.src := rfl
@[simp] theorem State.complete_dst (s : State) (c : Option ErrCode) : (s.complete c).dst = s.dst := rfl
@[simp] theorem State.complete_len (s : State) (c : Option ErrCode) : (s.complete c).len = s.len := rfl
@[simp] theorem State.complete_csize (s : State) (c : Option ErrCode) : (s.complete c).csize = s.csize := rfl
@[simp] theorem State.complete_rsize (s : State) (c : Option ErrCode) : (s.complete c).rsize = s.rsize := rfl
@[simp] theorem State.complete_typ (s : State) (c : Option ErrCode) : (s.complete c).typ = s.typ := rfl
@[simp] theorem State.complete_outlen (s : State) (c : Option ErrCode) : (s.complete c).outlen = s.outlen := rfl
@[simp] theorem State.complete_cycle (s : State) (c : Option ErrCode) : (s.complete c).cycle = s.cycle := rfl
@[simp] theorem State.complete_blk0 (s : State) (c : Option ErrCode) : (s.complete c).blk0 = s.blk0 := rfl
@[simp] theorem State.complete_blk1 (s : State) (c : Option ErrCode) : (s.complete c).blk1 = s.blk1 := rfl
@[simp] theorem State.complete_wmem (s : State) (c : Option ErrCode) : (s.complete c).wmem = s.wmem := rfl
@[simp] theorem State.complete_powerOns (s : State) (c : Option ErrCode) : (s.complete c).powerOns = s.powerOns := rfl
@[simp] theorem State.complete_draws (s : State) (c : Option ErrCode) : (s.complete c).draws = s.draws := rfl
@[simp] theorem State.complete_hostWroteFootprint (s : State) (c : Option ErrCode) : (s.complete c).hostWroteFootprint = false := rfl
@[simp] theorem State.complete_hostWroteInput (s : State) (c : Option ErrCode) : (s.complete c).hostWroteInput = false := rfl
@[simp] theorem State.complete_inputs (s : State) (c : Option ErrCode) : (s.complete c).inputs = s.inputs := rfl
@[simp] theorem State.complete_responses (s : State) (c : Option ErrCode) : (s.complete c).responses = s.responses := rfl

/-! `answer` -/

@[simp] theorem State.answer_params (s : State) (r : BusResponse) : (s.answer r).params = s.params := rfl
@[simp] theorem State.answer_ie (s : State) (r : BusResponse) : (s.answer r).ie = s.ie := rfl
@[simp] theorem State.answer_phase (s : State) (r : BusResponse) : (s.answer r).phase = s.phase := rfl
@[simp] theorem State.answer_done (s : State) (r : BusResponse) : (s.answer r).done = s.done := rfl
@[simp] theorem State.answer_err (s : State) (r : BusResponse) : (s.answer r).err = s.err := rfl
@[simp] theorem State.answer_werr (s : State) (r : BusResponse) : (s.answer r).werr = s.werr := rfl
@[simp] theorem State.answer_ecode (s : State) (r : BusResponse) : (s.answer r).ecode = s.ecode := rfl
@[simp] theorem State.answer_cmd (s : State) (r : BusResponse) : (s.answer r).cmd = s.cmd := rfl
@[simp] theorem State.answer_src (s : State) (r : BusResponse) : (s.answer r).src = s.src := rfl
@[simp] theorem State.answer_dst (s : State) (r : BusResponse) : (s.answer r).dst = s.dst := rfl
@[simp] theorem State.answer_len (s : State) (r : BusResponse) : (s.answer r).len = s.len := rfl
@[simp] theorem State.answer_csize (s : State) (r : BusResponse) : (s.answer r).csize = s.csize := rfl
@[simp] theorem State.answer_rsize (s : State) (r : BusResponse) : (s.answer r).rsize = s.rsize := rfl
@[simp] theorem State.answer_typ (s : State) (r : BusResponse) : (s.answer r).typ = s.typ := rfl
@[simp] theorem State.answer_outlen (s : State) (r : BusResponse) : (s.answer r).outlen = s.outlen := rfl
@[simp] theorem State.answer_cycle (s : State) (r : BusResponse) : (s.answer r).cycle = s.cycle := rfl
@[simp] theorem State.answer_blk0 (s : State) (r : BusResponse) : (s.answer r).blk0 = s.blk0 := rfl
@[simp] theorem State.answer_blk1 (s : State) (r : BusResponse) : (s.answer r).blk1 = s.blk1 := rfl
@[simp] theorem State.answer_wmem (s : State) (r : BusResponse) : (s.answer r).wmem = s.wmem := rfl
@[simp] theorem State.answer_powerOns (s : State) (r : BusResponse) : (s.answer r).powerOns = s.powerOns := rfl
@[simp] theorem State.answer_draws (s : State) (r : BusResponse) : (s.answer r).draws = s.draws := rfl
@[simp] theorem State.answer_hostWroteFootprint (s : State) (r : BusResponse) : (s.answer r).hostWroteFootprint = s.hostWroteFootprint := rfl
@[simp] theorem State.answer_hostWroteInput (s : State) (r : BusResponse) : (s.answer r).hostWroteInput = s.hostWroteInput := rfl
@[simp] theorem State.answer_inputs (s : State) (r : BusResponse) : (s.answer r).inputs = s.inputs := rfl
@[simp] theorem State.answer_responses (s : State) (r : BusResponse) : (s.answer r).responses = r :: s.responses := rfl

/-! `writeStatus` -/

@[simp] theorem State.writeStatus_params (s : State) (v : Word) : (s.writeStatus v).params = s.params := rfl
@[simp] theorem State.writeStatus_ie (s : State) (v : Word) : (s.writeStatus v).ie = s.ie := rfl
@[simp] theorem State.writeStatus_phase (s : State) (v : Word) : (s.writeStatus v).phase = s.phase := rfl
@[simp] theorem State.writeStatus_done (s : State) (v : Word) : (s.writeStatus v).done = (s.done && !v.getLsbD 1) := rfl
@[simp] theorem State.writeStatus_err (s : State) (v : Word) : (s.writeStatus v).err = (s.err && !v.getLsbD 2) := rfl
@[simp] theorem State.writeStatus_werr (s : State) (v : Word) : (s.writeStatus v).werr = (s.werr && !v.getLsbD 3) := rfl
@[simp] theorem State.writeStatus_ecode (s : State) (v : Word) : (s.writeStatus v).ecode = if v.getLsbD 2 then 0#8 else s.ecode := rfl
@[simp] theorem State.writeStatus_cmd (s : State) (v : Word) : (s.writeStatus v).cmd = s.cmd := rfl
@[simp] theorem State.writeStatus_src (s : State) (v : Word) : (s.writeStatus v).src = s.src := rfl
@[simp] theorem State.writeStatus_dst (s : State) (v : Word) : (s.writeStatus v).dst = s.dst := rfl
@[simp] theorem State.writeStatus_len (s : State) (v : Word) : (s.writeStatus v).len = s.len := rfl
@[simp] theorem State.writeStatus_csize (s : State) (v : Word) : (s.writeStatus v).csize = s.csize := rfl
@[simp] theorem State.writeStatus_rsize (s : State) (v : Word) : (s.writeStatus v).rsize = s.rsize := rfl
@[simp] theorem State.writeStatus_typ (s : State) (v : Word) : (s.writeStatus v).typ = s.typ := rfl
@[simp] theorem State.writeStatus_outlen (s : State) (v : Word) : (s.writeStatus v).outlen = s.outlen := rfl
@[simp] theorem State.writeStatus_cycle (s : State) (v : Word) : (s.writeStatus v).cycle = s.cycle := rfl
@[simp] theorem State.writeStatus_blk0 (s : State) (v : Word) : (s.writeStatus v).blk0 = s.blk0 := rfl
@[simp] theorem State.writeStatus_blk1 (s : State) (v : Word) : (s.writeStatus v).blk1 = s.blk1 := rfl
@[simp] theorem State.writeStatus_wmem (s : State) (v : Word) : (s.writeStatus v).wmem = s.wmem := rfl
@[simp] theorem State.writeStatus_powerOns (s : State) (v : Word) : (s.writeStatus v).powerOns = s.powerOns := rfl
@[simp] theorem State.writeStatus_draws (s : State) (v : Word) : (s.writeStatus v).draws = s.draws := rfl
@[simp] theorem State.writeStatus_hostWroteFootprint (s : State) (v : Word) : (s.writeStatus v).hostWroteFootprint = s.hostWroteFootprint := rfl
@[simp] theorem State.writeStatus_hostWroteInput (s : State) (v : Word) : (s.writeStatus v).hostWroteInput = s.hostWroteInput := rfl
@[simp] theorem State.writeStatus_inputs (s : State) (v : Word) : (s.writeStatus v).inputs = s.inputs := rfl
@[simp] theorem State.writeStatus_responses (s : State) (v : Word) : (s.writeStatus v).responses = s.responses := rfl

/-! `clearRegisters` -/

@[simp] theorem State.clearRegisters_params (s : State) : s.clearRegisters.params = s.params := rfl
@[simp] theorem State.clearRegisters_ie (s : State) : s.clearRegisters.ie = false := rfl
@[simp] theorem State.clearRegisters_phase (s : State) : s.clearRegisters.phase = .idle := rfl
@[simp] theorem State.clearRegisters_done (s : State) : s.clearRegisters.done = false := rfl
@[simp] theorem State.clearRegisters_err (s : State) : s.clearRegisters.err = false := rfl
@[simp] theorem State.clearRegisters_werr (s : State) : s.clearRegisters.werr = false := rfl
@[simp] theorem State.clearRegisters_ecode (s : State) : s.clearRegisters.ecode = 0x00#8 := rfl
@[simp] theorem State.clearRegisters_cmd (s : State) : s.clearRegisters.cmd = 0#32 := rfl
@[simp] theorem State.clearRegisters_src (s : State) : s.clearRegisters.src = 0#32 := rfl
@[simp] theorem State.clearRegisters_dst (s : State) : s.clearRegisters.dst = 0#32 := rfl
@[simp] theorem State.clearRegisters_len (s : State) : s.clearRegisters.len = 0#32 := rfl
@[simp] theorem State.clearRegisters_csize (s : State) : s.clearRegisters.csize = 0#32 := rfl
@[simp] theorem State.clearRegisters_rsize (s : State) : s.clearRegisters.rsize = 0#32 := rfl
@[simp] theorem State.clearRegisters_typ (s : State) : s.clearRegisters.typ = 0#8 := rfl
@[simp] theorem State.clearRegisters_outlen (s : State) : s.clearRegisters.outlen = 0#32 := rfl
@[simp] theorem State.clearRegisters_cycle (s : State) : s.clearRegisters.cycle = 0#5 := rfl
@[simp] theorem State.clearRegisters_blk0 (s : State) : s.clearRegisters.blk0 = 0#32 := rfl
@[simp] theorem State.clearRegisters_blk1 (s : State) : s.clearRegisters.blk1 = 0#32 := rfl
@[simp] theorem State.clearRegisters_wmem (s : State) : s.clearRegisters.wmem = s.wmem := rfl
@[simp] theorem State.clearRegisters_powerOns (s : State) : s.clearRegisters.powerOns = s.powerOns := rfl
@[simp] theorem State.clearRegisters_draws (s : State) : s.clearRegisters.draws = s.draws := rfl
@[simp] theorem State.clearRegisters_hostWroteFootprint (s : State) : s.clearRegisters.hostWroteFootprint = false := rfl
@[simp] theorem State.clearRegisters_hostWroteInput (s : State) : s.clearRegisters.hostWroteInput = false := rfl
@[simp] theorem State.clearRegisters_inputs (s : State) : s.clearRegisters.inputs = s.inputs := rfl
@[simp] theorem State.clearRegisters_responses (s : State) : s.clearRegisters.responses = s.responses := rfl

/-! Ends of commands, in terms of `complete` -/

@[simp] theorem State.finish_eq (s : State) : s.finish = s.complete none := rfl
@[simp] theorem State.raiseError_eq (s : State) (e : ErrCode) : s.raiseError e = s.complete (some e) := rfl
@[simp] theorem State.checked_some (s : State) (e : ErrCode) (f : State → State) :
    s.checked (some e) f = s.complete (some e) := rfl
@[simp] theorem State.checked_none (s : State) (f : State → State) : s.checked none f = f s := rfl

end Sys2Proof.Machine
end

