-- ==== Sys2Proof/Laws/Ops.lean ====
section
/-! SUPPORT. What each shared operation can do, said once: bytes read after writes, unspecified ranges, the check phase, the
ends of commands, the two resets. -/

namespace Sys2Proof.Machine
open Sys2Proof

/-! Reading bytes -/

/-- A byte read depends on the memory and the power-on draw alone. -/
theorem State.byteAt_congr {s t : State} (hm : s.wmem = t.wmem) (hp : s.powerOns = t.powerOns) (a : Nat) :
    s.byteAt a = t.byteAt a := by simp [State.byteAt, hm, hp]

theorem State.memRead_congr {s t : State} {a n : Nat} (h : ∀ k, k < n → s.byteAt (a + k) = t.byteAt (a + k)) :
    s.memRead a n = t.memRead a n := by
  unfold State.memRead
  exact List.map_congr_left fun k hk => h k (List.mem_range.1 hk)

@[simp] theorem State.memRead_length (s : State) (a n : Nat) : (s.memRead a n).length = n := by simp [State.memRead]

theorem State.memRead_getElem? (s : State) (a n k : Nat) :
    (s.memRead a n)[k]? = if k < n then some (s.byteAt (a + k)) else none := by
  by_cases h : k < n <;> simp [State.memRead, h]

/-- Two runs of bytes are equal where their bytes are. -/
theorem State.memRead_eq_iff (s : State) (a : Nat) (bs : List Byte) :
    s.memRead a bs.length = bs ↔ ∀ k (h : k < bs.length), s.byteAt (a + k) = bs[k] := by
  constructor
  · intro h k hk
    have := congrArg (·[k]?) h
    rw [State.memRead_getElem?, if_pos hk, List.getElem?_eq_getElem hk] at this
    exact Option.some.inj this
  · intro h
    refine List.ext_getElem? fun k => ?_
    rw [State.memRead_getElem?]
    by_cases hk : k < bs.length
    · rw [if_pos hk, h k hk, List.getElem?_eq_getElem hk]
    · rw [if_neg hk, List.getElem?_eq_none (by omega)]

@[simp] theorem freeBytes_length (d a n : Nat) : (freeBytes d a n).length = n := by simp [freeBytes]

/-! Writing bytes -/

/-- A byte after `memWrite`: the written one inside the range, the old one outside. -/
theorem State.byteAt_memWrite (s : State) (a : Nat) (bs : List Byte) (x : Nat) :
    (s.memWrite a bs).byteAt x = if a ≤ x ∧ x < a + bs.length then bs.getD (x - a) 0#8 else s.byteAt x := by
  unfold State.byteAt
  rw [State.memWrite_wmem, State.memWrite_powerOns, Memory.get?_write]
  split
  · rename_i h
    have hlt : x - a < bs.length := by omega
    simp [List.getElem?_eq_getElem hlt, List.getD_eq_getElem?_getD]
  · rfl

/-- A byte after `spoil`: the free value of the draw inside the range, the old byte outside. -/
theorem State.byteAt_spoil (s : State) (a n x : Nat) :
    (s.spoil a n).byteAt x = if a ≤ x ∧ x < a + n then Config.freeByte s.draws x else s.byteAt x := by
  unfold State.byteAt
  rw [State.spoil_wmem, State.spoil_powerOns, Memory.get?_write, freeBytes_length]
  split
  · rename_i h
    have hlt : x - a < n := by omega
    have : a + (x - a) = x := by omega
    simp [freeBytes, hlt, this]
  · rfl

theorem State.byteAt_writeOutput_outside (s : State) (a : Nat) (bs : List Byte) (x : Nat)
    (h : ¬ (a ≤ x ∧ x < a + bs.length)) : (s.writeOutput a bs).byteAt x = s.byteAt x := by
  unfold State.writeOutput
  split
  · rw [State.byteAt_spoil, if_neg h]
  · rw [State.byteAt_memWrite, if_neg h]

/-- A run written is the run read back. -/
theorem State.memRead_memWrite (s : State) (a : Nat) (bs : List Byte) :
    (s.memWrite a bs).memRead a bs.length = bs := by
  rw [State.memRead_eq_iff]
  intro k hk
  rw [State.byteAt_memWrite, if_pos ⟨by omega, by omega⟩]
  have : a + k - a = k := by omega
  rw [this, List.getD_eq_getElem?_getD, List.getElem?_eq_getElem hk]; rfl

/-- `writeOutput` writes the bytes, or leaves them unspecified where the host interfered; it changes `wmem` and `draws`
alone. -/
theorem State.writeOutput_cases (s : State) (a : Nat) (bs : List Byte) :
    (s.hostWroteFootprint = false ∧ s.writeOutput a bs = s.memWrite a bs) ∨
    (s.hostWroteFootprint = true ∧ s.writeOutput a bs = s.spoil a bs.length) := by
  unfold State.writeOutput
  cases h : s.hostWroteFootprint <;> simp

/-! Unspecified ranges -/

/-- `spoilSpans` changes `wmem` and `draws` alone. -/
theorem State.spoilSpans_frame (rs : List Span) (s : State) :
    s.spoilSpans rs = { s with wmem := (s.spoilSpans rs).wmem, draws := (s.spoilSpans rs).draws } := by
  induction rs generalizing s with
  | nil => rfl
  | cons r rs ih =>
    have h := ih (s.spoil r.start r.count)
    show State.spoilSpans rs (s.spoil r.start r.count) = _
    rw [h]; rfl

/-- Bytes outside every range keep their value. -/
theorem State.byteAt_spoilSpans_outside (rs : List Span) (s : State) (a : Nat) (h : inSpans rs a = false) :
    (s.spoilSpans rs).byteAt a = s.byteAt a := by
  induction rs generalizing s with
  | nil => rfl
  | cons r rs ih =>
    simp only [inSpans, List.any_cons, Bool.or_eq_false_iff] at h
    show (State.spoilSpans rs (s.spoil r.start r.count)).byteAt a = _
    rw [ih _ h.2, State.byteAt_spoil, if_neg]
    simpa [Span.has] using h.1

theorem State.spoilSpans_wf (rs : List Span) {s : State} (h : s.wmem.wf = true) :
    (s.spoilSpans rs).wmem.wf = true := by
  induction rs generalizing s with
  | nil => exact h
  | cons r rs ih => exact ih (s := s.spoil r.start r.count) (Memory.write_wf h _ _)

theorem State.spoilSpans_inside (rs : List Span) {s : State} {size : Nat} (h : ∀ c ∈ s.wmem, c.1 < size)
    (hr : ∀ r ∈ rs, r.start + r.count ≤ size) : ∀ c ∈ (s.spoilSpans rs).wmem, c.1 < size := by
  induction rs generalizing s with
  | nil => exact h
  | cons r rs ih =>
    refine ih (s := s.spoil r.start r.count) ?_ fun q hq => hr q (by simp [hq])
    exact Memory.write_inside h (by simpa using hr r (by simp))

/-! Operands -/

/-- A size that is not negative is its register read as an unsigned number. -/
theorem toNat_toInt {w : Word} (h : 0 ≤ w.toInt) : w.toInt.toNat = w.toNat := by
  rw [BitVec.toInt_eq_toNat_cond] at *
  split at h
  · rename_i hw; rw [if_pos hw]; simp
  · have := w.isLt; omega

theorem State.lenNat_eq {s : State} (h : 0 ≤ s.len.toInt) : s.lenNat = s.len.toNat := toNat_toInt h
theorem State.csizeNat_eq {s : State} (h : 0 ≤ s.csize.toInt) : s.csizeNat = s.csize.toNat := toNat_toInt h
theorem State.rsizeNat_eq {s : State} (h : 0 ≤ s.rsize.toInt) : s.rsizeNat = s.rsize.toNat := toNat_toInt h

theorem State.mode_mixed {s : State} : s.mode = .mixed ↔ s.typ.getLsbD 1 = true := by
  unfold State.mode
  generalize s.typ = t; revert t; decide

theorem State.mode_header {s : State} :
    s.mode = .header ↔ s.typ.getLsbD 1 = false ∧ s.typ.getLsbD 2 = true := by
  unfold State.mode
  generalize s.typ = t; revert t; decide

theorem State.mode_none {s : State} : s.mode = .none ↔ s.typ.getLsbD 1 = false ∧ s.typ.getLsbD 2 = false := by
  unfold State.mode
  generalize s.typ = t; revert t; decide

theorem State.mode_ne_none {s : State} :
    s.mode ≠ .none ↔ s.typ.getLsbD 1 = true ∨ s.typ.getLsbD 2 = true := by
  unfold State.mode
  generalize s.typ = t; revert t; decide

theorem overlap_iff (a n b k : Nat) : overlap a n b k = true ↔ max a b < min (a + n) (b + k) := by
  unfold overlap; simp; omega

/-! The check phase -/

theorem firstFailure_none {l : List (Bool × ErrCode)} :
    firstFailure l = none ↔ ∀ p ∈ l, p.1 = false := by
  induction l with
  | nil => simp [firstFailure]
  | cons p l ih => obtain ⟨b, e⟩ := p; cases b <;> simp [firstFailure, ih]

theorem firstFailure_decide (p : Prop) [Decidable p] (e : ErrCode) (l : List (Bool × ErrCode)) :
    firstFailure ((decide p, e) :: l) = if p then some e else firstFailure l := by
  by_cases h : p <;> simp [firstFailure, h]

theorem firstFailure_not_decide (p : Prop) [Decidable p] (e : ErrCode) (l : List (Bool × ErrCode)) :
    firstFailure ((!decide p, e) :: l) = if ¬ p then some e else firstFailure l := by
  by_cases h : p <;> simp [firstFailure, h]

theorem checkCycle_none {s : State} : checkCycle s = none ↔ 0 ≤ s.opCsize := by
  simp [checkCycle, firstFailure_none]

theorem checkDechdr_none {s : State} :
    checkDechdr s = none ↔
      0 ≤ s.opLen ∧ s.opLen % 8 = 0 ∧ s.opSrc + s.lenNat ≤ s.params.wmemSize := by
  simp [checkDechdr, firstFailure_none, State.inside, and_assoc]

theorem checkDecmix_none {s : State} :
    checkDecmix s = none ↔
      0 ≤ s.opLen ∧ s.opLen % 8 = 0 ∧ 0 ≤ s.opCsize ∧ s.opSrc + s.lenNat ≤ s.params.wmemSize := by
  simp [checkDecmix, firstFailure_none, State.inside, and_assoc]

theorem checkDecipher_none {s : State} :
    checkDecipher s = none ↔
      0 ≤ s.opLen ∧ (s.mode ≠ .none → s.opLen % 8 = 0) ∧ (s.mode = .mixed → 0 ≤ s.opCsize) ∧
        s.opSrc + s.lenNat ≤ s.params.wmemSize := by
  simp [checkDecipher, firstFailure_none, State.inside]

theorem checkInflate_none {s : State} :
    checkInflate s = none ↔
      0 ≤ s.opCsize ∧ 0 ≤ s.opRsize ∧ s.opSrc + s.csizeNat ≤ s.params.wmemSize ∧
        s.opDst + s.rsizeNat ≤ s.params.wmemSize ∧
        overlap s.opSrc s.csizeNat s.opDst s.rsizeNat = false := by
  simp [checkInflate, firstFailure_none, State.inside, and_assoc]

theorem checkExtract_none {s : State} :
    checkExtract s = none ↔
      0 ≤ s.opLen ∧ 0 ≤ s.opCsize ∧ 0 ≤ s.opRsize ∧ (s.mode ≠ .none → s.opLen % 8 = 0) ∧
        s.opCsize ≤ s.opLen ∧ s.opSrc + s.lenNat ≤ s.params.wmemSize ∧
        s.opDst + s.rsizeNat ≤ s.params.wmemSize ∧
        overlap s.opSrc s.lenNat s.opDst s.rsizeNat = false := by
  simp [checkExtract, firstFailure_none, State.inside, and_assoc]

/-- A command with a check phase ends with the failing check's code and nothing else, or runs its execute phase. -/
theorem State.checked_cases (c : Option ErrCode) (f : State → State) (s : State) :
    (∃ e, c = some e ∧ s.checked c f = s.complete (some e)) ∨ (c = none ∧ s.checked c f = f s) := by
  cases c with
  | none => exact .inr ⟨rfl, rfl⟩
  | some e => exact .inl ⟨e, rfl, rfl⟩

/-- The ranges of a command whose checks pass lie inside `WMEM`. -/
theorem spansOf_inside {i : Instr} {s : State} (h : checkOf i s = none) :
    ∀ r ∈ spansOf i s, r.start + r.count ≤ s.params.wmemSize := by
  cases i with
  | nop => simp [spansOf]
  | desblk => simp [spansOf]
  | shufblk => simp [spansOf]
  | cycle => simp [spansOf]
  | dechdr => simpa [spansOf, State.payloadSpan] using (checkDechdr_none.1 h).2.2
  | decmix => simpa [spansOf, State.payloadSpan] using (checkDecmix_none.1 h).2.2.2
  | decipher => simpa [spansOf, State.payloadSpan] using (checkDecipher_none.1 h).2.2.2
  | inflate =>
    have := checkInflate_none.1 h
    simpa [spansOf, State.streamSpan, State.resultSpan] using ⟨this.2.2.1, this.2.2.2.1⟩
  | extract =>
    have := checkExtract_none.1 h
    simpa [spansOf, State.payloadSpan, State.resultSpan] using ⟨this.2.2.2.2.2.1, this.2.2.2.2.2.2.1⟩

/-- Every footprint lies inside `WMEM` (20_memory.md R62, R66). -/
theorem State.footprint_inside (s : State) : ∀ r ∈ s.footprint, r.start + r.count ≤ s.params.wmemSize := by
  unfold State.footprint State.spansWhenRun
  split
  · split
    · exact spansOf_inside ‹_›
    · simp
  · simp

/-- The footprint reads registers and `WMEM_SIZE` alone, so no write to `WMEM` changes it. -/
@[simp] theorem State.footprint_memWrite (s : State) (a : Nat) (bs : List Byte) :
    (s.memWrite a bs).footprint = s.footprint := by
  unfold State.footprint State.spansWhenRun
  rw [State.memWrite_cmd]
  cases decode s.cmd with
  | error e => rfl
  | ok i => cases i <;> rfl

/-! The ends of commands and the resets -/

theorem completionCode_ne_zero (c : Option ErrCode) : completionCode c ≠ 0x00#8 ↔ c ≠ none := by
  cases c with
  | none => simp [completionCode]
  | some e => cases e <;> simp [completionCode, ErrCode.code]

/-- `placeResult` on its three ways: left open by the host's interference, failed, or written. -/
theorem State.placeResult_cases (r : Option (List Byte)) (s : State) :
    (s.hostWroteInput = true ∧ s.placeResult r = s.endUnspecified (Config.freeBool s.draws)) ∨
    (s.hostWroteInput = false ∧ r = none ∧ s.placeResult r = s.endUnspecified false) ∨
    (∃ out, s.hostWroteInput = false ∧ r = some out ∧
      s.placeResult r = { s.writeOutput s.opDst out with outlen := s.rsize }.finish) := by
  unfold State.placeResult
  cases h : s.hostWroteInput with
  | true => exact .inl ⟨rfl, rfl⟩
  | false =>
    cases r with
    | none => exact .inr (.inl ⟨rfl, rfl, rfl⟩)
    | some out => exact .inr (.inr ⟨out, rfl, rfl, rfl⟩)

/-- A soft reset is a reset of the registers over an abandoned or an unchanged working memory. -/
theorem State.softReset_cases (s : State) :
    (s.phase = .busy ∧ s.softReset = s.abandon.clearRegisters) ∨
    (s.phase = .idle ∧ s.softReset = s.clearRegisters) := by
  unfold State.softReset State.busy
  cases h : s.phase with
  | idle => exact .inr ⟨rfl, rfl⟩
  | busy => exact .inl ⟨rfl, rfl⟩

end Sys2Proof.Machine
end

