-- ==== Sys2Proof/Laws/Cipher.lean ====
section
/-! SUPPORT. The cipher: bits of assembled blocks, the index range of the S-boxes, blocks of a buffer, and what deciphering in
place can do to a state. -/

namespace Sys2Proof.Machine
open Sys2Proof

/-! Bits -/

/-- The MSB-first mask is the default one (40_des_block.md R111). -/
theorem isMaskTable_iff {m : List Byte} : isMaskTable m = true ↔ m = maskTable := by
  rw [isMaskTable, beq_iff_eq]; rfl

/-- Bit `k` of an assembled byte is the bit asked for. -/
theorem byteOfBits_mask (f : Nat → Bool) {k : Nat} (hk : k < 8) :
    (byteOfBits maskTable f &&& maskAt maskTable k != 0#8) = f k := by
  have h : ∀ b0 b1 b2 b3 b4 b5 b6 b7 : Bool, ∀ k : Fin 8,
      (byteOfBits maskTable (fun j => [b0, b1, b2, b3, b4, b5, b6, b7].getD j false) &&& maskAt maskTable k != 0#8)
        = [b0, b1, b2, b3, b4, b5, b6, b7].getD k false := by decide
  have hf : byteOfBits maskTable f =
      byteOfBits maskTable fun j => [f 0, f 1, f 2, f 3, f 4, f 5, f 6, f 7].getD j false := rfl
  have := h (f 0) (f 1) (f 2) (f 3) (f 4) (f 5) (f 6) (f 7) ⟨k, hk⟩
  rw [hf, this]
  interval_cases k <;> rfl

/-- A byte is known by its eight bits. -/
theorem byte_ext {x y : Byte}
    (h : ∀ k, k < 8 → (x &&& maskAt maskTable k != 0#8) = (y &&& maskAt maskTable k != 0#8)) : x = y := by
  have key : ∀ x : Byte, byteOfBits maskTable (fun k => x &&& maskAt maskTable k != 0#8) = x := by decide
  rw [← key x, ← key y]
  simp only [byteOfBits, List.range, List.range.loop, List.foldl, h 0 (by omega), h 1 (by omega), h 2 (by omega),
    h 3 (by omega), h 4 (by omega), h 5 (by omega), h 6 (by omega), h 7 (by omega)]

theorem halfOfBits_bit (f : Nat → Bool) {k : Nat} (hk : k < 32) : (halfOfBits maskTable f).bit maskTable k = f k := by
  obtain ⟨q, r, hr, hq, rfl⟩ : ∃ q r, r < 8 ∧ q < 4 ∧ k = 8 * q + r := ⟨k / 8, k % 8, by omega, by omega, by omega⟩
  have e1 : (8 * q + r) >>> 3 = q := by rw [Nat.shiftRight_eq_div_pow]; omega
  have e2 : (8 * q + r) &&& 7 = r := by
    rw [show 7 = 2 ^ 3 - 1 from rfl, Nat.and_two_pow_sub_one_eq_mod]; omega
  unfold Half.bit
  rw [e1, e2]
  interval_cases q
  · simpa [halfOfBits, Half.byte] using byteOfBits_mask f hr
  · simpa [halfOfBits, Half.byte] using byteOfBits_mask (fun k => f (8 + k)) hr
  · simpa [halfOfBits, Half.byte] using byteOfBits_mask (fun k => f (16 + k)) hr
  · simpa [halfOfBits, Half.byte] using byteOfBits_mask (fun k => f (24 + k)) hr

theorem block_bit_lo (b : Block) {k : Nat} (hk : k < 32) : b.bit maskTable k = b.lo.bit maskTable k := by
  have : k >>> 3 < 4 := by rw [Nat.shiftRight_eq_div_pow]; omega
  simp [Block.bit, Half.bit, Block.byte, this]

theorem block_bit_hi (b : Block) {k : Nat} (hk : k < 32) : b.bit maskTable (32 + k) = b.hi.bit maskTable k := by
  have e1 : (32 + k) >>> 3 = 4 + k >>> 3 := by rw [Nat.shiftRight_eq_div_pow, Nat.shiftRight_eq_div_pow]; omega
  have e2 : (32 + k) &&& 7 = k &&& 7 := by
    rw [show 7 = 2 ^ 3 - 1 from rfl, Nat.and_two_pow_sub_one_eq_mod, Nat.and_two_pow_sub_one_eq_mod]; omega
  unfold Block.bit Half.bit Block.byte
  rw [e1, e2, if_neg (by omega), Nat.add_sub_cancel_left]

/-- Bit `k` of an assembled block is the bit asked for. -/
theorem blockOfBits_bit (f : Nat → Bool) {k : Nat} (hk : k < 64) : (blockOfBits maskTable f).bit maskTable k = f k := by
  by_cases h : k < 32
  · rw [block_bit_lo _ h]; exact halfOfBits_bit f h
  · obtain ⟨j, rfl⟩ : ∃ j, k = 32 + j := ⟨k - 32, by omega⟩
    rw [block_bit_hi _ (by omega)]
    exact halfOfBits_bit (fun k => f (32 + k)) (by omega)

theorem half_ext {x y : Half} (h : ∀ k, k < 32 → x.bit maskTable k = y.bit maskTable k) : x = y := by
  have e : ∀ (z : Half) (q r : Nat), r < 8 → z.bit maskTable (8 * q + r) = (z.byte q &&& maskAt maskTable r != 0#8) := by
    intro z q r hr
    have e1 : (8 * q + r) >>> 3 = q := by rw [Nat.shiftRight_eq_div_pow]; omega
    have e2 : (8 * q + r) &&& 7 = r := by
      rw [show 7 = 2 ^ 3 - 1 from rfl, Nat.and_two_pow_sub_one_eq_mod]; omega
    unfold Half.bit; rw [e1, e2]
  have hb : ∀ q, q < 4 → x.byte q = y.byte q := fun q hq =>
    byte_ext fun r hr => by rw [← e x q r hr, ← e y q r hr]; exact h _ (by omega)
  cases x; cases y
  have h0 := hb 0 (by omega); have h1 := hb 1 (by omega); have h2 := hb 2 (by omega); have h3 := hb 3 (by omega)
  simp [Half.byte] at h0 h1 h2 h3
  simp [h0, h1, h2, h3]

/-- A block is known by its 64 bits. -/
theorem block_ext {x y : Block} (h : ∀ k, k < 64 → x.bit maskTable k = y.bit maskTable k) : x = y := by
  have hl : x.lo = y.lo := half_ext fun k hk => by
    rw [← block_bit_lo x hk, ← block_bit_lo y hk]; exact h k (by omega)
  have hh : x.hi = y.hi := half_ext fun k hk => by
    rw [← block_bit_hi x hk, ← block_bit_hi y hk]; exact h _ (by omega)
  cases x; cases y; simp_all

theorem half_bit_xor (x y : Half) (k : Nat) :
    (xorHalf x y).bit maskTable k = (x.bit maskTable k != y.bit maskTable k) := by
  have key : ∀ (u v : Byte) (r : Fin 8), ((u ^^^ v) &&& maskAt maskTable r != 0#8) =
      ((u &&& maskAt maskTable r != 0#8) != (v &&& maskAt maskTable r != 0#8)) := by
    intro u v r
    have hm : ∀ (w : Byte) (r : Fin 8), (w &&& maskAt maskTable r != 0#8) = w.getLsbD (7 - r) := by decide
    rw [hm, hm, hm, BitVec.getLsbD_xor]
  have hr : k &&& 7 < 8 := by
    rw [show 7 = 2 ^ 3 - 1 from rfl, Nat.and_two_pow_sub_one_eq_mod]; omega
  unfold Half.bit
  have hx : (xorHalf x y).byte (k >>> 3) = x.byte (k >>> 3) ^^^ y.byte (k >>> 3) := by
    rcases k >>> 3 with _ | _ | _ | _ | n <;> simp [xorHalf, Half.byte]
  rw [hx]; exact key _ _ ⟨_, hr⟩

/-- Every index into an S-box is a 6-bit value (40_des_block.md R118). -/
theorem sixBits_lt (hi : Byte) (left : Nat) (lo : Byte) (right : Nat) : sixBits hi left lo right < 64 := by
  unfold sixBits
  rw [show 0x3f = 2 ^ 6 - 1 from rfl, Nat.and_two_pow_sub_one_eq_mod]
  exact Nat.mod_lt _ (by decide)

/-! Buffers -/

@[simp] theorem block_bytes_length (b : Block) : b.bytes.length = 8 := rfl

theorem hdrFrom_length (t : DesTables) (i : Nat) (buf : List Byte) : (hdrFrom t i buf).length = buf.length := by
  fun_induction hdrFrom t i buf with
  | case1 i b0 b1 b2 b3 b4 b5 b6 b7 rest ih => simp [ih]; omega
  | case2 => rfl

theorem mixFrom_length (t : DesTables) (c i : Nat) (j : Int) (buf : List Byte) :
    (mixFrom t c i j buf).length = buf.length := by
  fun_induction mixFrom t c i j buf with
  | case1 i j b0 b1 b2 b3 b4 b5 b6 b7 rest ih => simp [ih]; omega
  | case2 => rfl

/-- Deciphering keeps the length of the buffer. -/
theorem decodeBuf_length (t : DesTables) (m : CipherMode) (buf : List Byte) (cs : Nat) :
    (decodeBuf t m buf cs).length = buf.length := by
  cases m with
  | none => rfl
  | mixed => exact mixFrom_length _ _ _ _ _
  | header => exact hdrFrom_length _ _ _

@[simp] theorem State.deciphered_length (s : State) (m : CipherMode) : (s.deciphered m).length = s.lenNat := by
  simp [State.deciphered, decodeBuf_length]

/-! States -/

@[simp] theorem State.setCycleIn_none (s : State) : s.setCycleIn .none = s := rfl
@[simp] theorem State.setCycleIn_header (s : State) : s.setCycleIn .header = s := rfl
@[simp] theorem State.setCycleIn_mixed (s : State) : s.setCycleIn .mixed = s.setCycle := rfl

/-- Deciphering in place on its three ways: nothing to write, the bytes, or unspecified bytes. -/
theorem State.decipherInPlace_cases (m : CipherMode) (s : State) :
    (m = .none ∧ s.hostWroteFootprint = false ∧ s.decipherInPlace m = s) ∨
    (m ≠ .none ∧ s.hostWroteFootprint = false ∧
      s.decipherInPlace m = (s.setCycleIn m).memWrite s.opSrc (s.deciphered m)) ∨
    (s.hostWroteFootprint = true ∧ s.decipherInPlace m = (s.setCycleIn m).spoil s.opSrc s.lenNat) := by
  unfold State.decipherInPlace State.writeOutput
  cases m <;> cases h : s.hostWroteFootprint <;> simp [h, State.setCycle]

/-- Deciphering in place changes `CYCLE` (in mixed mode), `wmem` and `draws` alone. -/
theorem State.decipherInPlace_frame (m : CipherMode) (s : State) :
    s.decipherInPlace m =
      { s with
        cycle := (s.setCycleIn m).cycle
        wmem := (s.decipherInPlace m).wmem
        draws := (s.decipherInPlace m).draws } := by
  rcases s.decipherInPlace_cases m with ⟨rfl, _, h⟩ | ⟨_, _, h⟩ | ⟨_, h⟩ <;> rw [h]
  · rfl
  · cases m <;> rfl
  · cases m <;> rfl

end Sys2Proof.Machine
end

