-- ==== Sys2Proof/Laws/Exec.lean ====
section
/-! SUPPORT. What each command can do, said once: the state it ends in, and the frame that holds of every command. -/

namespace Sys2Proof.Machine
open Sys2Proof

/-- The execute phase of a command, with the completion that ends it. -/
def executed : Instr → State → State
  | .nop, s => s.finish
  | .desblk, s => (s.setBlk (desDec s.params.desTables s.blk)).finish
  | .shufblk, s => (s.setBlk (shuf s.blk)).finish
  | .cycle, s => s.setCycle.finish
  | .dechdr, s => (s.decipherInPlace .header).finish
  | .decmix, s => (s.decipherInPlace .mixed).finish
  | .decipher, s => (s.decipherInPlace s.mode).finish
  | .inflate, s => s.placeResult (zinflate (s.memRead s.opSrc s.csizeNat) s.rsizeNat)
  | .extract, s =>
      (s.decipherInPlace s.mode).placeResult (extractResult s.csizeNat s.rsizeNat (s.deciphered s.mode))

/-- The state a command ends in: the failing check's code, or the execute phase. -/
def endState (i : Instr) (s : State) : State := s.checked (checkOf i s) (executed i)

theorem endState_error {i : Instr} {s : State} {e : ErrCode} (h : checkOf i s = some e) :
    endState i s = s.complete (some e) := by
  rw [endState, h]; rfl

theorem endState_ok {i : Instr} {s : State} (h : checkOf i s = none) : endState i s = executed i s := by
  rw [endState, h]; rfl

/-- `exec` answers with `endState`. -/
theorem exec_eq (i : Instr) (s : State) : exec i s = .next (endState i s) := by cases i <;> rfl

theorem exec_next {i : Instr} {s t : State} : exec i s = .next t ↔ t = endState i s := by
  rw [exec_eq, Host.Outcome.next.injEq, eq_comm]

/-- `t` differs from `s` in the block, the two result registers, working memory and `draws` at most, and the command has
completed with a code. -/
structure Completed (s t : State) : Prop where
  /-- Everything but these fields is as in `s`. -/
  frame : t = { s with
    blk0 := t.blk0, blk1 := t.blk1, outlen := t.outlen, cycle := t.cycle, wmem := t.wmem, draws := t.draws
    phase := .idle, done := true, err := decide (t.ecode ≠ 0x00#8), ecode := t.ecode
    hostWroteFootprint := false, hostWroteInput := false }

theorem State.decipherInPlace_completed (c : Option ErrCode) (m : CipherMode) (s : State) :
    Completed s ((s.decipherInPlace m).complete c) := by
  constructor
  rw [s.decipherInPlace_frame m]
  rfl

theorem State.writeOutput_frame (s : State) (a : Nat) (bs : List Byte) :
    s.writeOutput a bs = { s with wmem := (s.writeOutput a bs).wmem, draws := (s.writeOutput a bs).draws } := by
  rcases s.writeOutput_cases a bs with ⟨_, h⟩ | ⟨_, h⟩ <;> rw [h] <;> rfl

theorem State.placeResult_completed (r : Option (List Byte)) (s : State) : Completed s (s.placeResult r) := by
  constructor
  rcases s.placeResult_cases r with ⟨_, h⟩ | ⟨_, _, h⟩ | ⟨out, _, _, h⟩ <;> rw [h]
  · rfl
  · rfl
  · rw [s.writeOutput_frame s.opDst out]; rfl

/-- A frame over a state that differs in `CYCLE`, `wmem` and `draws` alone. -/
theorem Completed.over_decipher {s t : State} {m : CipherMode} (h : Completed (s.decipherInPlace m) t) :
    Completed s t := by
  have hf := s.decipherInPlace_frame m
  have ht := h.frame
  constructor
  rw [hf] at ht
  exact ht

/-- The frame of every execute phase. -/
theorem executed_completed (i : Instr) (s : State) : Completed s (executed i s) := by
  cases i with
  | nop => exact ⟨rfl⟩
  | desblk => exact ⟨rfl⟩
  | shufblk => exact ⟨rfl⟩
  | cycle => exact ⟨rfl⟩
  | dechdr => exact s.decipherInPlace_completed none _
  | decmix => exact s.decipherInPlace_completed none _
  | decipher => exact s.decipherInPlace_completed none _
  | inflate => exact s.placeResult_completed _
  | extract => exact (State.placeResult_completed _ _).over_decipher

/-- The frame of every command. -/
theorem endState_completed (i : Instr) (s : State) : Completed s (endState i s) := by
  cases h : checkOf i s with
  | none => rw [endState_ok h]; exact executed_completed i s
  | some e => rw [endState_error h]; exact ⟨rfl⟩

/-! Bytes and canonical form under the operations of the commands -/

theorem State.writeOutput_wf {s : State} (h : s.wmem.wf = true) (a : Nat) (bs : List Byte) :
    (s.writeOutput a bs).wmem.wf = true := by
  rcases s.writeOutput_cases a bs with ⟨_, e⟩ | ⟨_, e⟩ <;> rw [e] <;> exact Memory.write_wf h _ _

theorem State.writeOutput_inside {s : State} {size : Nat} (h : ∀ c ∈ s.wmem, c.1 < size) {a : Nat} {bs : List Byte}
    (hb : a + bs.length ≤ size) : ∀ c ∈ (s.writeOutput a bs).wmem, c.1 < size := by
  rcases s.writeOutput_cases a bs with ⟨_, e⟩ | ⟨_, e⟩ <;> rw [e]
  · exact Memory.write_inside h hb
  · exact Memory.write_inside h (by simpa using hb)

@[simp] theorem State.setCycleIn_wmem (m : CipherMode) (s : State) : (s.setCycleIn m).wmem = s.wmem := by cases m <;> rfl
@[simp] theorem State.setCycleIn_draws (m : CipherMode) (s : State) : (s.setCycleIn m).draws = s.draws := by
  cases m <;> rfl
@[simp] theorem State.setCycleIn_powerOns (m : CipherMode) (s : State) : (s.setCycleIn m).powerOns = s.powerOns := by
  cases m <;> rfl

theorem State.decipherInPlace_wf {s : State} (h : s.wmem.wf = true) (m : CipherMode) :
    (s.decipherInPlace m).wmem.wf = true := by
  rcases s.decipherInPlace_cases m with ⟨_, _, e⟩ | ⟨_, _, e⟩ | ⟨_, e⟩ <;> rw [e]
  · exact h
  · exact Memory.write_wf (by simpa using h) _ _
  · exact Memory.write_wf (by simpa using h) _ _

theorem State.decipherInPlace_inside {s : State} {size : Nat} (h : ∀ c ∈ s.wmem, c.1 < size) (m : CipherMode)
    (hb : s.opSrc + s.lenNat ≤ size) : ∀ c ∈ (s.decipherInPlace m).wmem, c.1 < size := by
  rcases s.decipherInPlace_cases m with ⟨_, _, e⟩ | ⟨_, _, e⟩ | ⟨_, e⟩ <;> rw [e]
  · exact h
  · exact Memory.write_inside (by simpa using h) (by simpa using hb)
  · exact Memory.write_inside (by simpa using h) (by simpa using hb)

/-- A byte after deciphering in place: the old one outside the payload. -/
theorem State.byteAt_decipherInPlace_outside (s : State) (m : CipherMode) (x : Nat)
    (h : ¬ (s.opSrc ≤ x ∧ x < s.opSrc + s.lenNat)) : (s.decipherInPlace m).byteAt x = s.byteAt x := by
  have hs : (s.setCycleIn m).byteAt x = s.byteAt x := State.byteAt_congr (by simp) (by simp) x
  rcases s.decipherInPlace_cases m with ⟨_, _, e⟩ | ⟨_, _, e⟩ | ⟨_, e⟩ <;> rw [e]
  · rw [State.byteAt_memWrite, if_neg (by simpa using h), hs]
  · rw [State.byteAt_spoil, if_neg h, hs]

end Sys2Proof.Machine
end

