-- ==== Sys2Proof/Laws/PerInstr.lean ====
section
/-! SUPPORT. Statements made per instruction: each command is well formed and its word decodes to it. -/

namespace Sys2Proof.Laws
open Sys2Proof

/-- The command is well formed, and the decoder reads it back from its word, in which the reserved bits are 0
(30_encoding.md R90, R92, R93). -/
def Roundtrip.Statement (i : Instr) : Prop :=
  i.wf = true ∧ decode (encode i) = .ok i ∧ rsvField (encode i) = 0#24

theorem Roundtrip.nop : Roundtrip.Statement .nop := by unfold Roundtrip.Statement; decide
theorem Roundtrip.desblk : Roundtrip.Statement .desblk := by unfold Roundtrip.Statement; decide
theorem Roundtrip.shufblk : Roundtrip.Statement .shufblk := by unfold Roundtrip.Statement; decide
theorem Roundtrip.cycle : Roundtrip.Statement .cycle := by unfold Roundtrip.Statement; decide
theorem Roundtrip.dechdr : Roundtrip.Statement .dechdr := by unfold Roundtrip.Statement; decide
theorem Roundtrip.decmix : Roundtrip.Statement .decmix := by unfold Roundtrip.Statement; decide
theorem Roundtrip.decipher : Roundtrip.Statement .decipher := by unfold Roundtrip.Statement; decide
theorem Roundtrip.inflate : Roundtrip.Statement .inflate := by unfold Roundtrip.Statement; decide
theorem Roundtrip.extract : Roundtrip.Statement .extract := by unfold Roundtrip.Statement; decide

end Sys2Proof.Laws
end

