-- ==== Sys2Proof/Laws/Step.lean ====
section
/-! SUPPORT. What the host's accesses and a step can do, said once. -/

namespace Sys2Proof.Machine
open Sys2Proof

/-! Host accesses -/

/-- An access that is answered is one access at an offset of a window. -/
theorem State.hostAccess_next {op : BusOp} {s t : State} (h : s.hostAccess op = .next t) :
    ∃ w off, resolve s.params op.target = some (w, off) ∧ windowError s.params w off op.width = none ∧
      t = s.windowAccess w off op.width op.dir := by
  unfold State.hostAccess at h
  split at h
  · cases h
  · rename_i w off hr
    split at h
    · cases h
    · rename_i he
      exact ⟨w, off, hr, he, by cases h; rfl⟩

/-- An access that is not answered is a bus error. -/
theorem State.hostAccess_cases (op : BusOp) (s : State) :
    (∃ t, s.hostAccess op = .next t) ∨ (∃ e, s.hostAccess op = .fault (.busError e op)) := by
  unfold State.hostAccess
  split
  · exact .inr ⟨_, rfl⟩
  · split
    · exact .inr ⟨_, rfl⟩
    · exact .inl ⟨_, rfl⟩

/-- A locked write: ignored with `WERR` while busy, else done. -/
theorem State.locked_cases (f : State → State) (s : State) :
    (s.phase = .busy ∧ s.locked f = { s with werr := true }) ∨ (s.phase = .idle ∧ s.locked f = f s) := by
  unfold State.locked State.busy
  cases h : s.phase <;> simp

/-- An access touches `p` exactly where one of its bytes does. -/
theorem touches_iff {p : Nat → Bool} {a n : Nat} : touches p a n = true ↔ ∃ x, a ≤ x ∧ x < a + n ∧ p x = true := by
  simp only [touches, List.any_eq_true, List.mem_range]
  exact ⟨fun ⟨k, hk, h⟩ => ⟨a + k, by omega, by omega, h⟩,
    fun ⟨x, h1, h2, h⟩ => ⟨x - a, by omega, by rwa [show a + (x - a) = x by omega]⟩⟩

/-- A host write on its two ways: a plain write of all its bytes, or a hazard that leaves all of them or none. -/
theorem State.hostWriteMem_cases (a : Nat) (bs : List Byte) (s : State) :
    (touches s.hazardAt a bs.length = false ∧ s.hostWriteMem a bs = s.memWrite a bs) ∨
    (touches s.hazardAt a bs.length = true ∧ ∃ m, (m = s.wmem.write a bs ∨ m = s.wmem) ∧
      s.hostWriteMem a bs = { s with
        wmem := m, draws := s.draws + 1, hostWroteFootprint := true
        hostWroteInput := s.hostWroteInput || touches (inSpans s.inputRange) a bs.length }) := by
  unfold State.hostWriteMem
  cases touches s.hazardAt a bs.length with
  | false => exact .inl ⟨rfl, rfl⟩
  | true => exact .inr ⟨rfl, _, by cases Config.freeBool s.draws; exacts [.inr rfl, .inl rfl], rfl⟩

/-- A host write of a run of bytes changes `wmem`, `draws` and the two hazard marks alone. -/
theorem State.hostWriteMem_frame (a : Nat) (bs : List Byte) (s : State) :
    s.hostWriteMem a bs = { s with
      wmem := (s.hostWriteMem a bs).wmem, draws := (s.hostWriteMem a bs).draws
      hostWroteFootprint := (s.hostWriteMem a bs).hostWroteFootprint
      hostWroteInput := (s.hostWriteMem a bs).hostWroteInput } := by
  rcases s.hostWriteMem_cases a bs with ⟨_, h⟩ | ⟨_, m, _, h⟩
  · rw [h]; rfl
  · rw [h]

theorem State.hostWriteMem_wf {s : State} (h : s.wmem.wf = true) (a : Nat) (bs : List Byte) :
    (s.hostWriteMem a bs).wmem.wf = true := by
  rcases s.hostWriteMem_cases a bs with ⟨_, e⟩ | ⟨_, m, rfl | rfl, e⟩ <;> rw [e]
  · exact Memory.write_wf h a bs
  · exact Memory.write_wf h a bs
  · exact h

theorem State.hostWriteMem_inside {s : State} {size : Nat} (h : ∀ c ∈ s.wmem, c.1 < size) {a : Nat} {bs : List Byte}
    (hb : a + bs.length ≤ size) : ∀ c ∈ (s.hostWriteMem a bs).wmem, c.1 < size := by
  rcases s.hostWriteMem_cases a bs with ⟨_, e⟩ | ⟨_, m, rfl | rfl, e⟩ <;> rw [e]
  · exact Memory.write_inside h hb
  · exact Memory.write_inside h hb
  · exact h

/-- With the engine Idle a host write is a plain write of the whole run. -/
theorem State.hostWriteMem_idle {s : State} (h : s.phase = .idle) (a : Nat) (bs : List Byte) :
    s.hostWriteMem a bs = s.memWrite a bs := by
  simp [State.hostWriteMem, touches, State.hazardAt, State.busy, h]

/-! Steps -/

/-- The engine's turn is a Busy engine's, and takes at most its own entry off the list of moves. -/
theorem State.engineTurn_some {s t : State} (h : s.engineTurn = some t) :
    s.phase = .busy ∧ t.phase = .busy ∧ ∃ l, t = { s with inputs := l } ∧ l.length ≤ s.inputs.length := by
  unfold State.engineTurn at h
  split at h
  · rename_i hp hi
    cases h; exact ⟨hp, hp, s.inputs, rfl, Nat.le_refl _⟩
  · rename_i hp hi
    cases h; exact ⟨hp, hp, s.inputs, rfl, Nat.le_refl _⟩
  · rename_i rest hp hi
    cases h; exact ⟨hp, hp, rest, rfl, by simp [hi]⟩
  · cases h

/-- The next states of a step, one way each. -/
inductive StepCase (s t : State) : Prop where
  /-- The engine completes the command. -/
  | command (u : State) (i : Instr) (turn : s.engineTurn = some u) (dec : decode u.cmd = .ok i) (h : t = endState i u)
  /-- The engine completes an illegal word. -/
  | illegal (u : State) (e : DecodeError) (turn : s.engineTurn = some u) (dec : decode u.cmd = .error e)
      (h : t = u.raiseError .illegalCmd)
  /-- Nothing is left to come. -/
  | rest (h : t = s)
  /-- The host makes an access. -/
  | access (op : BusOp) (l : List Move) (hi : s.inputs = .access op :: l) (w : Window) (off : Nat)
      (hr : resolve s.params op.target = some (w, off)) (he : windowError s.params w off op.width = none)
      (h : t = State.windowAccess w off op.width op.dir { s with inputs := l })
  /-- The host's `wait` ends. -/
  | wait (l : List Move) (hi : s.inputs = .wait :: l) (h : t = ({ s with inputs := l } : State).endWait)
  /-- The engine has its turn and is Idle. -/
  | turn (l : List Move) (hi : s.inputs = .engine :: l) (h : t = { s with inputs := l })
  /-- The platform resets the block. -/
  | rst (l : List Move) (hi : s.inputs = .rst :: l) (h : t = ({ s with inputs := l } : State).powerOnReset)

/-- What a step that answers a next state can be. -/
theorem step_cases {s t : State} (h : step s = .next t) : StepCase s t := by
  unfold step advance at h
  split at h
  · rename_i u hu
    unfold engineStep at h
    split at h
    · rename_i i hd
      exact .command u i hu hd (exec_next.1 h)
    · rename_i e hd
      exact .illegal u e hu hd (by unfold execIllegal at h; cases h; rfl)
  · split at h
    · exact .rest (by cases h; rfl)
    · rename_i m l hi
      cases m with
      | access op =>
        obtain ⟨w, off, hr, he, ht⟩ := State.hostAccess_next h
        exact .access op l hi w off hr he ht
      | wait => exact .wait l hi (by unfold outsideMove at h; cases h; rfl)
      | engine => exact .turn l hi (by unfold outsideMove at h; cases h; rfl)
      | rst => exact .rst l hi (by unfold outsideMove at h; cases h; rfl)

/-- A fault of a step is the bus error of the host's next access. -/
theorem step_fault {s : State} {f : Fault} (h : step s = .fault f) :
    ∃ e op l, f = .busError e op ∧ s.inputs = .access op :: l ∧
      State.hostAccess op { s with inputs := l } = .fault (.busError e op) := by
  unfold step advance at h
  split at h
  · unfold engineStep at h
    split at h
    · rw [exec_eq] at h; cases h
    · unfold execIllegal at h; cases h
  · split at h
    · cases h
    · rename_i m l hi
      cases m with
      | access op =>
        rcases State.hostAccess_cases op { s with inputs := l } with ⟨t, ht⟩ | ⟨e, he⟩
        · rw [show outsideMove (.access op) { s with inputs := l } = State.hostAccess op { s with inputs := l } from rfl,
            ht] at h
          cases h
        · rw [show outsideMove (.access op) { s with inputs := l } = State.hostAccess op { s with inputs := l } from rfl,
            he] at h
          cases h
          exact ⟨e, op, l, rfl, hi, he⟩
      | wait => unfold outsideMove at h; cases h
      | engine => unfold outsideMove at h; cases h
      | rst => unfold outsideMove at h; cases h

/-- No step is refused. -/
theorem step_not_refused (s : State) (r : Refusal) : step s ≠ .refused r := by
  intro h
  unfold step advance at h
  split at h
  · unfold engineStep at h
    split at h
    · rw [exec_eq] at h; cases h
    · unfold execIllegal at h; cases h
  · split at h
    · cases h
    · rename_i m l hi
      cases m with
      | access op =>
        rcases State.hostAccess_cases op { s with inputs := l } with ⟨t, ht⟩ | ⟨e, he⟩
        · rw [show outsideMove (.access op) { s with inputs := l } = State.hostAccess op { s with inputs := l } from rfl,
            ht] at h
          cases h
        · rw [show outsideMove (.access op) { s with inputs := l } = State.hostAccess op { s with inputs := l } from rfl,
            he] at h
          cases h
      | wait => unfold outsideMove at h; cases h
      | engine => unfold outsideMove at h; cases h
      | rst => unfold outsideMove at h; cases h

/-! Runs -/

theorem run_zero (s : State) : Host.Core.run Sys2Proof.core 0 s = .next s := rfl

theorem run_succ {s t : State} (h : step s = .next t) (n : Nat) :
    Host.Core.run Sys2Proof.core (n + 1) s = Host.Core.run Sys2Proof.core n t := by
  have h' : Sys2Proof.core.step s = .next t := h
  simp only [Host.Core.run, h']

theorem run_fault {s : State} {f : Fault} (h : step s = .fault f) (n : Nat) :
    Host.Core.run Sys2Proof.core (n + 1) s = .fault f := by
  have h' : Sys2Proof.core.step s = .fault f := h
  simp only [Host.Core.run, h']

end Sys2Proof.Machine
end

