-- ==== Sys2Proof/Tests/Slice0.lean ====
section
/-! SUPPORT. Tests: words written out from the spec's encoding, ill-formed terms that the well-formedness checks refuse,
one-step tests whose expected results stand in spec/95_test_vectors.md or in the rules' examples, and for every statement
with hypotheses a state that meets them. -/

namespace Sys2Proof.Tests
open Sys2Proof Sys2Proof.Machine

set_option Elab.async false

/-! ## Decoding (30_encoding.md R90, R92, R93) -/

theorem test_decode_nop : decode 0b00000000000000000000000000000000#32 = .ok .nop := by decide
theorem test_decode_desblk : decode 0b00000000000000000000000000000001#32 = .ok .desblk := by decide
theorem test_decode_shufblk : decode 0b00000000000000000000000000000010#32 = .ok .shufblk := by decide
theorem test_decode_cycle : decode 0b00000000000000000000000000000011#32 = .ok .cycle := by decide
theorem test_decode_dechdr : decode 0b00000000000000000000000000010000#32 = .ok .dechdr := by decide
theorem test_decode_decmix : decode 0b00000000000000000000000000010001#32 = .ok .decmix := by decide
theorem test_decode_decipher : decode 0b00000000000000000000000000010010#32 = .ok .decipher := by decide
theorem test_decode_inflate : decode 0b00000000000000000000000000100000#32 = .ok .inflate := by decide
theorem test_decode_extract : decode 0b00000000000000000000000000110000#32 = .ok .extract := by decide
theorem test_decode_reserved_bit_8 : decode 0b00000000000000000000000100000000#32 = .error .reservedBits := by decide
theorem test_decode_reserved_bit_31 : decode 0b10000000000000000000000000000011#32 = .error .reservedBits := by decide
theorem test_decode_opcode_04 : decode 0b00000000000000000000000000000100#32 = .error .unassignedOpcode := by decide
theorem test_decode_table_word : decodeTableWord 32 0x30 = some .extract ∧ decodeTableWord 32 0x04 = none := by decide

/-! ## Well-formedness

An `Instr` has no field, so no term of it is ill formed (30_encoding.md R91). The parameters have checks. -/

/-- Small parameters that meet every constraint: `WMEM_SIZE` 4096. -/
def testParams : Params :=
  { wmemSize := 4096, regBase := 0x10000, memBase := 0x20000, desTables := defaultDesTables, irqLine := 5 }

theorem test_wf_params : testParams.wf = true := by decide
theorem test_wf_every_command : [Instr.nop, .desblk, .shufblk, .cycle, .dechdr, .decmix, .decipher, .inflate,
    .extract].all Instr.wf = true := by decide
theorem test_wf_size_multiple_of_8 : { testParams with wmemSize := 4092 }.wf = false := by decide
theorem test_wf_size_least : { testParams with wmemSize := 0 }.wf = false := by decide
theorem test_wf_size_greatest : { testParams with wmemSize := 2 ^ 31 + 8, memBase := 2 ^ 32 }.wf = false := by decide
theorem test_wf_reg_base : { testParams with regBase := 0x10800 }.wf = false := by decide
theorem test_wf_mem_base : { testParams with memBase := 0x20008 }.wf = false := by decide
theorem test_wf_mem_base_rounded : { testParams with wmemSize := 4104, memBase := 0x21000 }.wf = false := by decide
theorem test_wf_windows : { testParams with memBase := 0x10000 }.wf = false := by decide
theorem test_wf_ip : { defaultDesTables with ip := List.range 64 }.wf = false := by decide
theorem test_wf_fp : { defaultDesTables with fp := List.replicate 64 1 }.wf = false := by decide
theorem test_wf_tp : { defaultDesTables with tp := List.range' 1 31 }.wf = false := by decide
theorem test_wf_inverse : { defaultDesTables with fp := defaultDesTables.ip }.wf = false := by decide
theorem test_wf_sbox_count : { defaultDesTables with sbox := defaultDesTables.sbox.take 3 }.wf = false := by decide
theorem test_wf_sbox_size : { defaultDesTables with sbox := List.replicate 4 [] }.wf = false := by decide

theorem test_wf_mask_order : { defaultDesTables with mask := maskTable.reverse }.wf = false := by decide
theorem test_wf_mask_length : { defaultDesTables with mask := maskTable.take 7 }.wf = false := by decide

/-! ## One step of each command -/

/-- A state at power-on with the operands given and the bytes `mem` from offset 0 on. -/
def operands (src dst len csize rsize typ : Nat) (mem : List Byte) : State :=
  { State.powerOn testParams (cellsAt 0 mem) with
    src := BitVec.ofNat 32 src, dst := BitVec.ofNat 32 dst, len := BitVec.ofNat 32 len
    csize := BitVec.ofNat 32 csize, rsize := BitVec.ofNat 32 rsize, typ := BitVec.ofNat 8 typ }

/-- The command is accepted and completes in a state that meets `p`. -/
def completes (i : Instr) (s : State) (p : State → Bool) : Bool :=
  match step (s.accept (encode i)) with
  | .next t => p t
  | .fault _ => false
  | .refused _ => false

/-- `STATUS` reads `v`, and the bytes from `a` on are `bs`. -/
def shows (v : Word) (a : Nat) (bs : List Byte) (t : State) : Bool :=
  t.statusWord == v && t.memRead a bs.length == bs

/-- `DESDEC` of eight zero bytes (V2.1). -/
def zeroDes : List Byte := [0x04#8, 0x04#8, 0x01#8, 0x55#8, 0x55#8, 0x01#8, 0x54#8, 0x55#8]

/-- The zlib stream of "a" (V2.7). -/
def streamA : List Byte := [0x78#8, 0x9C#8, 0x4B#8, 0x04#8, 0x00#8, 0x00#8, 0x62#8, 0x00#8, 0x62#8]

/-- The ciphertext of the entry E1 (V2.8). -/
def cipherE1 : List Byte :=
  [0x79#8, 0x98#8, 0x1B#8, 0x09#8, 0x0F#8, 0x0A#8, 0x05#8, 0x76#8,
   0x00#8, 0x15#8, 0x3D#8, 0x13#8, 0x36#8, 0x04#8, 0x45#8, 0x15#8]

/-- The plaintext of the entry E1 (V2.8). -/
def plainE1 : List Byte :=
  [0x78#8, 0x9C#8, 0x4B#8, 0x4C#8, 0x4A#8, 0x4E#8, 0x04#8, 0x23#8,
   0x00#8, 0x11#8, 0x3D#8, 0x03#8, 0x73#8, 0x00#8, 0x00#8, 0x00#8]

/-- "abcabcabc". -/
def textE1 : List Byte := [0x61#8, 0x62#8, 0x63#8, 0x61#8, 0x62#8, 0x63#8, 0x61#8, 0x62#8, 0x63#8]

/-- V2.9. -/
theorem test_nop : completes .nop (operands 0 0 0 0 0 0 []) (fun t => t.statusWord == 0x00000002#32) = true := by decide +kernel

/-- V2.1. -/
theorem test_desblk :
    completes .desblk { operands 0 0 0 0 0 0 [] with blk0 := 0x67452301#32, blk1 := 0xEFCDAB89#32 }
      (fun t => t.blk0 == 0x76057651#32 && t.blk1 == 0xEBD9EA98#32) = true := by decide +kernel

/-- V2.2. -/
theorem test_shufblk :
    completes .shufblk { operands 0 0 0 0 0 0 [] with blk0 := 0x44332211#32, blk1 := 0x80776655#32 }
      (fun t => t.blk0 == 0x11775544#32 && t.blk1 == 0x6C663322#32) = true := by decide +kernel

/-- V2.3. -/
theorem test_cycle :
    completes .cycle (operands 0 0 0 12345 0 0 []) (fun t => t.cycle == 14#5 && t.statusWord == 2#32) = true := by decide +kernel

/-- V2.3: a negative `CSIZE`; `CYCLE` is unchanged. -/
theorem test_cycle_negative :
    completes .cycle { operands 0 0 0 0x80000000 0 0 [] with cycle := 5#5 }
      (fun t => t.cycle == 5#5 && t.statusWord == 0x00000206#32) = true := by decide +kernel

/-- V2.4: 21 blocks, of which the last stays as it is. -/
theorem test_dechdr :
    completes .dechdr (operands 0 0 168 0 0 0 (List.replicate 168 0#8))
      (shows 0x00000002#32 152 (zeroDes ++ List.replicate 8 0#8)) = true := by decide +kernel

/-- V2.4: the range check at the end of `WMEM` does not wrap. -/
theorem test_dechdr_range :
    completes .dechdr (operands 0xFFFFFFF8 0 16 0 0 0 [0x11#8]) (shows 0x00000306#32 0 [0x11#8]) = true := by decide +kernel

/-- V2.5: with cycle 4, blocks 28 to 31 are DES, plain, shuffled, plain. -/
theorem test_decmix :
    completes .decmix (operands 0 0 256 150 0 0 (List.replicate 256 0#8))
      (fun t => t.cycle == 4#5 &&
        shows 0x00000002#32 224
          (zeroDes ++ List.replicate 8 0#8 ++ [0#8, 0#8, 0#8, 0#8, 0#8, 0#8, 0#8, 0x2B#8] ++ List.replicate 8 0#8) t)
      = true := by decide +kernel

/-- V2.5: with cycle 14, block 20 is plain. -/
theorem test_decmix_block_20 :
    completes .decmix (operands 0 0 168 12345 0 0 (List.replicate 168 0#8))
      (fun t => t.cycle == 14#5 && shows 0x00000002#32 152 (zeroDes ++ List.replicate 8 0#8) t) = true := by decide +kernel

/-- V2.6: `TYPE` = 0x06 is mixed mode. -/
theorem test_decipher_mixed_wins :
    completes .decipher (operands 0 0 8 0 0 0x06 (List.replicate 8 0#8))
      (fun t => t.cycle == 1#5 && shows 0x00000002#32 0 zeroDes t) = true := by decide +kernel

/-- V2.6: header mode does not read `CSIZE`. -/
theorem test_decipher_header :
    completes .decipher (operands 0 0 8 0xFFFFFFFF 0 0x04 (List.replicate 8 0#8))
      (fun t => t.cycle == 0#5 && shows 0x00000002#32 0 zeroDes t) = true := by decide +kernel

/-- V2.7. -/
theorem test_inflate :
    completes .inflate (operands 0 16 0 9 1 0 streamA)
      (fun t => t.outlen == 1#32 && shows 0x00000002#32 16 [0x61#8] t) = true := by decide +kernel

/-- V2.7: the output would be shorter than `RSIZE`; the input is never written. -/
theorem test_inflate_short :
    completes .inflate (operands 0 16 0 9 2 0 streamA)
      (fun t => t.outlen == 0#32 && shows 0x00000506#32 0 streamA t) = true := by decide +kernel

/-- V2.8, E1. -/
theorem test_extract :
    completes .extract (operands 0 64 16 13 9 0x05 cipherE1)
      (fun t => t.outlen == 9#32 && shows 0x00000002#32 0 plainE1 t && shows 0x00000002#32 64 textE1 t) = true := by
  decide +kernel

/-- V2.8: E1 with `RSIZE` = 10 fails, and the payload stays deciphered. -/
theorem test_extract_fails :
    completes .extract (operands 0 64 16 13 10 0x05 cipherE1)
      (fun t => t.outlen == 0#32 && shows 0x00000506#32 0 plainE1 t) = true := by decide +kernel

/-- V2.7: a back-reference with fixed codes, and length symbol 284 with extra bits 31 (D38). -/
theorem test_zinflate_back_reference :
    zinflate [0x78#8, 0x9C#8, 0x4B#8, 0x04#8, 0x02#8, 0x00#8, 0x03#8, 0xCE#8, 0x01#8, 0x85#8] 4
      = some (List.replicate 4 0x61#8) := by decide +kernel

/-- V2.7: one stored block, and a wrong `NLEN`. -/
theorem test_zinflate_stored :
    zinflate [0x78#8, 0x01#8, 0x01#8, 0x05#8, 0x00#8, 0xFA#8, 0xFF#8, 0x68#8, 0x65#8, 0x6C#8, 0x6C#8, 0x6F#8, 0x06#8,
      0x2C#8, 0x02#8, 0x15#8] 5 = some [0x68#8, 0x65#8, 0x6C#8, 0x6C#8, 0x6F#8] := by decide +kernel

/-! ## Fetching from reset -/

/-- The command word is what the next step runs: `CYCLE` of `CSIZE` 0 from reset. -/
theorem test_fetch_cycle :
    (match step (State.reset.withFetchWord 32 0x03) with
      | .next t => t.cycle == 1#5 && t.cmd == 3#32 && t.phase == .idle && t.inputs == []
      | _ => false) = true := by decide +kernel

/-- `INFLATE` from reset: no zlib header, so `DECOMPRESS_FAIL`. -/
theorem test_fetch_inflate :
    (match step (State.reset.withFetchWord 32 0x20) with
      | .next t => t.statusWord == 0x00000506#32
      | _ => false) = true := by decide +kernel

/-! ## The host's side -/

/-- A run of moves from a state, and what the host read last. -/
def lastRead (n : Nat) (s : State) : Option BusResponse :=
  match Host.Core.run Sys2Proof.core n s with
  | .next t => t.responses.head?
  | _ => none

/-- V2.9: an illegal word, then `wait`. -/
theorem test_illegal_word :
    lastRead 3 { operands 0 0 0 0 0 0 [] with inputs := [wr .cmd 0x00000100#32, .wait] }
      = some (.data 0x00000106#32) := by decide +kernel

/-- V2.9: after an error `wr STATUS, 0x2` keeps `ERR` and `ECODE`. -/
theorem test_w1c_done :
    (State.writeStatus 0x2#32 { operands 0 0 0 0 0 0 [] with done := true, err := true, ecode := 0x01#8 }).statusWord
      = 0x00000104#32 := by decide +kernel

/-- V2.9: a locked write while busy sets `WERR`, seen after the completion. -/
theorem test_locked_write :
    lastRead 4 { operands 0 0 0 0 0 0 [] with inputs := [cmdMove .nop, wr .src 5#32, .wait] }
      = some (.data 0x0000000A#32) := by decide +kernel

/-- V2.9: `TYPE` keeps its low byte. -/
theorem test_type_low_byte :
    lastRead 2 { operands 0 0 0 0 0 0 [] with inputs := [wr .type 0x12345605#32, rd .type] }
      = some (.data 5#32) := by decide +kernel

/-- 20_memory.md R67: a 16-bit read at `a` is `WMEM[a] | WMEM[a+1] << 8`. -/
theorem test_little_endian :
    lastRead 2 { operands 0 0 0 0 0 0 [] with inputs := [storeMem 4 8 0x44332211#32, loadMem 2 10] }
      = some (.data 0x00004433#32) := by decide +kernel

/-- 20_memory.md R64, R69: a misaligned access by absolute address is a bus error. -/
theorem test_bus_error :
    (match State.hostAccess ⟨.addr 0x20002, 4, .read⟩ (operands 0 0 0 0 0 0 []) with
      | .fault (.busError .memMisaligned _) => true
      | _ => false) = true := by decide +kernel

/-! ## Witnesses: for each statement with hypotheses, states and operands that meet them -/

/-- A Busy engine with the command accepted. -/
def accepted (i : Instr) (s : State) : State := s.accept (encode i)

/-- The entry E1 at offset 0, with its output at 64. -/
def entryE1 : State := operands 0 64 16 13 9 0x05 cipherE1

/-- The stream of "a" at offset 0, its output right behind it. -/
def inflateA : State := operands 0 9 0 9 1 0 streamA

theorem witness_DecodeInvertsEncode : Instr.wf .extract = true ∧ decode (encode .extract) = .ok .extract := by decide

theorem witness_StepRunsDecodedCommand_lists :
    (accepted .decipher entryE1).phase = .busy ∧ decode (accepted .decipher entryE1).cmd = .ok .decipher ∧
    Instr.wf .decipher = true ∧ (accepted .decipher entryE1).inputs = [] ∧
    { accepted .decipher entryE1 with inputs := [.wait] }.inputs = .wait :: [] ∧
    { accepted .decipher entryE1 with inputs := [.engine, .rst] }.inputs = .engine :: [.rst] := by decide +kernel

theorem witness_StepRunsDecodedCommand_table : decodeTableWord 32 0x12 = some .decipher := by decide

theorem witness_IllegalWordCompletesWithError :
    entryE1.phase = .idle ∧ entryE1.inputs = [] ∧ { entryE1 with inputs := [.wait] }.inputs = .wait :: [] ∧
    { entryE1 with inputs := [.engine, .rst] }.inputs = .engine :: [.rst] ∧
    decode 0x00000130#32 = .error .reservedBits ∧
    decode 0x00000031#32 = .error .unassignedOpcode := by decide +kernel

theorem witness_BusyEngineBecomesIdle :
    (accepted .extract entryE1).phase = .busy ∧
    { accepted .extract entryE1 with inputs := [wr .src 1#32, .rst] }.inputs.length = 2 := by decide +kernel

theorem witness_NopCompletes : exec .nop entryE1 = .next entryE1.finish := rfl

theorem witness_DesblkReplacesBlock_twice :
    entryE1.params.desTables.wf = true ∧ ∃ t u, exec .desblk entryE1 = .next t ∧ exec .desblk t = .next u :=
  ⟨by decide, _, _, rfl, rfl⟩

theorem witness_DesblkReplacesBlock_words :
    entryE1.params.desTables = defaultDesTables ∧ entryE1.blk0 = 0#32 ∧ entryE1.blk1 = 0#32 ∧
    { entryE1 with blk0 := 0x67452301#32, blk1 := 0xEFCDAB89#32 }.blk0 = 0x67452301#32 ∧
    { entryE1 with blk0 := 0x67452301#32, blk1 := 0xEFCDAB89#32 }.blk1 = 0xEFCDAB89#32 := by decide +kernel

theorem witness_ShufblkReplacesBlock :
    (0 < 1 ∧ 1 < 6) ∧ (0 < 5 ∧ 5 < 6) ∧
    { entryE1 with blk0 := 0x03020100#32, blk1 := 0x07060504#32 }.blk0 = 0x03020100#32 ∧
    { entryE1 with blk0 := 0x03020100#32, blk1 := 0x07060504#32 }.blk1 = 0x07060504#32 := by decide +kernel

theorem witness_CycleWritesCycleRegister :
    0 ≤ (operands 0 0 0 0 0 0 []).csize.toInt ∧ 0 ≤ (operands 0 0 0 0x7FFFFFFF 0 0 []).csize.toInt ∧
    (operands 0 0 0 0x80000000 0 0 []).csize.toInt < 0 ∧ (operands 0 0 0 0xFFFFFFFF 0 0 []).csize.toInt < 0 := by
  decide +kernel

theorem witness_CycleWritesCycleRegister_values (v : Word) :
    ∃ s t, exec .cycle s = .next t ∧ s.csize = v :=
  ⟨{ entryE1 with csize := v }, _, rfl, rfl⟩

/-- An empty payload at the very end of `WMEM`, and one that ends there. -/
theorem witness_DechdrDeciphersInPlace :
    (∀ s ∈ [operands 4096 0 0 0 0 0 [], operands 4080 0 16 0 0 0 []],
      0 ≤ s.len.toInt ∧ s.len.toInt % 8 = 0 ∧ s.src.toNat + s.len.toNat ≤ s.params.wmemSize) ∧
    (operands 4080 0 16 0 0 0 []).undisturbed := ⟨by decide +kernel, rfl, rfl⟩

theorem witness_DecmixDeciphersInPlace :
    (∀ s ∈ [operands 4096 0 0 0 0 0 [], operands 0 0 4096 0x7FFFFFFF 0 0 []],
      0 ≤ s.len.toInt ∧ s.len.toInt % 8 = 0 ∧ 0 ≤ s.csize.toInt ∧
        s.src.toNat + s.len.toNat ≤ s.params.wmemSize) ∧
    (operands 0 0 4096 0x7FFFFFFF 0 0 []).undisturbed := ⟨by decide +kernel, rfl, rfl⟩

theorem witness_DecipherFollowsType :
    (∀ s ∈ [operands 0 0 8 0 0 0x02 [], operands 0 0 8 0 0 0x06 [], operands 0 0 8 0 0 0x04 [],
        operands 4091 0 5 0 0 0x01 []], 0 ≤ s.len.toInt ∧ s.src.toNat + s.len.toNat ≤ s.params.wmemSize) ∧
    (operands 4091 0 5 0 0 0x01 []).undisturbed := ⟨by decide +kernel, rfl, rfl⟩

theorem witness_DecipherFollowsType_modes :
    ((0x02#8).getLsbD 1 = true ∧ (0x06#8).getLsbD 1 = true) ∧
    ((0x04#8).getLsbD 1 = false ∧ (0x04#8).getLsbD 2 = true) ∧
    ((0x01#8).getLsbD 1 = false ∧ (0x01#8).getLsbD 2 = false) ∧
    (operands 0 0 8 0 0 0x02 []).len.toInt % 8 = 0 ∧ 0 ≤ (operands 0 0 8 0 0 0x02 []).csize.toInt := by decide +kernel

/-- The stream of "a" with its output right behind it, and an empty output inside the input range. -/
theorem witness_InflateStoresTheData :
    (0 ≤ inflateA.csize.toInt ∧ 0 ≤ inflateA.rsize.toInt ∧
      inflateA.src.toNat + inflateA.csize.toNat ≤ inflateA.params.wmemSize ∧
      inflateA.dst.toNat + inflateA.rsize.toNat ≤ inflateA.params.wmemSize ∧
      ¬ shareByte inflateA.src.toNat inflateA.csize.toNat inflateA.dst.toNat inflateA.rsize.toNat ∧
      zinflate (inflateA.memRead inflateA.src.toNat inflateA.csize.toNat) inflateA.rsize.toNat = some [0x61#8]) ∧
    inflateA.undisturbed := ⟨by decide +kernel, rfl, rfl⟩

/-- `RSIZE` = 0 with `DST` inside the input range: no byte is shared, and the stream has one byte. -/
theorem witness_InflateFailureLeavesResultUnspecified :
    (∀ s ∈ [operands 0 4 0 9 0 0 streamA, operands 0 16 0 9 2 0 streamA],
      0 ≤ s.csize.toInt ∧ 0 ≤ s.rsize.toInt ∧
      s.src.toNat + s.csize.toNat ≤ s.params.wmemSize ∧ s.dst.toNat + s.rsize.toNat ≤ s.params.wmemSize ∧
      ¬ shareByte s.src.toNat s.csize.toNat s.dst.toNat s.rsize.toNat ∧
      zinflate (s.memRead s.src.toNat s.csize.toNat) s.rsize.toNat = none) ∧
    (operands 0 16 0 9 2 0 streamA).undisturbed := ⟨by decide +kernel, rfl, rfl⟩

theorem witness_extractChecksPass :
    extractChecksPass entryE1 ∧ extractChecksPass (operands 0 64 16 13 13 0x05 cipherE1) ∧
    extractChecksPass (operands 0 0 0 0 0 0x01 []) ∧ extractChecksPass (operands 0 64 16 13 10 0x05 cipherE1) := by
  unfold extractChecksPass; decide +kernel

theorem witness_ExtractCopiesStoredEntry :
    extractChecksPass (operands 0 64 16 13 13 0x05 cipherE1) ∧ (operands 0 64 16 13 13 0x05 cipherE1).undisturbed ∧
    (operands 0 64 16 13 13 0x05 cipherE1).rsize = (operands 0 64 16 13 13 0x05 cipherE1).csize :=
  ⟨witness_extractChecksPass.2.1, ⟨rfl, rfl⟩, rfl⟩

theorem witness_ExtractInflatesCompressedEntry :
    extractChecksPass entryE1 ∧ entryE1.undisturbed ∧ entryE1.rsize ≠ entryE1.csize ∧
    zinflate ((plainPayload entryE1).take entryE1.csize.toNat) entryE1.rsize.toNat = some textE1 :=
  ⟨witness_extractChecksPass.1, ⟨rfl, rfl⟩, by decide, by decide +kernel⟩

theorem witness_ExtractFailureKeepsDecipheredPayload :
    extractChecksPass (operands 0 64 16 13 10 0x05 cipherE1) ∧ (operands 0 64 16 13 10 0x05 cipherE1).undisturbed ∧
    (operands 0 64 16 13 10 0x05 cipherE1).rsize ≠ (operands 0 64 16 13 10 0x05 cipherE1).csize ∧
    zinflate ((plainPayload (operands 0 64 16 13 10 0x05 cipherE1)).take 13) 10 = none :=
  ⟨witness_extractChecksPass.2.2.2, ⟨rfl, rfl⟩, by decide, by decide +kernel⟩

/-- The code a command ends with, from states without interference. -/
def codeOf (i : Instr) (s : State) : Option (BitVec 8) :=
  match exec i s with
  | .next t => if s.hostWroteInput then none else some t.ecode
  | _ => none

/-- Each code of each command is reached (V2.3 to V2.8). -/
theorem witness_FirstFailingCheckIsReported :
    [operands 0 8 0 9 1 0 streamA, operands 0 8 0 0xFFFFFFFF 1 0 streamA, operands 0 4096 0 9 1 0 streamA,
      operands 0 16 0 9 2 0 streamA, inflateA].map (codeOf .inflate)
      = [some 0x04#8, some 0x02#8, some 0x03#8, some 0x05#8, some 0x00#8] ∧
    [operands 0 64 8 9 9 0x01 cipherE1, operands 0 4088 16 13 9 0x01 cipherE1, operands 0 8 16 13 9 0x01 cipherE1,
      operands 0 64 16 13 10 0x05 cipherE1, entryE1].map (codeOf .extract)
      = [some 0x02#8, some 0x03#8, some 0x04#8, some 0x05#8, some 0x00#8] ∧
    [operands 0 0 5 0 0 0x04 [], operands 0 0 8 0xFFFFFFFF 0 0x02 [], operands 4097 0 0 0 0 0 [],
      operands 0 0 5 0 0 0 [0#8, 0#8, 0#8, 0#8, 0#8]].map (codeOf .decipher)
      = [some 0x02#8, some 0x02#8, some 0x03#8, some 0x00#8] := by decide +kernel

theorem witness_CheckErrorsTouchNothing :
    ∃ t, exec .dechdr (operands 0 0 12 0 0 0 []) = .next t ∧ t.ecode ≠ 0x00#8 ∧ t.ecode ≠ 0x05#8 :=
  ⟨_, rfl, by decide +kernel, by decide +kernel⟩

theorem witness_CommandChangesOnlyItsFootprint :
    decode (accepted .extract entryE1).cmd = .ok .extract ∧
    (∃ t, exec .extract (accepted .extract entryE1) = .next t) ∧
    [15, 16, 63, 64, 72, 73].map (inSpans (accepted .extract entryE1).footprint)
      = [true, false, false, true, true, false] := ⟨by decide +kernel, ⟨_, rfl⟩, by decide +kernel⟩

theorem witness_CommandsKeepOperandRegisters :
    (∃ t, exec .decmix entryE1 = .next t) ∧ Instr.decmix ≠ .desblk ∧ Instr.decmix ≠ .extract := ⟨⟨_, rfl⟩, by decide⟩

/-- Two states that differ in byte 30 alone, outside the footprint. -/
theorem witness_CommandDependsOnlyOnFootprint :
    ∃ s u s' u' : State, decode s.cmd = .ok .extract ∧ u = { s with wmem := u.wmem } ∧ u ≠ s ∧
      (∀ a, inSpans s.footprint a = true → u.byteAt a = s.byteAt a) ∧
      exec .extract s = .next s' ∧ exec .extract u = .next u' := by
  refine ⟨accepted .extract entryE1, (accepted .extract entryE1).memWrite 30 [0x99#8], _, _, by decide +kernel, rfl,
    by decide +kernel, ?_, rfl, rfl⟩
  intro a ha
  have hf : (accepted .extract entryE1).footprint = [⟨0, 16⟩, ⟨64, 9⟩] := by decide +kernel
  rw [hf] at ha
  simp only [inSpans, Span.has, List.any_cons, List.any_nil, Bool.or_false, Bool.or_eq_true, decide_eq_true_eq] at ha
  have h : ∀ k, k < 73 → k ≠ 30 →
      ((accepted .extract entryE1).memWrite 30 [0x99#8]).wmem.get? k = (accepted .extract entryE1).wmem.get? k := by
    decide +kernel
  unfold State.byteAt
  rw [h a (by omega) (by omega)]
  rfl

/-- The same payload at two places. -/
theorem witness_ExtractDependsOnlyOnPayload :
    (let s := entryE1
     let u := { operands 100 32 16 13 9 0x05 [] with wmem := cellsAt 100 cipherE1 }
     s.params.desTables = u.params.desTables ∧ s.len = u.len ∧ s.csize = u.csize ∧ s.rsize = u.rsize ∧
     s.typ = u.typ ∧ s.memRead s.src.toNat s.len.toNat = u.memRead u.src.toNat u.len.toNat ∧
     s.hostWroteFootprint = false ∧ s.hostWroteInput = false ∧
     u.hostWroteFootprint = false ∧ u.hostWroteInput = false ∧
     codeOf .extract s = some 0x00#8 ∧ codeOf .extract u = some 0x00#8 ∧ s.src ≠ u.src) := by decide +kernel

theorem witness_ExtractIsDecipherThenInflate :
    extractChecksPass entryE1 ∧ entryE1.undisturbed ∧ entryE1.rsize ≠ entryE1.csize :=
  ⟨witness_extractChecksPass.1, ⟨rfl, rfl⟩, by decide⟩

/-- A byte inside the footprint and one outside; a word inside it, one across its end, one outside. -/
theorem witness_HostInterferenceIsConfined_accesses :
    (accepted .extract entryE1).phase = .busy ∧ inSpans (accepted .extract entryE1).footprint 15 = true ∧
    inSpans (accepted .extract entryE1).footprint 73 = false ∧
    touchesSpans (accepted .extract entryE1).footprint 12 [0#8, 0#8, 0#8, 0#8].length ∧
    touchesSpans (accepted .extract entryE1).footprint 72 [0#8, 0#8, 0#8, 0#8].length ∧
    ¬ touchesSpans (accepted .extract entryE1).footprint 16 [0#8, 0#8, 0#8, 0#8].length ∧ entryE1.phase = .idle :=
  ⟨by decide +kernel, by decide +kernel, by decide +kernel, touches_iff.1 (by decide +kernel),
   touches_iff.1 (by decide +kernel), mt touches_iff.2 (by decide +kernel), by decide +kernel⟩

theorem witness_HostInterferenceIsConfined_marked :
    ([Instr.dechdr, .decmix, .decipher, .extract].all fun i =>
      checkOf i { entryE1 with hostWroteFootprint := true } == none) = true ∧
    checkOf .extract { entryE1 with hostWroteInput := true } = none ∧
    checkOf .inflate { inflateA with hostWroteFootprint := true } = none ∧
    checkOf .inflate { inflateA with hostWroteInput := true } = none := by decide +kernel

theorem witness_Perm64MovesBits :
    isMaskTable defaultDesTables.mask = true ∧ isPermTable 64 defaultDesTables.ip = true ∧
    isPermTable 64 defaultDesTables.fp = true ∧ 0 < 64 ∧ 63 < 64 := by
  decide

/-- The tables meet their shape; two blocks with the same right half after `IP` (their bit 63 differs). -/
theorem witness_tables_wf :
    defaultDesTables.wf = true ∧
    (perm64 maskTable defaultDesTables.ip ⟨⟨0#8, 0#8, 0#8, 0#8⟩, ⟨0#8, 0#8, 0#8, 0#8⟩⟩).hi
      = (perm64 maskTable defaultDesTables.ip ⟨⟨0#8, 0#8, 0#8, 0#8⟩, ⟨0#8, 0#8, 0#8, 1#8⟩⟩).hi := by decide +kernel

theorem witness_DigitsCountsDecimalDigits :
    digits 9 = 1 ∧ digits 10 = 2 ∧ digits 999 = 3 ∧ digits 1000 = 4 ∧ digits 2147483647 = 10 ∧ 2147483647 < 2 ^ 31 := by
  decide +kernel

/-- Both ends of each range (V2.3). -/
theorem witness_CycleTable :
    [0, 99, 100, 999, 1000, 9999, 10000, 99999, 100000, 999999, 1000000, 9999999, 10000000, 99999999, 100000000,
      999999999, 1000000000, 2147483647].map cycleOf
      = [1, 1, 4, 4, 5, 5, 14, 14, 15, 15, 22, 22, 23, 23, 24, 24, 25, 25] := by decide +kernel

/-- A buffer of 21 blocks, with blocks 19 and 20 in it, and one of exactly 20. -/
theorem witness_modes_buffer :
    (List.replicate 168 0#8).length % 8 = 0 ∧ 20 < (List.replicate 168 0#8).length / 8 ∧
    (List.replicate 160 0#8).length % 8 = 0 ∧ (List.replicate 160 0#8).length ≤ 160 ∧ 160 ≤ 167 ∧ 99 < 100 := by
  decide +kernel

theorem witness_TypeSelectsMode :
    Instr.dechdr ≠ .decipher ∧ Instr.dechdr ≠ .extract ∧ ∃ t, exec .dechdr entryE1 = .next t :=
  ⟨by decide, by decide, _, rfl⟩

theorem witness_zinflate : zinflate streamA 1 = some [0x61#8] := by decide +kernel

theorem witness_StoredStreamInflatesToItsData : ([] : List Byte).length < 2 ^ 16 ∧ textE1.length < 2 ^ 16 := by decide

/-- A complete code, and one that is over-subscribed and so shut out. -/
theorem witness_HuffmanDecodingFollowsAssignment :
    (buildCode [2, 1, 3, 3]).isSome = true ∧ (buildCode [1, 1, 1]).isSome = false := by decide +kernel

theorem witness_BackReferenceRepeatsOutput :
    1 ≤ 1 ∧ 1 ≤ [0x61#8].length ∧ [0x61#8].length ≤ 4 ∧
    copyBack 4 1 3 [0x61#8] = some (List.replicate 4 0x61#8) ∧ copyBack 3 1 3 [0x61#8] = none := by decide +kernel

theorem witness_phases :
    entryE1.phase = .idle ∧ (accepted .nop entryE1).phase = .busy ∧ 0 < 4 ∧ 3 < 4 := by decide +kernel

/-- The last register, the first reserved offset and the last one. -/
theorem witness_register_offsets :
    regAt 0x038 = some .wmsize ∧ regAt 0x03C = none ∧ regAt 0xFFC = none ∧ 0xFFC < 0x1000 ∧ 0xFFC % 4 = 0 := by decide

/-- The host's next access. -/
theorem witness_HostWriteFollowsRegisterMap :
    { accepted .nop entryE1 with inputs := [wr .src 5#32, .wait] }.inputs =
      .access ⟨.reg 0x010, 4, .write 5#32⟩ :: [.wait] := by decide +kernel

theorem witness_StatusAfterCompletion :
    (∃ t, exec .nop entryE1 = .next t) ∧ ∃ t, exec .cycle { entryE1 with werr := true } = .next t := ⟨⟨_, rfl⟩, ⟨_, rfl⟩⟩

theorem witness_write_bits :
    (0x2#32).getLsbD 1 = true ∧ (0x1#32).getLsbD 1 = false ∧ (0x3#32).getLsbD 1 = true ∧ entryE1.phase = .idle := by
  decide +kernel

/-- A soft reset of a Busy `EXTRACT`: a byte inside its footprint and one outside it. -/
theorem witness_SoftResetClearsRegisters :
    (0x2#32).getLsbD 1 = true ∧ (accepted .extract entryE1).phase = .busy ∧
    inSpans (accepted .extract entryE1).footprint 72 = true ∧
    inSpans (accepted .extract entryE1).footprint 73 = false := by decide +kernel

theorem witness_HostMemoryIsLittleEndian :
    entryE1.phase = .idle ∧ 4092 % 4 = 0 ∧ 4092 + 4 ≤ entryE1.params.wmemSize ∧ 4095 % 1 = 0 ∧
    4095 + 1 ≤ entryE1.params.wmemSize ∧ 4094 % 2 = 0 ∧ 4094 + 2 ≤ entryE1.params.wmemSize := by decide +kernel

/-- The last legal register and working-memory accesses, by offset and by address. -/
theorem witness_BusErrors_legal :
    legalAccess testParams ⟨.reg 0xFFC, 4, .read⟩ ∧ legalAccess testParams ⟨.mem 4095, 1, .read⟩ ∧
    legalAccess testParams ⟨.addr 0x10FFC, 4, .read⟩ ∧ legalAccess testParams ⟨.addr 0x20FFC, 4, .write 1#32⟩ := by
  simp only [legalAccess, legalRegAccess, legalMemAccess]; decide +kernel

/-- The first illegal ones: width, alignment, range, neither window. -/
theorem witness_BusErrors_illegal :
    ¬ legalAccess testParams ⟨.reg 0xFFC, 2, .read⟩ ∧ ¬ legalAccess testParams ⟨.reg 0x1000, 4, .read⟩ ∧
    ¬ legalAccess testParams ⟨.mem 4096, 1, .read⟩ ∧ ¬ legalAccess testParams ⟨.mem 4, 3, .read⟩ ∧
    ¬ legalAccess testParams ⟨.addr 0x11000, 4, .read⟩ ∧ ¬ legalAccess testParams ⟨.addr 0x21000, 1, .read⟩ := by
  simp only [legalAccess, legalRegAccess, legalMemAccess]; decide +kernel

theorem witness_BusErrors_step :
    step { entryE1 with inputs := [.access ⟨.mem 4096, 1, .read⟩] }
      = .fault (.busError .memRange ⟨.mem 4096, 1, .read⟩) := rfl

/-- A misaligned start, a word and a misaligned end, up to the end of `WMEM`. -/
theorem witness_WrmPlacesItsBytes :
    entryE1.phase = .idle ∧ 4087 + textE1.length ≤ entryE1.params.wmemSize ∧
    { entryE1 with inputs := wrm 4087 textE1 ++ [Move.rst] }.inputs = wrm 4087 textE1 ++ [Move.rst] ∧
    (wrm 4087 textE1).length = 3 := by decide +kernel

/-- Power-on reset while a command runs. -/
theorem witness_PowerOnValues :
    { accepted .extract entryE1 with inputs := [.rst] }.inputs = .rst :: [] ∧ 0x004 ≠ 0x000 ∧ 0x004 ≠ 0x038 := by
  decide +kernel

/-- A Busy state that meets the invariant, and its step. -/
theorem witness_EveryStepKeepsInvariant :
    (accepted .extract entryE1).Inv ∧ ∃ t, step (accepted .extract entryE1) = .next t :=
  ⟨{ memCanonical := by decide +kernel
     memInside := by decide +kernel
     busyClear := by decide +kernel
     errIffCode := by decide +kernel
     codeLegal := by decide +kernel
     cycleLegal := by decide +kernel
     outlenZero := by decide +kernel
     idleNoHazard := by decide +kernel }, _, rfl⟩

end Sys2Proof.Tests
end

section
/-! PROOFS. The machine invariant (Safety.lean): the values of `CYCLE` and of the completion codes, the part of the invariant
a command's execute phase can touch, the host's accesses and the resets, and the step. -/

namespace Sys2Proof.Machine
open Sys2Proof

/-! ## The values of `CYCLE` -/

theorem digitsWithin_pos (fuel n : Nat) : 1 ≤ digitsWithin fuel n := by
  cases fuel with
  | zero => exact Nat.le_refl 1
  | succ fuel => rw [digitsWithin]; split <;> omega

theorem digitsWithin_le (d fuel n : Nat) (h : n < 10 ^ (d + 1)) : digitsWithin fuel n ≤ d + 1 := by
  induction fuel generalizing d n with
  | zero => exact Nat.succ_le_succ (Nat.zero_le d)
  | succ fuel ih =>
    rw [digitsWithin]
    split
    · omega
    · cases d with
      | zero => omega
      | succ d => exact Nat.succ_le_succ (ih d (n / 10) (by rw [Nat.pow_succ] at h; omega))

/-- `CYCLEOF` of a number of at most ten digits is a value `CYCLE` can hold (41_cipher_modes.md R147). -/
theorem cycleOf_legal {cs : Nat} (h : cs < 10 ^ 10) : BitVec.ofNat 5 (cycleOf cs) ∈ legalCycles := by
  have hlo : 1 ≤ digits cs := digitsWithin_pos cs cs
  have hhi : digits cs ≤ 10 := digitsWithin_le 9 cs cs h
  unfold cycleOf
  generalize digits cs = d at hlo hhi
  interval_cases d <;> decide

theorem State.csizeNat_lt (s : State) : s.csizeNat < 10 ^ 10 := by
  have h : 2 * s.csize.toInt < 2 ^ 32 := BitVec.two_mul_toInt_lt
  unfold State.csizeNat State.opCsize
  omega

theorem State.setCycleIn_cycle_legal {s : State} (h : s.cycle ∈ legalCycles) (m : CipherMode) :
    (s.setCycleIn m).cycle ∈ legalCycles := by
  cases m with
  | none => exact h
  | header => exact h
  | mixed => exact cycleOf_legal s.csizeNat_lt

/-! ## The completion codes -/

theorem firstFailure_mem {l : List (Bool × ErrCode)} {e : ErrCode} (h : firstFailure l = some e) :
    e ∈ l.map Prod.snd := by
  induction l with
  | nil => cases h
  | cons p l ih =>
    obtain ⟨fails, e'⟩ := p
    cases fails with
    | true => cases h; exact List.mem_cons_self
    | false => exact List.mem_cons_of_mem _ (ih h)

/-- No check phase reports the reserved code (60_exceptions.md R270). -/
theorem checkOf_ne_decryptRequired (i : Instr) (s : State) : checkOf i s ≠ some .decryptRequired := by
  intro h
  cases i with
  | nop => cases h
  | desblk => cases h
  | shufblk => cases h
  | cycle => simpa using firstFailure_mem h
  | dechdr => simpa using firstFailure_mem h
  | decmix => simpa using firstFailure_mem h
  | decipher => simpa using firstFailure_mem h
  | inflate => simpa using firstFailure_mem h
  | extract => simpa using firstFailure_mem h

/-- Every code but the reserved one is reported by some command (60_exceptions.md R270, U11). -/
theorem completionCode_legal {c : Option ErrCode} (h : c ≠ some .decryptRequired) :
    completionCode c ∈ legalCodes := by
  cases c with
  | none => decide
  | some e =>
    cases e with
    | decryptRequired => exact absurd rfl h
    | illegalCmd => decide
    | malformed => decide
    | range => decide
    | overlap => decide
    | decompressFail => decide

/-! ## Results have the length asked for -/

theorem zinflateWithin_length {fuel rs : Nat} {s out : List Byte} (h : zinflateWithin fuel s rs = some out) :
    out.length = rs := by
  simp only [zinflateWithin, Option.bind_eq_bind, Option.bind_eq_some_iff, Option.ite_none_right_eq_some,
    Option.some.injEq, Bool.and_eq_true, beq_iff_eq] at h
  obtain ⟨_, _, ⟨_, acc⟩, _, ⟨_, hlen⟩, rfl⟩ := h
  simpa using hlen

theorem extractResult_length {cs rs : Nat} {buf out : List Byte} (hcs : cs ≤ buf.length)
    (h : extractResult cs rs buf = some out) : out.length = rs := by
  unfold extractResult at h
  split at h
  · next hrs =>
    cases h
    rw [List.length_take, hrs]
    exact Nat.min_eq_left hcs
  · exact zinflateWithin_length h

/-! ## The part of the invariant an execute phase can touch -/

/-- Working memory and `CYCLE` are as the invariant says: what an execute phase must keep, since the completion that follows
sets the status fields. -/
structure State.DataInv (s : State) : Prop where
  memCanonical : s.wmem.wf = true
  memInside : ∀ c ∈ s.wmem, c.1 < s.params.wmemSize
  cycleLegal : s.cycle ∈ legalCycles

theorem State.Inv.data {s : State} (h : s.Inv) : s.DataInv := ⟨h.memCanonical, h.memInside, h.cycleLegal⟩

/-- Completion with any code that is not reserved establishes the invariant. -/
theorem State.DataInv.complete {s : State} (h : s.DataInv) {c : Option ErrCode} (hc : c ≠ some .decryptRequired) :
    (s.complete c).Inv where
  memCanonical := h.memCanonical
  memInside := h.memInside
  busyClear := nofun
  errIffCode := decide_eq_true_iff
  codeLegal := completionCode_legal hc
  cycleLegal := h.cycleLegal
  outlenZero := nofun
  idleNoHazard _ := ⟨rfl, rfl⟩

theorem State.DataInv.setBlk {s : State} (h : s.DataInv) (b : Block) : (s.setBlk b).DataInv := { h with }

theorem State.DataInv.setOutlen {s : State} (h : s.DataInv) (v : Word) : { s with outlen := v }.DataInv := { h with }

theorem State.DataInv.setCycle {s : State} (h : s.DataInv) : s.setCycle.DataInv :=
  { h with cycleLegal := cycleOf_legal s.csizeNat_lt }

theorem State.DataInv.spoil {s : State} (h : s.DataInv) {a n : Nat} (hb : a + n ≤ s.params.wmemSize) :
    (s.spoil a n).DataInv where
  memCanonical := Memory.write_wf h.memCanonical _ _
  memInside := Memory.write_inside h.memInside (by simpa using hb)
  cycleLegal := h.cycleLegal

theorem State.DataInv.writeOutput {s : State} (h : s.DataInv) {a : Nat} {bs : List Byte}
    (hb : a + bs.length ≤ s.params.wmemSize) : (s.writeOutput a bs).DataInv := by
  rcases s.writeOutput_cases a bs with ⟨_, e⟩ | ⟨_, e⟩ <;> rw [e]
  · exact ⟨Memory.write_wf h.memCanonical _ _, Memory.write_inside h.memInside hb, h.cycleLegal⟩
  · exact h.spoil hb

theorem State.decipherInPlace_params (m : CipherMode) (s : State) : (s.decipherInPlace m).params = s.params :=
  by rw [s.decipherInPlace_frame m]

theorem State.decipherInPlace_dst (m : CipherMode) (s : State) : (s.decipherInPlace m).dst = s.dst :=
  by rw [s.decipherInPlace_frame m]

theorem State.decipherInPlace_rsize (m : CipherMode) (s : State) : (s.decipherInPlace m).rsize = s.rsize :=
  by rw [s.decipherInPlace_frame m]

theorem State.decipherInPlace_cycle (m : CipherMode) (s : State) :
    (s.decipherInPlace m).cycle = (s.setCycleIn m).cycle :=
  by rw [s.decipherInPlace_frame m]

theorem State.DataInv.decipherInPlace {s : State} (h : s.DataInv) (m : CipherMode)
    (hb : s.opSrc + s.lenNat ≤ s.params.wmemSize) : (s.decipherInPlace m).DataInv where
  memCanonical := State.decipherInPlace_wf h.memCanonical m
  memInside := by
    rw [State.decipherInPlace_params]
    exact State.decipherInPlace_inside h.memInside m hb
  cycleLegal := by
    rw [State.decipherInPlace_cycle]
    exact State.setCycleIn_cycle_legal h.cycleLegal m

theorem State.DataInv.endUnspecified {s : State} (h : s.DataInv) (ok : Bool)
    (hb : s.opDst + s.rsizeNat ≤ s.params.wmemSize) : (s.endUnspecified ok).Inv := by
  refine ((h.spoil hb).setOutlen _).complete ?_
  cases ok <;> decide

/-- Placing a result of `RSIZE` bytes in `[DST, DST + RSIZE)` ends in a state that meets the invariant. -/
theorem State.DataInv.placeResult {s : State} (h : s.DataInv) {r : Option (List Byte)}
    (hb : s.opDst + s.rsizeNat ≤ s.params.wmemSize) (hr : ∀ out, r = some out → out.length = s.rsizeNat) :
    (s.placeResult r).Inv := by
  rcases s.placeResult_cases r with ⟨_, e⟩ | ⟨_, _, e⟩ | ⟨out, _, hout, e⟩ <;> rw [e]
  · exact h.endUnspecified _ hb
  · exact h.endUnspecified _ hb
  · have hw : (s.writeOutput s.opDst out).DataInv := h.writeOutput (by rw [hr out hout]; exact hb)
    exact (hw.setOutlen _).complete nofun

/-! ## Every command -/

theorem executed_inv {i : Instr} {s : State} (h : s.DataInv) (hc : checkOf i s = none) : (executed i s).Inv := by
  cases i with
  | nop => exact h.complete nofun
  | desblk => exact (h.setBlk _).complete nofun
  | shufblk => exact (h.setBlk _).complete nofun
  | cycle => exact h.setCycle.complete nofun
  | dechdr =>
    obtain ⟨_, _, hsrc⟩ := checkDechdr_none.1 hc
    exact (h.decipherInPlace _ hsrc).complete nofun
  | decmix =>
    obtain ⟨_, _, _, hsrc⟩ := checkDecmix_none.1 hc
    exact (h.decipherInPlace _ hsrc).complete nofun
  | decipher =>
    obtain ⟨_, _, _, hsrc⟩ := checkDecipher_none.1 hc
    exact (h.decipherInPlace _ hsrc).complete nofun
  | inflate =>
    obtain ⟨_, _, _, hdst, _⟩ := checkInflate_none.1 hc
    exact h.placeResult hdst fun out hout => zinflateWithin_length hout
  | extract =>
    obtain ⟨_, _, _, _, hcl, hsrc, hdst, _⟩ := checkExtract_none.1 hc
    have hcs : s.csizeNat ≤ (s.deciphered s.mode).length := by
      rw [State.deciphered_length]
      exact Int.toNat_le_toNat hcl
    have hrs : (s.decipherInPlace s.mode).rsizeNat = s.rsizeNat := by
      simp only [State.rsizeNat, State.opRsize, State.decipherInPlace_rsize]
    refine (h.decipherInPlace _ hsrc).placeResult ?_ fun out hout => ?_
    · rw [hrs, State.opDst, State.decipherInPlace_dst, State.decipherInPlace_params]
      exact hdst
    · rw [hrs]
      exact extractResult_length hcs hout

/-- Every command ends in a state that meets the invariant. -/
theorem endState_inv (i : Instr) {s : State} (h : s.DataInv) : (endState i s).Inv := by
  cases hc : checkOf i s with
  | none => rw [endState_ok hc]; exact executed_inv h hc
  | some e =>
    rw [endState_error hc]
    exact h.complete (hc ▸ checkOf_ne_decryptRequired i s)

/-! ## Register writes -/

/-- What a host write of `v` to a register can do (44_control.md R251): it is one of the three control writes, or it reaches the
operand registers and `WERR` at most. -/
inductive RegWriteCase (v : Word) (s t : State) : Prop where
  /-- `CTRL`. -/
  | ctrl (h : t = s.writeCtrl v)
  /-- `STATUS`. -/
  | status (h : t = s.writeStatus v)
  /-- `CMD`, with the engine Idle. -/
  | accept (h : t = s.accept v)
  /-- An operand register, a locked write, or a register that ignores the write. -/
  | operand (h : t = { s with
      werr := t.werr, src := t.src, dst := t.dst, len := t.len, csize := t.csize, rsize := t.rsize, typ := t.typ
      blk0 := t.blk0, blk1 := t.blk1 })

theorem RegWriteCase.locked {v : Word} {s : State} (f : State → State) (hf : RegWriteCase v s (f s)) :
    RegWriteCase v s (s.locked f) := by
  rcases s.locked_cases f with ⟨_, e⟩ | ⟨_, e⟩ <;> rw [e]
  · exact .operand rfl
  · exact hf

theorem State.writeReg_cases (s : State) (r : Reg) (v : Word) : RegWriteCase v s (s.writeReg r v) := by
  cases r with
  | id => exact .operand rfl
  | ctrl => exact .ctrl rfl
  | status => exact .status rfl
  | cmd => exact .locked (State.accept v) (.accept rfl)
  | src => exact .locked (fun s => { s with src := v }) (.operand rfl)
  | dst => exact .locked (fun s => { s with dst := v }) (.operand rfl)
  | len => exact .locked (fun s => { s with len := v }) (.operand rfl)
  | csize => exact .locked (fun s => { s with csize := v }) (.operand rfl)
  | rsize => exact .locked (fun s => { s with rsize := v }) (.operand rfl)
  | type => exact .locked (fun s => { s with typ := v.extractLsb' 0 8 }) (.operand rfl)
  | outlen => exact .operand rfl
  | cycle => exact .operand rfl
  | blk0 => exact .locked (fun s => { s with blk0 := v }) (.operand rfl)
  | blk1 => exact .locked (fun s => { s with blk1 := v }) (.operand rfl)
  | wmsize => exact .operand rfl

/-! ## Host accesses and resets -/

/-- A change of fields the invariant does not speak of keeps it. -/
theorem State.Inv.of_silent {s t : State} (h : s.Inv)
    (e : t = { s with
      ie := t.ie, werr := t.werr, src := t.src, dst := t.dst, len := t.len, csize := t.csize, rsize := t.rsize
      typ := t.typ, blk0 := t.blk0, blk1 := t.blk1, powerOns := t.powerOns, draws := t.draws
      inputs := t.inputs, responses := t.responses }) : t.Inv := by
  rw [e]
  exact { h with }

theorem State.afterRead_inv {s : State} (h : s.Inv) : s.afterRead.Inv := by
  unfold State.afterRead
  split
  · exact h.of_silent rfl
  · exact h

theorem State.answer_inv {s : State} (h : s.Inv) (r : BusResponse) : (s.answer r).Inv := h.of_silent rfl

/-- The registers at their reset values meet the invariant over any working memory that does. -/
theorem State.clearRegisters_inv {s : State} (hwf : s.wmem.wf = true) (hin : ∀ c ∈ s.wmem, c.1 < s.params.wmemSize) :
    s.clearRegisters.Inv where
  memCanonical := hwf
  memInside := hin
  busyClear := nofun
  errIffCode := by simp
  codeLegal := by simp [legalCodes]
  cycleLegal := by simp [legalCycles]
  outlenZero := nofun
  idleNoHazard _ := ⟨rfl, rfl⟩

theorem State.powerOnReset_inv (s : State) : s.powerOnReset.Inv :=
  State.clearRegisters_inv (s := { s with wmem := [], powerOns := s.powerOns + 1 }) rfl nofun

theorem State.powerOn_inv (p : Params) : (State.powerOn p []).Inv :=
  State.clearRegisters_inv (s := State.powerOn p []) rfl nofun

theorem State.abandon_params (s : State) : s.abandon.params = s.params :=
  by
  rw [State.abandon, s.spoilSpans_frame s.footprint]

theorem State.softReset_inv {s : State} (h : s.Inv) : s.softReset.Inv := by
  rcases s.softReset_cases with ⟨_, e⟩ | ⟨_, e⟩ <;> rw [e]
  · refine State.clearRegisters_inv (State.spoilSpans_wf _ h.memCanonical) ?_
    rw [State.abandon_params]
    exact State.spoilSpans_inside _ h.memInside s.footprint_inside
  · exact State.clearRegisters_inv h.memCanonical h.memInside

theorem State.accept_inv {s : State} (h : s.Inv) (w : Word) : (s.accept w).Inv where
  memCanonical := h.memCanonical
  memInside := h.memInside
  busyClear _ := ⟨rfl, rfl, rfl⟩
  errIffCode := by simp
  codeLegal := by simp [legalCodes]
  cycleLegal := h.cycleLegal
  outlenZero _ hw := if_pos hw
  idleNoHazard := nofun

theorem State.writeStatus_inv {s : State} (h : s.Inv) (v : Word) : (s.writeStatus v).Inv :=
  { h with
    busyClear := fun hb => by
      obtain ⟨hdone, herr, hcode⟩ := h.busyClear hb
      simp [hdone, herr, hcode]
    errIffCode := by
      rw [State.writeStatus_err, State.writeStatus_ecode]
      cases v.getLsbD 2 <;> simp [h.errIffCode]
    codeLegal := by
      rw [State.writeStatus_ecode]
      split
      · decide
      · exact h.codeLegal }

theorem State.writeCtrl_inv {s : State} (h : s.Inv) (v : Word) : (s.writeCtrl v).Inv := by
  unfold State.writeCtrl
  split
  · exact State.softReset_inv h
  · exact h.of_silent rfl

theorem State.writeReg_inv {s : State} (h : s.Inv) (r : Reg) (v : Word) : (s.writeReg r v).Inv := by
  cases s.writeReg_cases r v with
  | ctrl e => rw [e]; exact State.writeCtrl_inv h v
  | status e => rw [e]; exact State.writeStatus_inv h v
  | accept e => rw [e]; exact State.accept_inv h v
  | operand e => rw [e]; exact h.of_silent rfl

theorem State.hostWriteReg_inv {s : State} (h : s.Inv) (off : Nat) (v : Word) : (s.hostWriteReg off v).Inv := by
  unfold State.hostWriteReg
  split
  · exact h
  · exact State.writeReg_inv h _ v

/-- A host write to `WMEM` inside its bound keeps the invariant: a hazard is marked only while the engine is Busy. -/
theorem State.hostWriteMem_inv {s : State} (h : s.Inv) {a : Nat} {bs : List Byte}
    (hb : a + bs.length ≤ s.params.wmemSize) : (s.hostWriteMem a bs).Inv := by
  have hwf := State.hostWriteMem_wf h.memCanonical a bs
  have hin := State.hostWriteMem_inside h.memInside hb
  have hmarks : s.phase = .idle →
      (s.hostWriteMem a bs).hostWroteFootprint = false ∧ (s.hostWriteMem a bs).hostWroteInput = false := by
    intro hp
    rw [State.hostWriteMem_idle hp]
    exact h.idleNoHazard hp
  rw [State.hostWriteMem_frame]
  exact { h with memCanonical := hwf, memInside := hin, idleNoHazard := hmarks }

theorem windowError_mem_none {p : Params} {off width : Nat} (h : windowError p .mem off width = none) :
    off + width ≤ p.wmemSize := by
  by_contra hlt
  rw [windowError, if_pos (show p.wmemSize < off + width by omega)] at h
  split_ifs at h

@[simp] theorem leBytes_length (n : Nat) (w : Word) : (leBytes n w).length = n := by simp [leBytes]

theorem State.windowAccess_inv {s : State} (h : s.Inv) {w : Window} {off width : Nat}
    (he : windowError s.params w off width = none) (d : BusDir) : (s.windowAccess w off width d).Inv := by
  cases w with
  | reg =>
    cases d with
    | read => exact State.answer_inv (State.afterRead_inv h) _
    | write v => exact State.answer_inv (State.hostWriteReg_inv h off v) _
  | mem =>
    cases d with
    | read => exact State.answer_inv (State.afterRead_inv h) _
    | write v =>
      exact State.answer_inv (State.hostWriteMem_inv h (by simpa using windowError_mem_none he)) _

/-! ## The step -/

/-- Settles O58: by the ways a step can answer a next state. -/
theorem everyStepKeepsInvariant : Obligations.EveryStepKeepsInvariant := by
  intro s t h hst
  have hinputs (l : List Move) : ({ s with inputs := l } : State).Inv := h.of_silent rfl
  cases step_cases hst with
  | command u i turn dec ht =>
    obtain ⟨_, _, l, rfl, _⟩ := State.engineTurn_some turn
    rw [ht]
    exact endState_inv i (hinputs l).data
  | illegal u e turn dec ht =>
    obtain ⟨_, _, l, rfl, _⟩ := State.engineTurn_some turn
    rw [ht]
    exact (hinputs l).data.complete (by decide)
  | rest ht => rw [ht]; exact h
  | access op l hi w off hr he ht => rw [ht]; exact State.windowAccess_inv (hinputs l) he op.dir
  | wait l hi ht => rw [ht]; exact State.answer_inv (hinputs l) _
  | turn l hi ht => rw [ht]; exact hinputs l
  | rst l hi ht => rw [ht]; exact State.powerOnReset_inv _

end Sys2Proof.Machine
end

section
/-! PROOFS. The parameters no step changes, power-on, acceptance of a command word, the engine's turn, and the block registers. -/

namespace Sys2Proof.Machine
open Sys2Proof

/-! ## The parameters -/

theorem endState_params (i : Instr) (s : State) : (endState i s).params = s.params := by
  rw [(endState_completed i s).frame]

theorem State.softReset_params (s : State) : s.softReset.params = s.params := by
  rcases s.softReset_cases with ⟨_, e⟩ | ⟨_, e⟩ <;> rw [e]
  · exact s.abandon_params
  · rfl

theorem State.writeCtrl_params (s : State) (v : Word) : (s.writeCtrl v).params = s.params := by
  unfold State.writeCtrl
  split
  · exact s.softReset_params
  · rfl

theorem State.writeReg_params (s : State) (r : Reg) (v : Word) : (s.writeReg r v).params = s.params := by
  cases s.writeReg_cases r v with
  | ctrl e => rw [e, State.writeCtrl_params]
  | status e => rw [e, State.writeStatus_params]
  | accept e => rw [e, State.accept_params]
  | operand e => rw [e]

theorem State.hostWriteReg_params (s : State) (off : Nat) (v : Word) : (s.hostWriteReg off v).params = s.params := by
  unfold State.hostWriteReg
  split
  · rfl
  · exact s.writeReg_params _ v

theorem State.hostWriteMem_params (s : State) (a : Nat) (bs : List Byte) :
    (s.hostWriteMem a bs).params = s.params := by
  rw [s.hostWriteMem_frame a bs]

theorem State.afterRead_params (s : State) : s.afterRead.params = s.params := by
  unfold State.afterRead
  split <;> rfl

theorem State.windowAccess_params (s : State) (w : Window) (off width : Nat) (d : BusDir) :
    (s.windowAccess w off width d).params = s.params := by
  cases w with
  | reg =>
    cases d with
    | read => exact s.afterRead_params
    | write v => exact s.hostWriteReg_params off v
  | mem =>
    cases d with
    | read => exact s.afterRead_params
    | write v => exact s.hostWriteMem_params off _

/-- No step changes a parameter (00_scope.md R9, 10_state.md R53). -/
theorem step_params {s t : State} (h : step s = .next t) : t.params = s.params := by
  cases step_cases h with
  | command u i turn dec ht =>
    obtain ⟨_, _, l, rfl, _⟩ := State.engineTurn_some turn
    rw [ht, endState_params]
  | illegal u e turn dec ht =>
    obtain ⟨_, _, l, rfl, _⟩ := State.engineTurn_some turn
    rw [ht, State.raiseError_eq, State.complete_params]
  | rest ht => rw [ht]
  | access op l hi w off hr he ht => rw [ht, State.windowAccess_params]
  | wait l hi ht => rw [ht]; rfl
  | turn l hi ht => rw [ht]
  | rst l hi ht => rw [ht]; rfl

theorem State.hostReadReg_id (s : State) : s.hostReadReg 0x000 = idValue := rfl

theorem State.hostReadReg_wmsize (s : State) : s.hostReadReg 0x038 = BitVec.ofNat 32 s.params.wmemSize := rfl

/-- Settles O60: `ID` is a constant, and `WMSIZE` reads a parameter. -/
theorem noStepChangesParameters : Obligations.NoStepChangesParameters := by
  intro s t h
  have hp : t.params = s.params := step_params h
  refine ⟨hp, ?_, ?_⟩
  · rw [State.hostReadReg_id, State.hostReadReg_id]
  · rw [State.hostReadReg_wmsize, State.hostReadReg_wmsize, hp]

/-! ## The engine's turn -/

theorem step_of_turn {s u : State} {i : Instr} (h : s.engineTurn = some u) (hd : decode u.cmd = .ok i) :
    step s = exec i u := by
  rw [step, advance, h]
  show engineStep u = _
  rw [engineStep, hd]

theorem State.engineTurn_nil {s : State} (hp : s.phase = .busy) (hi : s.inputs = []) : s.engineTurn = some s := by
  simp only [State.engineTurn, hp, hi]

theorem State.engineTurn_wait {s : State} {rest : List Move} (hp : s.phase = .busy) (hi : s.inputs = .wait :: rest) :
    s.engineTurn = some s := by
  simp only [State.engineTurn, hp, hi]

theorem State.engineTurn_engine {s : State} {rest : List Move} (hp : s.phase = .busy)
    (hi : s.inputs = .engine :: rest) : s.engineTurn = some { s with inputs := rest } := by
  simp only [State.engineTurn, hp, hi]

theorem decodeTableWord_some {nbits w : Nat} {i : Instr} (h : decodeTableWord nbits w = some i) :
    decode (tableWord nbits w) = .ok i := by
  unfold decodeTableWord at h
  split at h
  · next j hj => cases h; exact hj
  · cases h

/-- Settles O4: each of the engine's turns is the completion step of the word in `CMD`. -/
theorem stepRunsDecodedCommand : Obligations.StepRunsDecodedCommand := by
  refine ⟨fun s i hp hd _ => ⟨fun hi => ?_, fun rest hi => ?_, fun rest hi => ?_⟩, fun s nbits w i h => ?_⟩
  · exact step_of_turn (State.engineTurn_nil hp hi) hd
  · exact step_of_turn (State.engineTurn_wait hp hi) hd
  · exact step_of_turn (State.engineTurn_engine hp hi) hd
  · exact step_of_turn (u := s.accept (tableWord nbits w)) (State.engineTurn_engine rfl rfl) (decodeTableWord_some h)

/-! ## Completion -/

/-- Settles O6: `exec` answers the end state of the command, and every end state is a completion. -/
theorem everyCommandCompletes : Obligations.EveryCommandCompletes := by
  intro i s
  have hf := (endState_completed i s).frame
  refine ⟨endState i s, exec_eq i s, ?_, ?_, ?_⟩
  · rw [hf]
  · rw [hf]
  · rw [congrArg State.err hf]
    exact decide_eq_true_iff

/-! ## The block registers -/

theorem halfOfWord_wordOfHalf (h : Half) : halfOfWord (wordOfHalf h) = h := by
  obtain ⟨b0, b1, b2, b3⟩ := h
  simp only [halfOfWord, wordOfHalf, wordByte, Half.mk.injEq]
  refine ⟨BitVec.extractLsb'_append_eq_right, ?_, ?_, ?_⟩
  · rw [BitVec.extractLsb'_append_eq_of_le (by decide)]
    exact BitVec.extractLsb'_append_eq_right
  · rw [BitVec.extractLsb'_append_eq_of_le (by decide), BitVec.extractLsb'_append_eq_of_le (by decide)]
    exact BitVec.extractLsb'_append_eq_right
  · rw [BitVec.extractLsb'_append_eq_of_le (by decide), BitVec.extractLsb'_append_eq_of_le (by decide),
      BitVec.extractLsb'_append_eq_of_le (by decide)]
    exact BitVec.extractLsb'_eq_self

theorem wordOfHalf_halfOfWord (w : Word) : wordOfHalf (halfOfWord w) = w := by
  unfold wordOfHalf halfOfWord wordByte
  rw [BitVec.extractLsb'_append_extractLsb'_eq_extractLsb' (by decide),
    BitVec.extractLsb'_append_extractLsb'_eq_extractLsb' (by decide),
    BitVec.extractLsb'_append_extractLsb'_eq_extractLsb' (by decide)]
  exact BitVec.extractLsb'_eq_self

/-- Byte `k` of a word's bytes is bits `8k` to `8k + 7` (10_state.md R36). -/
theorem halfOfWord_byte (w : Word) {k : Nat} (hk : k < 4) : (halfOfWord w).byte k = w.extractLsb' (8 * k) 8 := by
  interval_cases k <;> rfl

/-- Settles O47: the two registers are the two halves of the block. -/
theorem blockRegistersHoldBytesInOrder : Obligations.BlockRegistersHoldBytesInOrder := by
  refine ⟨fun s k hk => ⟨?_, ?_⟩, fun s b => ?_, fun s => ?_⟩
  · rw [Block.byte, if_pos hk]
    exact halfOfWord_byte s.blk0 hk
  · rw [Block.byte, if_neg (by omega), Nat.add_sub_cancel_left]
    exact halfOfWord_byte s.blk1 hk
  · simp only [State.blk, State.setBlk_blk0, State.setBlk_blk1, halfOfWord_wordOfHalf]
  · simp only [State.setBlk, State.blk, wordOfHalf_halfOfWord]

/-! ## Acceptance -/

theorem word_eq_rsv_append_op (w : Word) : w = rsvField w ++ opField w := by
  rw [rsvField, opField, BitVec.extractLsb'_append_extractLsb'_eq_extractLsb' (by decide)]
  exact BitVec.extractLsb'_eq_self.symm

/-- The words that clear `OUTLEN` are those of `INFLATE` and `EXTRACT` (10_state.md R48). -/
theorem clearsOutlen_iff (w : Word) : clearsOutlen w = true ↔ w = 0x20#32 ∨ w = 0x30#32 := by
  simp only [clearsOutlen, Bool.and_eq_true, Bool.or_eq_true, beq_iff_eq]
  constructor
  · rintro ⟨hop | hop, hrsv⟩ <;> rw [word_eq_rsv_append_op w, hop, hrsv] <;> decide
  · rintro (rfl | rfl) <;> decide

/-- Settles O48: a `CMD` write is not locked while the engine is Idle. -/
theorem cmdWriteAcceptsCommand : Obligations.CmdWriteAcceptsCommand := by
  intro s w hp
  have hw : s.hostWriteReg 0x00C w = s.locked (State.accept w) := rfl
  rw [hw]
  rcases s.locked_cases (State.accept w) with ⟨hb, _⟩ | ⟨_, e⟩
  · rw [hp] at hb; cases hb
  · rw [e, State.accept]
    simp only [clearsOutlen_iff]

/-! ## Power-on -/

/-- A register is found at its own offset alone. -/
theorem regAt_some {off : Nat} {r : Reg} (h : regAt off = some r) : r.offset = off := by
  simpa using List.find?_some h

theorem State.powerOn_busy (p : Params) (m : Memory) : (State.powerOn p m).busy = false := rfl

/-- Every register but the two hardwired ones reads 0 after power-on (10_state.md R52). -/
theorem State.readReg_powerOn (p : Params) (m : Memory) {r : Reg} (hid : r ≠ .id) (hsize : r ≠ .wmsize) :
    (State.powerOn p m).readReg r = 0#32 := by
  cases r with
  | id => exact absurd rfl hid
  | wmsize => exact absurd rfl hsize
  | ctrl => simp [State.readReg, State.ctrlWord, State.powerOn, bit1]
  | status =>
    rw [State.readReg, State.statusWord, State.powerOn_busy]
    simp [State.powerOn, bit1]
  | cmd => rfl
  | src => rfl
  | dst => rfl
  | len => rfl
  | csize => rfl
  | rsize => rfl
  | type => rfl
  | outlen => rfl
  | cycle => rfl
  | blk0 => rfl
  | blk1 => rfl

theorem State.hostReadReg_powerOn (p : Params) (m : Memory) {off : Nat} (hid : off ≠ 0x000) (hsize : off ≠ 0x038) :
    (State.powerOn p m).hostReadReg off = 0#32 := by
  unfold State.hostReadReg
  split
  · rfl
  · next r hr =>
    have hoff := regAt_some hr
    refine State.readReg_powerOn p m ?_ ?_
    · rintro rfl; exact hid hoff.symm
    · rintro rfl; exact hsize hoff.symm

/-- A platform reset is taken whatever the engine does. -/
theorem step_rst {s : State} {rest : List Move} (hi : s.inputs = .rst :: rest) :
    step s = .next ({ s with inputs := rest } : State).powerOnReset := by
  have hturn : s.engineTurn = none := by
    cases hp : s.phase <;> simp only [State.engineTurn, hp, hi]
  simp only [step, advance, hturn, hi, outsideMove]

/-- Settles O54: by the registers, which are found at their own offsets alone, and the reset move. -/
theorem powerOnValues : Obligations.PowerOnValues := by
  refine ⟨fun p m => ⟨rfl, rfl, rfl, rfl, fun off hid hsize => ?_⟩, rfl, fun s rest hi => ?_⟩
  · exact State.hostReadReg_powerOn p m hid hsize
  · exact step_rst hi

/-! ## The parameters of the reset state -/

theorem powerAtLeast_pos (n fuel : Nat) {p : Nat} (hp : 0 < p) : 0 < powerAtLeast n fuel p := by
  induction fuel generalizing p with
  | zero => exact hp
  | succ fuel ih =>
    rw [powerAtLeast]
    split
    · exact hp
    · exact ih (by omega)

theorem wmemAlign_pos (size : Nat) : 0 < wmemAlign size := powerAtLeast_pos size 31 Nat.one_pos

theorem openMemBase_aligned (size regBase slot : Nat) : openMemBase size regBase slot % wmemAlign size = 0 := by
  unfold openMemBase
  split <;> exact Nat.mul_mod_right _ _

/-- The slot after the register window does not overlap it. -/
theorem openMemBase_disjoint (size regBase slot : Nat) :
    disjointWindows regBase (openMemBase size regBase slot) size = true := by
  unfold openMemBase
  split
  · assumption
  · have hlt := Nat.lt_mul_div_succ (regBase + 0x1000) (wmemAlign_pos size)
    simp only [disjointWindows, Bool.or_eq_true, decide_eq_true_eq]
    exact .inl (Nat.le_of_lt hlt)

theorem defaultDesTables_wf : defaultDesTables.wf = true := by decide

/-- The parameters of the reset state meet their constraints, whatever the free values are. -/
theorem platformParams_wf : platformParams.wf = true := by
  have hlt : Config.wmemUnits % 2 ^ 28 < 2 ^ 28 := Nat.mod_lt _ (by decide)
  simp only [Params.wf, platformParams, Bool.and_eq_true, beq_iff_eq]
  refine ⟨⟨⟨⟨⟨⟨?_, ?_⟩, ?_⟩, ?_⟩, ?_⟩, ?_⟩, ?_⟩
  · exact Nat.mul_mod_right _ _
  · exact decide_eq_true (by unfold openWmemSize; omega)
  · exact decide_eq_true (by unfold openWmemSize; omega)
  · exact Nat.mul_mod_right _ _
  · exact openMemBase_aligned _ _ _
  · exact openMemBase_disjoint _ _ _
  · exact defaultDesTables_wf

/-- Settles O59: the reset state is a power-on state with the parameters of the platform. -/
theorem resetMeetsInvariant : Obligations.ResetMeetsInvariant := ⟨State.powerOn_inv platformParams, platformParams_wf⟩

end Sys2Proof.Machine
end

section
/-! PROOFS. Noninterference (10_state.md R47): two states that agree on the registers and on the bytes of some ranges still do
after each operation of a command that reads and writes inside those ranges. -/

namespace Sys2Proof.Machine
open Sys2Proof

/-- `u` is `s` but for bytes of `WMEM` outside the ranges `rs`. -/
structure AgreeOn (rs : List Span) (s u : State) : Prop where
  frame : u = { s with wmem := u.wmem }
  bytes : ∀ a, inSpans rs a = true → u.byteAt a = s.byteAt a

/-! ## What the operations of a command keep -/

/-- An operation on the registers alone keeps the agreement: it commutes with a change of `WMEM`, and changes neither `WMEM`
nor the power-on draw. -/
theorem AgreeOn.registerOp {rs : List Span} {s u : State} (h : AgreeOn rs s u) (f : State → State)
    (hf : ∀ (s : State) (m : Memory), f { s with wmem := m } = { f s with wmem := m })
    (hm : ∀ s, (f s).wmem = s.wmem) (hp : ∀ s, (f s).powerOns = s.powerOns) : AgreeOn rs (f s) (f u) where
  frame := by
    rw [hm u, h.frame]
    exact hf s u.wmem
  bytes a ha := by
    rw [State.byteAt_congr (hm u) (hp u), State.byteAt_congr (hm s) (hp s)]
    exact h.bytes a ha

theorem AgreeOn.complete {rs : List Span} {s u : State} (h : AgreeOn rs s u) (c : Option ErrCode) :
    AgreeOn rs (s.complete c) (u.complete c) :=
  h.registerOp (State.complete c) (fun _ _ => rfl) (fun _ => rfl) fun _ => rfl

theorem AgreeOn.setBlk {rs : List Span} {s u : State} (h : AgreeOn rs s u) (b : Block) :
    AgreeOn rs (s.setBlk b) (u.setBlk b) :=
  h.registerOp (State.setBlk b) (fun _ _ => rfl) (fun _ => rfl) fun _ => rfl

theorem AgreeOn.setOutlen {rs : List Span} {s u : State} (h : AgreeOn rs s u) (v : Word) :
    AgreeOn rs { s with outlen := v } { u with outlen := v } :=
  h.registerOp (fun s => { s with outlen := v }) (fun _ _ => rfl) (fun _ => rfl) fun _ => rfl

theorem AgreeOn.setCycle {rs : List Span} {s u : State} (h : AgreeOn rs s u) : AgreeOn rs s.setCycle u.setCycle :=
  h.registerOp State.setCycle (fun _ _ => rfl) (fun _ => rfl) fun _ => rfl

theorem AgreeOn.setCycleIn {rs : List Span} {s u : State} (h : AgreeOn rs s u) (m : CipherMode) :
    AgreeOn rs (s.setCycleIn m) (u.setCycleIn m) := by
  cases m with
  | none => exact h
  | header => exact h
  | mixed => exact h.setCycle

theorem AgreeOn.memWrite {rs : List Span} {s u : State} (h : AgreeOn rs s u) (a : Nat) (bs : List Byte) :
    AgreeOn rs (s.memWrite a bs) (u.memWrite a bs) where
  frame := by rw [h.frame]; rfl
  bytes x hx := by rw [State.byteAt_memWrite, State.byteAt_memWrite, h.bytes x hx]

theorem AgreeOn.draws {rs : List Span} {s u : State} (h : AgreeOn rs s u) : u.draws = s.draws := by rw [h.frame]

theorem AgreeOn.spoil {rs : List Span} {s u : State} (h : AgreeOn rs s u) (a n : Nat) :
    AgreeOn rs (s.spoil a n) (u.spoil a n) where
  frame := by rw [h.frame]; rfl
  bytes x hx := by rw [State.byteAt_spoil, State.byteAt_spoil, h.draws, h.bytes x hx]

theorem AgreeOn.writeOutput {rs : List Span} {s u : State} (h : AgreeOn rs s u) (a : Nat) (bs : List Byte) :
    AgreeOn rs (s.writeOutput a bs) (u.writeOutput a bs) := by
  have hmark : u.hostWroteFootprint = s.hostWroteFootprint := by rw [h.frame]
  unfold State.writeOutput
  rw [hmark]
  split
  · exact h.spoil a _
  · exact h.memWrite a bs

/-! ## What a command reads -/

/-- Bytes read inside the ranges are the same. -/
theorem AgreeOn.memRead {rs : List Span} {s u : State} (h : AgreeOn rs s u) {r : Span} (hr : r ∈ rs) :
    u.memRead r.start r.count = s.memRead r.start r.count := by
  refine State.memRead_congr fun k hk => h.bytes _ ?_
  refine List.any_eq_true.2 ⟨r, hr, ?_⟩
  rw [Span.has, decide_eq_true_eq]
  omega

theorem AgreeOn.deciphered {rs : List Span} {s u : State} (h : AgreeOn rs s u) (hr : s.payloadSpan ∈ rs)
    (m : CipherMode) : u.deciphered m = s.deciphered m := by
  have hread : u.memRead s.opSrc s.lenNat = s.memRead s.opSrc s.lenNat := h.memRead hr
  rw [State.deciphered, State.deciphered, ← hread, h.frame]
  rfl

theorem AgreeOn.checkOf {rs : List Span} {s u : State} (h : AgreeOn rs s u) (i : Instr) :
    checkOf i u = checkOf i s := by
  rw [h.frame]
  cases i <;> rfl

/-! ## The execute phases -/

theorem AgreeOn.decipherInPlace {rs : List Span} {s u : State} (h : AgreeOn rs s u) (hr : s.payloadSpan ∈ rs)
    (m : CipherMode) : AgreeOn rs (s.decipherInPlace m) (u.decipherInPlace m) := by
  have hmark : u.hostWroteFootprint = s.hostWroteFootprint := by rw [h.frame]
  have hsrc : u.opSrc = s.opSrc := by rw [h.frame]
  unfold State.decipherInPlace
  rw [hmark, hsrc, h.deciphered hr]
  split
  · exact h
  · exact (h.setCycleIn m).writeOutput _ _

theorem AgreeOn.endUnspecified {rs : List Span} {s u : State} (h : AgreeOn rs s u) (ok : Bool) :
    AgreeOn rs (s.endUnspecified ok) (u.endUnspecified ok) := by
  have hregs : u.opDst = s.opDst ∧ u.rsizeNat = s.rsizeNat ∧ u.rsize = s.rsize ∧ u.outlen = s.outlen := by
    rw [h.frame]; exact ⟨rfl, rfl, rfl, rfl⟩
  obtain ⟨hdst, hcount, hrsize, houtlen⟩ := hregs
  unfold State.endUnspecified
  rw [hdst, hcount, hrsize, houtlen]
  exact ((h.spoil _ _).setOutlen _).complete _

theorem AgreeOn.placeResult {rs : List Span} {s u : State} (h : AgreeOn rs s u) (r : Option (List Byte)) :
    AgreeOn rs (s.placeResult r) (u.placeResult r) := by
  have hregs : u.hostWroteInput = s.hostWroteInput ∧ u.opDst = s.opDst ∧ u.rsize = s.rsize := by
    rw [h.frame]; exact ⟨rfl, rfl, rfl⟩
  obtain ⟨hmark, hdst, hrsize⟩ := hregs
  unfold State.placeResult
  rw [hmark, h.draws]
  split
  · exact h.endUnspecified _
  · cases r with
    | none => exact h.endUnspecified false
    | some out =>
      show AgreeOn rs ({ s.writeOutput s.opDst out with outlen := s.rsize }.complete none)
        ({ u.writeOutput u.opDst out with outlen := u.rsize }.complete none)
      rw [hdst, hrsize]
      exact ((h.writeOutput _ _).setOutlen _).complete _

/-- The execute phase of a command keeps the agreement on its own ranges. -/
theorem AgreeOn.executed {i : Instr} {s u : State} (h : AgreeOn (spansOf i s) s u) :
    AgreeOn (spansOf i s) (executed i s) (executed i u) := by
  have hmode : u.mode = s.mode := by rw [h.frame]; rfl
  have hblk : u.blk = s.blk := by rw [h.frame]; rfl
  have hparams : u.params = s.params := by rw [h.frame]
  cases i with
  | nop => exact h.complete _
  | desblk =>
    simp only [Machine.executed, hblk, hparams]
    exact (h.setBlk _).complete _
  | shufblk =>
    simp only [Machine.executed, hblk]
    exact (h.setBlk _).complete _
  | cycle => exact h.setCycle.complete _
  | dechdr => exact (h.decipherInPlace List.mem_cons_self _).complete _
  | decmix => exact (h.decipherInPlace List.mem_cons_self _).complete _
  | decipher =>
    simp only [Machine.executed, hmode]
    exact (h.decipherInPlace List.mem_cons_self _).complete _
  | inflate =>
    have hstream : u.memRead u.opSrc u.csizeNat = s.memRead s.opSrc s.csizeNat := by
      have hsrc : u.opSrc = s.opSrc := by rw [h.frame]
      have hcs : u.csizeNat = s.csizeNat := by rw [h.frame]; rfl
      rw [hsrc, hcs]
      exact h.memRead (r := s.streamSpan) List.mem_cons_self
    have hrs : u.rsizeNat = s.rsizeNat := by rw [h.frame]; rfl
    simp only [Machine.executed, hstream, hrs]
    exact h.placeResult _
  | extract =>
    have hpayload : s.payloadSpan ∈ spansOf .extract s := List.mem_cons_self
    have hsizes : u.csizeNat = s.csizeNat ∧ u.rsizeNat = s.rsizeNat := by rw [h.frame]; exact ⟨rfl, rfl⟩
    obtain ⟨hcs, hrs⟩ := hsizes
    simp only [Machine.executed, hmode, hcs, hrs, h.deciphered hpayload]
    exact (h.decipherInPlace hpayload _).placeResult _

theorem State.footprint_of_check_none {i : Instr} {s : State} (hd : decode s.cmd = .ok i) (hc : checkOf i s = none) :
    s.footprint = spansOf i s := by
  simp only [State.footprint, State.spansWhenRun, hd, hc]

/-- A command keeps the agreement on its footprint. -/
theorem AgreeOn.endState {i : Instr} {s u : State} (hd : decode s.cmd = .ok i) (h : AgreeOn s.footprint s u) :
    AgreeOn s.footprint (endState i s) (endState i u) := by
  cases hc : Machine.checkOf i s with
  | none =>
    rw [endState_ok hc, endState_ok ((h.checkOf i).trans hc)]
    rw [State.footprint_of_check_none hd hc] at h ⊢
    exact h.executed
  | some e =>
    rw [endState_error hc, endState_error ((h.checkOf i).trans hc)]
    exact h.complete _

/-- Settles O24: the two states agree on the footprint, and so do the states the command ends in. -/
theorem commandDependsOnlyOnFootprint : Obligations.CommandDependsOnlyOnFootprint := by
  intro i s u s' u' hd hframe hbytes hs hu
  have h : AgreeOn s.footprint s u := ⟨hframe, hbytes⟩
  obtain ⟨hframe', hbytes'⟩ := h.endState hd
  rw [← exec_next.1 hs, ← exec_next.1 hu] at hframe' hbytes'
  exact ⟨hframe', hbytes'⟩

end Sys2Proof.Machine
end

section
/-! PROOFS. Working memory and the host's bus: a command changes its footprint alone (20_memory.md R61, R66), exactly the
accesses of R63 and R64 are answered, and host accesses are little-endian (R67). -/

namespace Sys2Proof.Machine
open Sys2Proof

/-! ## The bytes outside a footprint -/

theorem inSpans_cons_eq_false {r : Span} {rs : List Span} {a : Nat} :
    inSpans (r :: rs) a = false ↔ ¬ (r.start ≤ a ∧ a < r.start + r.count) ∧ inSpans rs a = false := by
  rw [inSpans, List.any_cons, Bool.or_eq_false_iff, Span.has, decide_eq_false_iff_not, ← inSpans]

/-- Completion writes status registers alone. -/
theorem State.byteAt_complete (c : Option ErrCode) (s : State) (x : Nat) : (s.complete c).byteAt x = s.byteAt x := rfl

/-- A byte after the end of a failed or disturbed command: the old one outside the output range. -/
theorem State.byteAt_endUnspecified_outside (ok : Bool) (s : State) {x : Nat}
    (h : ¬ (s.opDst ≤ x ∧ x < s.opDst + s.rsizeNat)) : (s.endUnspecified ok).byteAt x = s.byteAt x := by
  show (s.spoil s.opDst s.rsizeNat).byteAt x = s.byteAt x
  rw [State.byteAt_spoil, if_neg h]

/-- A byte after a result of `RSIZE` bytes was placed: the old one outside the output range. -/
theorem State.byteAt_placeResult_outside {r : Option (List Byte)} {s : State} {x : Nat}
    (hr : ∀ out, r = some out → out.length = s.rsizeNat) (h : ¬ (s.opDst ≤ x ∧ x < s.opDst + s.rsizeNat)) :
    (s.placeResult r).byteAt x = s.byteAt x := by
  rcases s.placeResult_cases r with ⟨_, e⟩ | ⟨_, _, e⟩ | ⟨out, _, hout, e⟩ <;> rw [e]
  · exact s.byteAt_endUnspecified_outside _ h
  · exact s.byteAt_endUnspecified_outside _ h
  · exact s.byteAt_writeOutput_outside s.opDst out x (by rw [hr out hout]; exact h)

theorem State.decipherInPlace_rsizeNat (m : CipherMode) (s : State) :
    (s.decipherInPlace m).rsizeNat = s.rsizeNat := by
  rw [State.rsizeNat, State.opRsize, State.decipherInPlace_rsize, ← State.opRsize, ← State.rsizeNat]

/-- What `EXTRACT` places is `RSIZE` bytes long, since its checks leave no stored entry longer than its payload
(42_extract.md R170). -/
theorem extractResult_deciphered_length {s : State} (hc : checkExtract s = none) {out : List Byte}
    (h : extractResult s.csizeNat s.rsizeNat (s.deciphered s.mode) = some out) : out.length = s.rsizeNat := by
  obtain ⟨_, _, _, _, hcl, _⟩ := checkExtract_none.1 hc
  refine extractResult_length ?_ h
  rw [State.deciphered_length]
  exact Int.toNat_le_toNat hcl

/-- The execute phase of a command changes no byte outside the command's ranges. -/
theorem byteAt_executed_outside {i : Instr} {s : State} (hc : checkOf i s = none) {x : Nat}
    (hx : inSpans (spansOf i s) x = false) : (executed i s).byteAt x = s.byteAt x := by
  cases i with
  | nop => rfl
  | desblk => rfl
  | shufblk => rfl
  | cycle => rfl
  | dechdr => exact s.byteAt_decipherInPlace_outside _ x (inSpans_cons_eq_false.1 hx).1
  | decmix => exact s.byteAt_decipherInPlace_outside _ x (inSpans_cons_eq_false.1 hx).1
  | decipher => exact s.byteAt_decipherInPlace_outside _ x (inSpans_cons_eq_false.1 hx).1
  | inflate =>
    obtain ⟨_, hrest⟩ := inSpans_cons_eq_false.1 hx
    obtain ⟨hresult, _⟩ := inSpans_cons_eq_false.1 hrest
    exact State.byteAt_placeResult_outside (fun _ hout => zinflateWithin_length hout) hresult
  | extract =>
    obtain ⟨hpayload, hrest⟩ := inSpans_cons_eq_false.1 hx
    obtain ⟨hresult, _⟩ := inSpans_cons_eq_false.1 hrest
    have hplace : (executed .extract s).byteAt x = (s.decipherInPlace s.mode).byteAt x := by
      refine State.byteAt_placeResult_outside (fun _ hout => ?_) ?_
      · rw [State.decipherInPlace_rsizeNat]
        exact extractResult_deciphered_length hc hout
      · rw [State.decipherInPlace_rsizeNat, State.opDst, State.decipherInPlace_dst]
        exact hresult
    rw [hplace]
    exact s.byteAt_decipherInPlace_outside _ x hpayload

/-- Settles O22: a failing check writes nothing, and the footprint of a command whose checks pass holds every byte its execute
phase writes. -/
theorem commandChangesOnlyItsFootprint : Obligations.CommandChangesOnlyItsFootprint := by
  intro i s t hd ht a ha
  rw [exec_next.1 ht]
  cases hc : checkOf i s with
  | none =>
    rw [State.footprint_of_check_none hd hc] at ha
    rw [endState_ok hc]
    exact byteAt_executed_outside hc ha
  | some e => rw [endState_error hc, State.byteAt_complete]

/-! ## The accesses that are answered -/

theorem windowError_reg_eq_none_iff {p : Params} {off width : Nat} :
    windowError p .reg off width = none ↔ legalRegAccess off width := by
  rw [windowError, legalRegAccess]
  split_ifs with hoff hwidth halign
  · exact iff_of_false nofun fun ⟨hlt, _, _⟩ => by omega
  · exact iff_of_false nofun fun ⟨_, hfour, _⟩ => hwidth hfour
  · exact iff_of_false nofun fun ⟨_, _, haligned⟩ => halign haligned
  · exact iff_of_true rfl (by omega)

theorem windowError_mem_eq_none_iff {p : Params} {off width : Nat} :
    windowError p .mem off width = none ↔ legalMemAccess p off width := by
  rw [windowError, legalMemAccess]
  split_ifs with hwidth halign hrange
  · exact iff_of_false nofun fun ⟨hallowed, _, _⟩ => by omega
  · exact iff_of_false nofun fun ⟨_, haligned, _⟩ => halign haligned
  · exact iff_of_false nofun fun ⟨_, _, hinside⟩ => by omega
  · exact iff_of_true rfl ⟨by omega, not_not.1 halign, by omega⟩

/-- An access the rules allow is one that resolves to a window and has no error there (20_memory.md R63, R64, R69). -/
theorem legalAccess_iff {p : Params} {op : BusOp} :
    legalAccess p op ↔
      ∃ w off, resolve p op.target = some (w, off) ∧ windowError p w off op.width = none := by
  obtain ⟨target, width, dir⟩ := op
  cases target with
  | reg off => simp [legalAccess, resolve, windowError_reg_eq_none_iff]
  | mem off => simp [legalAccess, resolve, windowError_mem_eq_none_iff]
  | addr a =>
    simp only [legalAccess, resolve, ← and_assoc]
    by_cases hreg : p.regBase ≤ a ∧ a < p.regBase + 0x1000
    · simp [hreg, windowError_reg_eq_none_iff]
    · by_cases hmem : p.memBase ≤ a ∧ a < p.memBase + p.wmemSize
      · simp [hreg, hmem, windowError_mem_eq_none_iff]
      · simp [hreg, hmem]

theorem State.hostAccess_of_window {s : State} {op : BusOp} {w : Window} {off : Nat}
    (hr : resolve s.params op.target = some (w, off)) (he : windowError s.params w off op.width = none) :
    s.hostAccess op = .next (s.windowAccess w off op.width op.dir) := by
  simp only [State.hostAccess, hr, he]

/-- A host access is answered exactly where the rules allow it. -/
theorem State.hostAccess_next_iff_legal {s : State} {op : BusOp} :
    (∃ t, s.hostAccess op = .next t) ↔ legalAccess s.params op := by
  rw [legalAccess_iff]
  constructor
  · rintro ⟨t, ht⟩
    obtain ⟨w, off, hr, he, _⟩ := State.hostAccess_next ht
    exact ⟨w, off, hr, he⟩
  · rintro ⟨w, off, hr, he⟩
    exact ⟨_, State.hostAccess_of_window hr he⟩

/-- Settles O56: an access is answered exactly where it is legal, else it is a bus error, and a step has no other fault. -/
theorem busErrorsExactlyOnIllegalAccesses : Obligations.BusErrorsExactlyOnIllegalAccesses := by
  refine ⟨fun s op h => State.hostAccess_next_iff_legal.2 h, fun s op h => ?_, fun s f h => ?_⟩
  · exact (s.hostAccess_cases op).resolve_left fun hnext => h (State.hostAccess_next_iff_legal.1 hnext)
  · obtain ⟨e, op, l, hf, hi, herr⟩ := step_fault h
    refine ⟨e, op, l, hf, hi, fun hlegal => ?_⟩
    obtain ⟨t, hnext⟩ := State.hostAccess_next_iff_legal (s := { s with inputs := l }).2 hlegal
    rw [herr] at hnext
    cases hnext

/-! ## Byte order -/

theorem leNat_append (xs ys : List Byte) : leNat (xs ++ ys) = leNat xs + 2 ^ (8 * xs.length) * leNat ys := by
  induction xs with
  | nil => simp [leNat]
  | cons x xs ih =>
    rw [List.cons_append, leNat, ih, leNat, List.length_cons, Nat.mul_succ, Nat.pow_add]
    ring

/-- The low `n` bytes of a word are its value modulo `2 ^ (8 * n)` (20_memory.md R67). -/
theorem leNat_leBytes (n : Nat) (w : Word) : leNat (leBytes n w) = w.toNat % 2 ^ (8 * n) := by
  induction n with
  | zero => simp [leBytes, leNat, Nat.mod_one]
  | succ n ih =>
    have hsucc : leBytes (n + 1) w = leBytes n w ++ [wordByte w n] := by simp [leBytes, List.range_succ]
    have hbyte : leNat [wordByte w n] = w.toNat / 2 ^ (8 * n) % 2 ^ 8 := by
      simp [leNat, wordByte, Nat.shiftRight_eq_div_pow]
    rw [hsucc, leNat_append, leBytes_length, ih, hbyte, Nat.mul_succ, Nat.pow_add, Nat.mod_mul]

theorem leBytes_getD {n k : Nat} (h : k < n) (w : Word) : (leBytes n w).getD k 0#8 = w.extractLsb' (8 * k) 8 := by
  simp [leBytes, wordByte, h]

/-! ## Accesses with the engine Idle -/

@[simp] theorem State.byteAt_answer (r : BusResponse) (s : State) (x : Nat) : (s.answer r).byteAt x = s.byteAt x := rfl

@[simp] theorem State.memRead_answer (r : BusResponse) (s : State) (a n : Nat) :
    (s.answer r).memRead a n = s.memRead a n := rfl

theorem State.hostAccess_mem {s : State} {a n : Nat} (h : legalMemAccess s.params a n) (d : BusDir) :
    s.hostAccess ⟨.mem a, n, d⟩ = .next (s.windowAccess .mem a n d) :=
  State.hostAccess_of_window rfl (windowError_mem_eq_none_iff.2 h)

/-- With the engine Idle no byte is a hazard, so a host read returns the bytes themselves. -/
theorem State.hostReadMem_idle {s : State} (h : s.phase = .idle) (a n : Nat) :
    s.hostReadMem a n = BitVec.ofNat 32 (leNat (s.memRead a n)) := by
  simp [State.hostReadMem, State.hostByte, State.hazardAt, State.busy, State.memRead, h]

theorem State.afterRead_idle {s : State} (h : s.phase = .idle) : s.afterRead = s := by
  simp [State.afterRead, State.busy, h]

theorem State.hostAccess_mem_write_idle {s : State} (hp : s.phase = .idle) {a n : Nat}
    (h : legalMemAccess s.params a n) (v : Word) :
    s.hostAccess ⟨.mem a, n, .write v⟩ = .next ((s.memWrite a (leBytes n v)).answer .written) := by
  rw [State.hostAccess_mem h, State.windowAccess, State.hostWriteMem_idle hp]

theorem State.hostAccess_mem_read_idle {s : State} (hp : s.phase = .idle) {a n : Nat}
    (h : legalMemAccess s.params a n) :
    s.hostAccess ⟨.mem a, n, .read⟩ = .next (s.answer (.data (BitVec.ofNat 32 (leNat (s.memRead a n))))) := by
  rw [State.hostAccess_mem h, State.windowAccess, State.afterRead_idle hp, State.hostReadMem_idle hp]

/-- Settles O55: with the engine Idle a host write is a plain write of the value's low bytes, and a host read their number. -/
theorem hostMemoryIsLittleEndian : Obligations.HostMemoryIsLittleEndian := by
  intro s a n v hp hn ha hin
  have hlegal : legalMemAccess s.params a n := ⟨hn, ha, hin⟩
  have hbyte (x : Nat) : (s.memWrite a (leBytes n v)).byteAt x =
      if a ≤ x ∧ x < a + n then (leBytes n v).getD (x - a) 0#8 else s.byteAt x := by
    rw [State.byteAt_memWrite, leBytes_length]
  have hread : (s.memWrite a (leBytes n v)).memRead a n = leBytes n v := by
    simpa using s.memRead_memWrite a (leBytes n v)
  refine ⟨_, State.hostAccess_mem_write_idle hp hlegal v, rfl, fun k hk => ?_, fun x hx => ?_, ?_⟩
  · rw [State.byteAt_answer, hbyte, if_pos (by omega), Nat.add_sub_cancel_left, leBytes_getD hk]
  · rw [State.byteAt_answer, hbyte, if_neg hx]
  · refine (State.hostAccess_mem_read_idle (s := (s.memWrite a (leBytes n v)).answer .written) hp hlegal).trans ?_
    rw [State.memRead_answer, hread, leNat_leBytes]
    rfl

end Sys2Proof.Machine
end

section
/-! PROOFS. The encoding: the decoder inverts the encoder (30_encoding.md R90 to R93), an illegal word completes with an error
(R94), `TYPE` (R96), and the bus writes of `wrm` (R101). -/

namespace Sys2Proof.Machine
open Sys2Proof

/-! ## The decoder and the encoder -/

theorem decode_of_rsvField_eq {w : Word} (h : rsvField w = 0#24) : decode w = decodeOp (opField w) := if_neg (not_not.2 h)

theorem decode_of_rsvField_ne {w : Word} (h : rsvField w ≠ 0#24) : decode w = .error .reservedBits := if_pos h

/-- Each command has one opcode in the map of 30_encoding.md R92. -/
theorem opcode_of_decodeOp {op : BitVec 8} {i : Instr} (h : decodeOp op = .ok i) : op = opcode i := by
  unfold decodeOp at h
  split_ifs at h <;> cases h <;> assumption

theorem decode_encode (i : Instr) : decode (encode i) = .ok i := by
  cases i with
  | nop => exact Laws.Roundtrip.nop.2.1
  | desblk => exact Laws.Roundtrip.desblk.2.1
  | shufblk => exact Laws.Roundtrip.shufblk.2.1
  | cycle => exact Laws.Roundtrip.cycle.2.1
  | dechdr => exact Laws.Roundtrip.dechdr.2.1
  | decmix => exact Laws.Roundtrip.decmix.2.1
  | decipher => exact Laws.Roundtrip.decipher.2.1
  | inflate => exact Laws.Roundtrip.inflate.2.1
  | extract => exact Laws.Roundtrip.extract.2.1

/-- A word is its two fields, and a decoded word has none but the opcode. -/
theorem decode_eq_ok_iff {w : Word} {i : Instr} : decode w = .ok i ↔ w = encode i := by
  constructor
  · intro h
    by_cases hrsv : rsvField w = 0#24
    · rw [decode_of_rsvField_eq hrsv] at h
      rw [word_eq_rsv_append_op w, hrsv, opcode_of_decodeOp h, encode]
    · rw [decode_of_rsvField_ne hrsv] at h
      cases h
  · rintro rfl
    exact decode_encode i

/-- Settles O2: by the two fields of a word and the opcode map. -/
theorem decodeInvertsEncode : Obligations.DecodeInvertsEncode := fun _ _ _ => decode_eq_ok_iff

theorem decode_eq_error_iff {w : Word} : (∃ e, decode w = .error e) ↔ ¬ ∃ i, w = encode i := by
  simp only [← decode_eq_ok_iff]
  cases decode w <;> simp

/-- The nine commands, written out. -/
theorem exists_instr_iff {p : Instr → Prop} :
    (∃ i, p i) ↔ p .nop ∨ p .desblk ∨ p .shufblk ∨ p .cycle ∨ p .dechdr ∨ p .decmix ∨ p .decipher ∨ p .inflate ∨
      p .extract := by
  constructor
  · rintro ⟨i, h⟩
    cases i <;> simp only [h, true_or, or_true]
  · rintro (h | h | h | h | h | h | h | h | h) <;> exact ⟨_, h⟩

/-- Settles O1: a word decodes to a command exactly when it is the command's word, and is illegal when it is none of them. -/
theorem decodeMapsExactlyNineWords : Obligations.DecodeMapsExactlyNineWords := fun _ =>
  ⟨decode_eq_ok_iff, decode_eq_ok_iff, decode_eq_ok_iff, decode_eq_ok_iff, decode_eq_ok_iff, decode_eq_ok_iff,
    decode_eq_ok_iff, decode_eq_ok_iff, decode_eq_ok_iff, decode_eq_error_iff.trans (not_congr exists_instr_iff)⟩

/-- Settles O3: five words of commands, one with a reserved bit set, and one with an opcode that is not in the map. -/
theorem sampleWordsDecode : Obligations.SampleWordsDecode := by
  refine ⟨decode_encode .nop, decode_encode .shufblk, decode_encode .decipher, decode_encode .inflate,
    decode_encode .extract, decode_of_rsvField_ne (by decide), ?_⟩
  rw [decode_of_rsvField_eq (by decide)]
  rfl

/-! ## Illegal words -/

theorem clearsOutlen_of_illegal {w : Word} {e : DecodeError} (h : decode w = .error e) : clearsOutlen w = false := by
  by_contra hc
  refine decode_eq_error_iff.1 ⟨e, h⟩ ?_
  rcases (clearsOutlen_iff w).1 (Bool.not_eq_false _ ▸ hc) with rfl | rfl
  · exact ⟨.inflate, rfl⟩
  · exact ⟨.extract, rfl⟩

/-- Acceptance and completion of an illegal word: `CMD` and the status, and nothing else (30_encoding.md R94). -/
theorem State.raiseError_accept_illegal {w : Word} {e : DecodeError} (h : decode w = .error e) (s : State) :
    (s.accept w).raiseError .illegalCmd = { s with cmd := w }.afterCompletion 0x01#8 := by
  rw [State.accept, clearsOutlen_of_illegal h]
  rfl

theorem step_of_illegal_turn {s u : State} {e : DecodeError} (h : s.engineTurn = some u)
    (hd : decode u.cmd = .error e) : step s = .next (u.raiseError .illegalCmd) := by
  rw [step, advance, h]
  show engineStep u = _
  rw [engineStep, hd]
  rfl

theorem State.hostWriteReg_cmd_idle {s : State} (h : s.phase = .idle) (w : Word) :
    s.hostWriteReg 0x00C w = s.accept w := by
  rw [cmdWriteAcceptsCommand s w h, State.accept]
  simp only [clearsOutlen_iff]

/-- Settles O5: an Idle engine accepts the word, and each of its turns raises the error. -/
theorem illegalWordCompletesWithError : Obligations.IllegalWordCompletesWithError := by
  intro s w e hp hd
  rw [State.hostWriteReg_cmd_idle hp]
  refine ⟨rfl, fun hi => ?_, fun rest hi => ?_, fun rest hi => ?_⟩
  · have hturn := State.engineTurn_nil (s := s.accept w) rfl hi
    rw [step_of_illegal_turn hturn hd, State.raiseError_accept_illegal hd]
  · have hturn := State.engineTurn_wait (s := s.accept w) rfl hi
    rw [step_of_illegal_turn hturn hd, State.raiseError_accept_illegal hd]
  · have hturn := State.engineTurn_engine (s := s.accept w) rfl hi
    rw [step_of_illegal_turn hturn hd]
    exact congrArg _ (State.raiseError_accept_illegal hd { s with inputs := rest })

/-! ## The pseudo-instruction `wrm` -/

/-- A list of moves that an Idle engine runs to the end, with the bytes `bs` stored from offset `a` on and no other changed. -/
def PlacesBytes (ms : List Move) (a : Nat) (bs : List Byte) : Prop :=
  ∀ (s : State) (rest : List Move), s.phase = .idle → a + bs.length ≤ s.params.wmemSize → s.inputs = ms ++ rest →
    ∃ t : State, Host.Core.run core ms.length s = .next t ∧ t.inputs = rest ∧ t.phase = .idle ∧
      ∀ x, t.byteAt x = s.storedByte a bs x

theorem State.storedByte_nil (s : State) (a x : Nat) : s.storedByte a [] x = s.byteAt x := by
  rw [State.storedByte, if_neg]
  simp

/-- Storing one run of bytes and then the next is storing both as one run. -/
theorem State.storedByte_append {s u : State} {a : Nat} {bs : List Byte}
    (h : ∀ x, u.byteAt x = s.storedByte a bs x) (cs : List Byte) (x : Nat) :
    u.storedByte (a + bs.length) cs x = s.storedByte a (bs ++ cs) x := by
  simp only [State.storedByte, h, List.length_append]
  by_cases hlo : a ≤ x
  · obtain ⟨k, rfl⟩ := Nat.exists_eq_add_of_le hlo
    by_cases hk : k < bs.length
    · rw [if_neg (by omega), if_pos (by omega), if_pos (by omega), Nat.add_sub_cancel_left,
        List.getD_append _ _ _ _ hk]
    · rw [if_neg (c := a ≤ a + k ∧ a + k < a + bs.length) (by omega), Nat.add_sub_cancel_left, Nat.add_sub_add_left,
        List.getD_append_right _ _ _ _ (by omega)]
      exact if_congr (by omega) rfl rfl
  · rw [if_neg (by omega), if_neg (by omega), if_neg (by omega)]

theorem step_of_idle {s : State} {m : Move} {l : List Move} (hp : s.phase = .idle) (hi : s.inputs = m :: l) :
    step s = outsideMove m { s with inputs := l } := by
  have hturn : s.engineTurn = none := by simp only [State.engineTurn, hp]
  simp only [step, advance, hturn, hi]

/-- A store of the host, with the engine Idle, stores the value's low bytes. -/
theorem step_storeMem_idle {s : State} {n a : Nat} {v : Word} {l : List Move} (hp : s.phase = .idle)
    (hi : s.inputs = storeMem n a v :: l) (h : legalMemAccess s.params a n) :
    ∃ u : State, step s = .next u ∧ u.inputs = l ∧ u.phase = .idle ∧ u.params = s.params ∧
      ∀ x, u.byteAt x = s.storedByte a (leBytes n v) x := by
  have hstep : step s = .next ((State.memWrite { s with inputs := l } a (leBytes n v)).answer .written) := by
    rw [step_of_idle hp hi]
    exact State.hostAccess_mem_write_idle (s := { s with inputs := l }) hp h v
  exact ⟨_, hstep, rfl, hp, rfl, State.byteAt_memWrite _ a (leBytes n v)⟩

theorem PlacesBytes.nil (a : Nat) : PlacesBytes [] a [] := fun s _ hp _ hi =>
  ⟨s, run_zero s, hi, hp, fun x => (s.storedByte_nil a x).symm⟩

/-- An aligned store before a list of moves that places the bytes after it. -/
theorem PlacesBytes.store {ms : List Move} {a n : Nat} {bs : List Byte} (hn : n = 1 ∨ n = 2 ∨ n = 4) (ha : a % n = 0)
    (v : Word) (h : PlacesBytes ms (a + n) bs) : PlacesBytes (storeMem n a v :: ms) a (leBytes n v ++ bs) := by
  intro s rest hp hin hi
  rw [List.length_append, leBytes_length] at hin
  obtain ⟨u, hstep, hu, hidle, hparams, hstored⟩ := step_storeMem_idle hp hi ⟨hn, ha, by omega⟩
  obtain ⟨t, hrun, hrest, hidle', hbytes⟩ := h u rest hidle (by rw [hparams, Nat.add_assoc]; exact hin) hu
  refine ⟨t, (run_succ hstep _).trans hrun, hrest, hidle', fun x => ?_⟩
  rw [hbytes, ← State.storedByte_append hstored, leBytes_length]

/-- The bytes of a word store are those the word was made of. -/
theorem leBytes_wordOfHalf (h : Half) : leBytes 4 (wordOfHalf h) = h.bytes := by
  show (halfOfWord (wordOfHalf h)).bytes = h.bytes
  rw [halfOfWord_wordOfHalf]

theorem leBytes_setWidth (b : Byte) : leBytes 1 (b.setWidth 32) = [b] := by
  have hlow : wordByte (b.setWidth 32) 0 = b := by
    rw [wordByte, ← BitVec.setWidth_eq_extractLsb' (by decide), BitVec.setWidth_setWidth_of_le _ (by decide),
      BitVec.setWidth_eq]
  simp [leBytes, hlow]

/-- Each move of `wrm` is an aligned store of the next four bytes or of the next byte (30_encoding.md R101). -/
theorem wrm_placesBytes (a : Nat) (bs : List Byte) : PlacesBytes (wrm a bs) a bs := by
  fun_induction wrm a bs with
  | case1 a b0 b1 b2 b3 rest haligned ih =>
    have h := ih.store (.inr (.inr rfl)) haligned (wordOfHalf ⟨b0, b1, b2, b3⟩)
    rwa [leBytes_wordOfHalf] at h
  | case2 a b0 b1 b2 b3 rest _ ih =>
    have h := ih.store (.inl rfl) (Nat.mod_one a) (b0.setWidth 32)
    rwa [leBytes_setWidth] at h
  | case3 a b rest _ ih =>
    have h := ih.store (.inl rfl) (Nat.mod_one a) (b.setWidth 32)
    rwa [leBytes_setWidth] at h
  | case4 a => exact .nil a

/-- Settles O57: the bytes stored are the run itself inside its range, and the old bytes outside. -/
theorem wrmPlacesItsBytes : Obligations.WrmPlacesItsBytes := by
  intro bs a s rest hp hin hi
  obtain ⟨t, hrun, hrest, hidle, hbytes⟩ := wrm_placesBytes a bs s rest hp hin hi
  refine ⟨t, hrun, hrest, hidle, (t.memRead_eq_iff a bs).2 fun k hk => ?_, fun x hx => ?_⟩
  · rw [hbytes, State.storedByte, if_pos (by omega), Nat.add_sub_cancel_left, List.getD_eq_getElem _ _ hk]
  · rw [hbytes, State.storedByte, if_neg hx]

/-! ## `TYPE` -/

/-- The state with another `TYPE`. -/
def State.withTyp (v : Byte) (s : State) : State := { s with typ := v }

theorem State.writeOutput_withTyp (v : Byte) (a : Nat) (bs : List Byte) (s : State) :
    (s.withTyp v).writeOutput a bs = (s.writeOutput a bs).withTyp v := by
  unfold State.writeOutput
  rw [apply_ite (State.withTyp v)]
  rfl

theorem State.setCycleIn_withTyp (v : Byte) (m : CipherMode) (s : State) :
    (s.withTyp v).setCycleIn m = (s.setCycleIn m).withTyp v := by
  cases m <;> rfl

/-- Deciphering in a mode that is given does not read `TYPE`. -/
theorem State.decipherInPlace_withTyp (v : Byte) (m : CipherMode) (s : State) :
    (s.withTyp v).decipherInPlace m = (s.decipherInPlace m).withTyp v := by
  unfold State.decipherInPlace
  rw [apply_ite (State.withTyp v), State.setCycleIn_withTyp, State.writeOutput_withTyp]
  rfl

theorem State.placeResult_withTyp (v : Byte) (r : Option (List Byte)) (s : State) :
    (s.withTyp v).placeResult r = (s.placeResult r).withTyp v := by
  unfold State.placeResult
  rw [apply_ite (State.withTyp v)]
  cases r with
  | none => rfl
  | some out =>
    have hw := State.writeOutput_withTyp v s.opDst out s
    exact if_congr Iff.rfl rfl (congrArg (fun u => { u with outlen := s.rsize }.finish) hw)

theorem checkOf_withTyp {i : Instr} (hd : i ≠ .decipher) (he : i ≠ .extract) (v : Byte) (s : State) :
    checkOf i (s.withTyp v) = checkOf i s := by
  cases i with
  | decipher => exact absurd rfl hd
  | extract => exact absurd rfl he
  | nop | desblk | shufblk | cycle | dechdr | decmix | inflate => rfl

theorem executed_withTyp {i : Instr} (hd : i ≠ .decipher) (he : i ≠ .extract) (v : Byte) (s : State) :
    executed i (s.withTyp v) = (executed i s).withTyp v := by
  cases i with
  | decipher => exact absurd rfl hd
  | extract => exact absurd rfl he
  | nop | desblk | shufblk | cycle => rfl
  | dechdr => exact congrArg State.finish (s.decipherInPlace_withTyp v .header)
  | decmix => exact congrArg State.finish (s.decipherInPlace_withTyp v .mixed)
  | inflate => exact State.placeResult_withTyp v _ s

/-- No command but `DECIPHER` and `EXTRACT` reads `TYPE` (30_encoding.md R96). -/
theorem endState_withTyp {i : Instr} (hd : i ≠ .decipher) (he : i ≠ .extract) (v : Byte) (s : State) :
    endState i (s.withTyp v) = (endState i s).withTyp v := by
  have hcheck := checkOf_withTyp hd he v s
  cases hc : checkOf i s with
  | none => rw [endState_ok hc, endState_ok (hcheck.trans hc), executed_withTyp hd he]
  | some e =>
    rw [endState_error hc, endState_error (hcheck.trans hc)]
    rfl

/-- Settles O38: the mode is the one a state with that `TYPE` selects, and the end state of every other command keeps `TYPE` as
it was. -/
theorem typeSelectsMode : Obligations.TypeSelectsMode := by
  refine ⟨fun t => ?_, fun i s t v hd he ht => ?_⟩
  · let s : State := State.reset.withTyp t
    exact ⟨(State.mode_mixed (s := s)).2, fun h1 h2 => (State.mode_header (s := s)).2 ⟨h1, h2⟩,
      fun h1 h2 => (State.mode_none (s := s)).2 ⟨h1, h2⟩⟩
  · rw [exec_next] at ht ⊢
    rw [ht]
    exact (endState_withTyp hd he v s).symm

end Sys2Proof.Machine
end

section
/-! PROOFS. The block function (40_des_block.md): `PERM64` moves bits by its table, `IP` and `FP` undo each other, a round
without swap is its own inverse, and so is `DESDEC`; then the command `DESBLK`. -/

namespace Sys2Proof.Machine
open Sys2Proof

/-! ## `PERM64` -/

/-- The mask form of a bit and its MSB-first number agree (00_scope.md R13), off the block too, where both read 0. -/
theorem msbBit_eq_bit (b : Block) (k : Nat) : msbBit b k = b.bit maskTable k := by
  have hbyte : ∀ (x : Byte) (r : Fin 8), x.getLsbD (7 - r) = (x &&& maskAt maskTable r != 0#8) := by decide
  have hmod : k &&& 7 = k % 8 := Nat.and_two_pow_sub_one_eq_mod k 3
  rw [msbBit, Block.bit, hmod, Nat.shiftRight_eq_div_pow]
  exact hbyte (b.byte (k / 8)) ⟨k % 8, Nat.mod_lt k (by decide)⟩

theorem perm64_bit (t : List Nat) (b : Block) {i : Nat} (hi : i < 64) :
    (perm64 maskTable t b).bit maskTable i = b.bit maskTable (sourceBit t i) :=
  blockOfBits_bit _ hi

/-- There are finitely many blocks: the 64 bits of a block tell it apart from any other. -/
theorem finite_block : Finite Block :=
  Finite.of_injective (fun (b : Block) (k : Fin 64) => b.bit maskTable k) fun _ _ h =>
    block_ext fun k hk => congrFun h ⟨k, hk⟩

/-- Every bit is the source of some output bit under a permutation table. -/
theorem exists_sourceBit_eq {n : Nat} {t : List Nat} (ht : isPermTable n t = true) {k : Nat} (hk : k < n) :
    ∃ i, i < n ∧ sourceBit t i = k := by
  simp only [isPermTable, Bool.and_eq_true, beq_iff_eq, List.all_eq_true, List.mem_range, List.contains_iff_mem] at ht
  obtain ⟨hlen, hall⟩ := ht
  obtain ⟨i, hi, hget⟩ := List.getElem_of_mem (hall k hk)
  refine ⟨i, hlen ▸ hi, ?_⟩
  rw [sourceBit, List.getD_eq_getElem _ _ hi, hget, Nat.add_sub_cancel]

theorem perm64_injective {t : List Nat} (ht : isPermTable 64 t = true) : Function.Injective (perm64 maskTable t) := by
  intro b c h
  refine block_ext fun k hk => ?_
  obtain ⟨i, hi, rfl⟩ := exists_sourceBit_eq ht hk
  rw [← perm64_bit t b hi, ← perm64_bit t c hi, h]

/-- Settles O28: the bits by assembly of the block from them; an injection of the finitely many blocks is a bijection. -/
theorem perm64MovesBits : Obligations.Perm64MovesBits := by
  refine ⟨fun m t b i hm hi => ?_, fun m t hm ht => ?_, rfl⟩
  · rw [isMaskTable_iff.1 hm, msbBit_eq_bit, msbBit_eq_bit]
    exact perm64_bit t b hi
  · have := finite_block
    rw [isMaskTable_iff.1 hm]
    exact Finite.injective_iff_bijective.1 (perm64_injective ht)

/-! ## `IP` and `FP` undo each other -/

/-- What `DESDEC` needs of well-formed tables (40_des_block.md R111 to R113). -/
theorem DesTables.of_wf {t : DesTables} (h : t.wf = true) :
    isPermTable 64 t.ip = true ∧ isPermTable 64 t.fp = true ∧ inverseTables t.ip t.fp = true ∧ t.mask = maskTable := by
  simp only [DesTables.wf, Bool.and_eq_true, isMaskTable_iff] at h
  obtain ⟨⟨⟨⟨⟨⟨hip, hfp⟩, _⟩, hinv⟩, _⟩, _⟩, hmask⟩ := h
  exact ⟨hip, hfp, hinv, hmask⟩

/-- Output bit `i` of `FP` comes from a bit of the block, which `IP` took from bit `i`. -/
theorem sourceBit_of_inverseTables {ip fp : List Nat} (hip : isPermTable 64 ip = true)
    (h : inverseTables ip fp = true) {i : Nat} (hi : i < 64) :
    sourceBit fp i < 64 ∧ sourceBit ip (sourceBit fp i) = i := by
  simp only [inverseTables, List.all_eq_true, List.mem_range, beq_iff_eq] at h
  simp only [isPermTable, Bool.and_eq_true, beq_iff_eq] at hip
  have hentry : ip.getD (sourceBit fp i) 0 = i + 1 := h i hi
  refine ⟨?_, by rw [sourceBit, hentry, Nat.add_sub_cancel]⟩
  by_contra hge
  rw [List.getD_eq_default _ _ (by omega)] at hentry
  exact absurd hentry (by omega)

theorem perm64_fp_perm64_ip {t : DesTables} (h : t.wf = true) (b : Block) :
    perm64 t.mask t.fp (perm64 t.mask t.ip b) = b := by
  obtain ⟨hip, _, hinv, hmask⟩ := DesTables.of_wf h
  rw [hmask]
  refine block_ext fun k hk => ?_
  obtain ⟨hlt, hback⟩ := sourceBit_of_inverseTables hip hinv hk
  rw [perm64_bit _ _ hk, perm64_bit _ _ hlt, hback]

/-- A left inverse of a permutation of blocks that is injective itself is a right inverse too. -/
theorem perm64_ip_perm64_fp {t : DesTables} (h : t.wf = true) (b : Block) :
    perm64 t.mask t.ip (perm64 t.mask t.fp b) = b := by
  have hleft : Function.LeftInverse (perm64 t.mask t.fp) (perm64 t.mask t.ip) := perm64_fp_perm64_ip h
  obtain ⟨_, hfp, _, hmask⟩ := DesTables.of_wf h
  exact hleft.rightInverse_of_injective (hmask ▸ perm64_injective hfp) b

/-! ## The round and `DESDEC` -/

theorem xorHalf_comm (x y : Half) : xorHalf x y = xorHalf y x := by
  simp only [xorHalf, BitVec.xor_comm]

theorem xorHalf_cancel_right (x y : Half) : xorHalf (xorHalf x y) y = x := by
  simp only [xorHalf, BitVec.xor_assoc, BitVec.xor_self, BitVec.xor_zero]

/-- The same right half gives the same round output, which the second XOR takes away. -/
theorem feistel_feistel (t : DesTables) (b : Block) : feistel t (feistel t b) = b := by
  simp only [feistel, xorHalf_cancel_right]

/-- Under `IP`, `DESDEC` is one round (40_des_block.md R121, R122). -/
theorem perm64_ip_desDec {t : DesTables} (h : t.wf = true) (b : Block) :
    perm64 t.mask t.ip (desDec t b) = feistel t (perm64 t.mask t.ip b) :=
  perm64_ip_perm64_fp h _

/-- Settles O29: between the two `IP`s stand two rounds, which cancel. -/
theorem desdecIsInvolution : Obligations.DesdecIsInvolution := by
  intro t b h
  calc desDec t (desDec t b)
    _ = perm64 t.mask t.fp (feistel t (feistel t (perm64 t.mask t.ip b))) := by
      rw [desDec, perm64_ip_desDec h]
    _ = b := by rw [feistel_feistel, perm64_fp_perm64_ip h]

/-- What `DESDEC` XORs to the left half under `IP` is the round output of the right half. -/
theorem xorHalf_desDec_lo {t : DesTables} (h : t.wf = true) (b : Block) :
    xorHalf (perm64 t.mask t.ip (desDec t b)).lo (perm64 t.mask t.ip b).lo =
      roundOutput t (perm64 t.mask t.ip b).hi := by
  rw [perm64_ip_desDec h, feistel, xorHalf_comm (perm64 t.mask t.ip b).lo, xorHalf_cancel_right]

/-- Settles O30: under `IP` the block goes through one round, which leaves the right half. -/
theorem rightHalfPassesThrough : Obligations.RightHalfPassesThrough := by
  intro t b c h
  refine ⟨by rw [perm64_ip_desDec h, feistel], fun hhi => ?_⟩
  rw [xorHalf_desDec_lo h, xorHalf_desDec_lo h, hhi]

/-! ## `DESBLK` -/

/-- `DESBLK` as a change of the block registers and a completion. -/
theorem exec_desblk (s : State) :
    exec .desblk s = .next ((s.setBlk (desDec s.params.desTables s.blk)).afterCompletion 0x00#8) := rfl

theorem halfOfWord_injective : Function.Injective halfOfWord :=
  Function.LeftInverse.injective wordOfHalf_halfOfWord

theorem State.blk_eq_iff {s : State} {w0 w1 : Word} :
    s.blk = ⟨halfOfWord w0, halfOfWord w1⟩ ↔ s.blk0 = w0 ∧ s.blk1 = w1 := by
  rw [State.blk, Block.mk.injEq, halfOfWord_injective.eq_iff, halfOfWord_injective.eq_iff]

/-- The block `DESBLK` leaves, and the tables a second one reads. -/
theorem blk_of_exec_desblk {s t : State} (h : exec .desblk s = .next t) :
    t.blk = desDec s.params.desTables s.blk ∧ t.params = s.params := by
  obtain ⟨_, blk_setBlk, _⟩ := blockRegistersHoldBytesInOrder
  rw [exec_desblk, Host.Outcome.next.injEq] at h
  rw [← h]
  exact ⟨blk_setBlk s _, rfl⟩

/-- The first worked block: eight zero bytes. -/
theorem desDec_zeroBlock :
    desDec defaultDesTables ⟨halfOfWord 0#32, halfOfWord 0#32⟩ =
      ⟨halfOfWord 0x55010404#32, halfOfWord 0x55540155#32⟩ := by
  decide +kernel

/-- The second worked block. -/
theorem desDec_countingBlock :
    desDec defaultDesTables ⟨halfOfWord 0x67452301#32, halfOfWord 0xEFCDAB89#32⟩ =
      ⟨halfOfWord 0x76057651#32, halfOfWord 0xEBD9EA98#32⟩ := by
  decide +kernel

theorem desblk_twice {s t u : State} (hwf : s.params.desTables.wf = true) (ht : exec .desblk s = .next t)
    (hu : exec .desblk t = .next u) : u.blk = s.blk := by
  obtain ⟨hblk, hparams⟩ := blk_of_exec_desblk ht
  obtain ⟨hblk', _⟩ := blk_of_exec_desblk hu
  rw [hblk', hparams, hblk, desdecIsInvolution _ _ hwf]

/-- A `DESBLK` whose decryption is known leaves its two words. -/
theorem exec_desblk_words {t : DesTables} {v0 v1 w0 w1 : Word}
    (hdes : desDec t ⟨halfOfWord v0, halfOfWord v1⟩ = ⟨halfOfWord w0, halfOfWord w1⟩) {s : State}
    (htab : s.params.desTables = t) (h0 : s.blk0 = v0) (h1 : s.blk1 = v1) :
    ∃ u, exec .desblk s = .next u ∧ u.blk0 = w0 ∧ u.blk1 = w1 := by
  obtain ⟨hblk, _⟩ := blk_of_exec_desblk (exec_desblk s)
  refine ⟨_, exec_desblk s, State.blk_eq_iff.1 ?_⟩
  rw [hblk, htab, State.blk_eq_iff.2 ⟨h0, h1⟩, hdes]

/-- Settles O9: two `DESBLK` in a row are two decryptions, and `DESDEC` is its own inverse. -/
theorem desblkReplacesBlock : Obligations.DesblkReplacesBlock :=
  ⟨rfl, exec_desblk, fun _ _ _ hwf ht hu => State.blk_eq_iff.1 (desblk_twice hwf ht hu),
    fun _ => exec_desblk_words desDec_zeroBlock, fun _ => exec_desblk_words desDec_countingBlock⟩

end Sys2Proof.Machine
end

section
/-! PROOFS. The functions of 41_cipher_modes.md: the byte swap and the shuffle, the decimal digits and the cycle, and the two
modes as one map over the blocks of a buffer. -/

namespace Sys2Proof.Machine
open Sys2Proof

/-! ## `SWAP` -/

/-- The bytes that stand in a swap pair. -/
def bytesOfPairs (ps : List (Byte × Byte)) : List Byte := ps.flatMap fun p => [p.1, p.2]

theorem swapIn_eq_self {ps : List (Byte × Byte)} {v : Byte} (h : v ∉ bytesOfPairs ps) : swapIn ps v = v := by
  induction ps with
  | nil => rfl
  | cons p ps ih =>
    simp only [bytesOfPairs, List.flatMap_cons, List.cons_append, List.nil_append, List.mem_cons, not_or] at h
    obtain ⟨hx, hy, hrest⟩ := h
    rw [swapIn, if_neg hx, if_neg hy]
    exact ih hrest

theorem swap_eq_self {v : Byte} (h : v ∉ bytesOfPairs swapPairs) : swap v = v := swapIn_eq_self h

@[simp] theorem swap_swap (v : Byte) : swap (swap v) = v := by
  have hpairs : ∀ u ∈ bytesOfPairs swapPairs, swap (swap u) = u := by decide
  by_cases h : v ∈ bytesOfPairs swapPairs
  · exact hpairs v h
  · rw [swap_eq_self h, swap_eq_self h]

theorem countP_swap_ne : ((List.range 256).countP fun n => swap (BitVec.ofNat 8 n) != BitVec.ofNat 8 n) = 14 := by
  decide +kernel

theorem countP_swap_eq : ((List.range 256).countP fun n => swap (BitVec.ofNat 8 n) == BitVec.ofNat 8 n) = 242 := by
  have hsplit := List.length_eq_countP_add_countP (fun n => swap (BitVec.ofNat 8 n) == BitVec.ofNat 8 n)
    (l := List.range 256)
  have hne := countP_swap_ne
  simp only [List.length_range, bne, ← Bool.decide_eq_false, Bool.not_eq_true] at hsplit hne
  omega

/-- Settles O31: the pairs by evaluation, any other byte because it stands in no pair. -/
theorem swapIsInvolution : Obligations.SwapIsInvolution :=
  ⟨by decide, fun _ => swap_eq_self, swap_swap, countP_swap_ne, countP_swap_eq⟩

/-! ## `SHUF` -/

/-- The inverse of `SHUF` (41_cipher_modes.md R142). -/
def unshuf (y : Block) : Block :=
  ⟨⟨y.lo.b3, y.hi.b0, y.hi.b1, y.lo.b0⟩, ⟨y.lo.b1, y.hi.b2, y.lo.b2, swap y.hi.b3⟩⟩

theorem shuf_unshuf (y : Block) : shuf (unshuf y) = y := by simp only [shuf, unshuf, swap_swap]

theorem unshuf_shuf (x : Block) : unshuf (shuf x) = x := by simp only [shuf, unshuf, swap_swap]

/-- The bytes 0 to 6 move in two cycles of length 2 and one of length 3, and byte 7 is swapped, six times. -/
theorem shuf_iterate_six (b : Block) : shuf^[6] b = b := by
  simp only [Function.iterate_succ_apply, Function.iterate_zero_apply, shuf, swap_swap]

/-- The block whose byte `k` is `k`. -/
def countingBlock : Block := ⟨⟨0#8, 1#8, 2#8, 3#8⟩, ⟨4#8, 5#8, 6#8, 7#8⟩⟩

theorem shuf_iterate_countingBlock_ne : ∀ k < 6, 0 < k → shuf^[k] countingBlock ≠ countingBlock := by decide

/-- Settles O32: the rule's inverse is one on both sides, and two shuffles do not restore the counting block. -/
theorem shufPermutesBytes : Obligations.ShufPermutesBytes :=
  ⟨fun _ _ _ _ _ _ _ _ => rfl, fun y0 y1 y2 y3 y4 y5 y6 y7 => shuf_unshuf ⟨⟨y0, y1, y2, y3⟩, ⟨y4, y5, y6, y7⟩⟩,
    Function.bijective_iff_has_inverse.2 ⟨unshuf, unshuf_shuf, shuf_unshuf⟩,
    fun h => shuf_iterate_countingBlock_ne 2 (by decide) (by decide) (h countingBlock)⟩

/-! ## `DIGITS` and `CYCLEOF` -/

theorem lt_pow_digitsWithin {fuel n : Nat} (h : n ≤ fuel) : n < 10 ^ digitsWithin fuel n := by
  induction fuel generalizing n with
  | zero => rw [Nat.le_zero.1 h]; decide
  | succ fuel ih =>
    rw [digitsWithin]
    split
    · assumption
    · have hrest : n / 10 < 10 ^ digitsWithin fuel (n / 10) := ih (by omega)
      rw [Nat.pow_succ]
      omega

theorem digits_le_iff {n : Nat} (hn : 1 ≤ n) (d : Nat) : digits n ≤ d ↔ n < 10 ^ d := by
  constructor
  · intro h
    exact (lt_pow_digitsWithin (Nat.le_refl n)).trans_le (Nat.pow_le_pow_right (by decide) h)
  · intro h
    cases d with
    | zero => omega
    | succ d => exact digitsWithin_le d n n h

theorem digits_eq_iff {n d : Nat} (hn : 1 ≤ n) (hd : 1 ≤ d) : digits n = d ↔ 10 ^ (d - 1) ≤ n ∧ n < 10 ^ d := by
  rw [← digits_le_iff hn d, ← Nat.not_lt, ← digits_le_iff hn (d - 1)]
  omega

/-- Settles O33: `DIGITS(n)` is at most `d` exactly below `10^d`. -/
theorem digitsCountsDecimalDigits : Obligations.DigitsCountsDecimalDigits :=
  ⟨rfl, fun _ _ => digits_eq_iff, fun n hn => ⟨digitsWithin_pos n n, digitsWithin_le 9 n n (by omega)⟩⟩

/-- The source's table from digits to the cycle (41_cipher_modes.md R146). -/
def cycleOfDigits (d : Nat) : Nat := if d < 3 then 1 else if d < 5 then d + 1 else if d < 7 then d + 9 else d + 15

theorem cycleOf_eq (cs : Nat) : cycleOf cs = cycleOfDigits (digits cs) := rfl

theorem digits_cycleOf_of_range {cs d : Nat} (hd : 1 ≤ d) (hlo : 10 ^ (d - 1) ≤ cs) (hhi : cs < 10 ^ d) :
    digits cs = d ∧ cycleOf cs = cycleOfDigits d := by
  have hdigits : digits cs = d := (digits_eq_iff (Nat.one_le_pow _ _ (by decide) |>.trans hlo) hd).2 ⟨hlo, hhi⟩
  exact ⟨hdigits, by rw [cycleOf_eq, hdigits]⟩

theorem digits_le_two {cs : Nat} (h : cs ≤ 99) : digits cs ≤ 2 := digitsWithin_le 1 cs cs (Nat.lt_succ_of_le h)

theorem cycleOf_eq_one {cs : Nat} (h : cs ≤ 99) : cycleOf cs = 1 := if_pos (Nat.lt_succ_of_le (digits_le_two h))

/-- Settles O34: a row from 100 on holds the numbers of one digit count. -/
theorem cycleTable : Obligations.CycleTable := by
  intro cs
  refine ⟨fun h => ⟨?_, cycleOf_eq_one h⟩, fun hlo hhi => ?_, fun hlo hhi => ?_, fun hlo hhi => ?_, fun hlo hhi => ?_,
    fun hlo hhi => ?_, fun hlo hhi => ?_, fun hlo hhi => ?_, fun hlo hhi => ?_⟩
  · have hpos : 1 ≤ digits cs := digitsWithin_pos cs cs
    have hle : digits cs ≤ 2 := digits_le_two h
    omega
  · exact digits_cycleOf_of_range (d := 3) (by decide) hlo (by omega)
  · exact digits_cycleOf_of_range (d := 4) (by decide) hlo (by omega)
  · exact digits_cycleOf_of_range (d := 5) (by decide) hlo (by omega)
  · exact digits_cycleOf_of_range (d := 6) (by decide) hlo (by omega)
  · exact digits_cycleOf_of_range (d := 7) (by decide) hlo (by omega)
  · exact digits_cycleOf_of_range (d := 8) (by decide) hlo (by omega)
  · exact digits_cycleOf_of_range (d := 9) (by decide) hlo (by omega)
  · exact digits_cycleOf_of_range (d := 10) (by decide) hlo (by omega)

/-! ## A map over the blocks of a buffer -/

/-- Each whole block of a buffer after `f`, which is given the block's index, from block `i` on; a rest of fewer than eight
bytes stays. Both modes are such a map (`hdrDec_eq_mapBlocks`, `mixDec_eq_mapBlocks`). -/
def mapBlocks (f : Nat → Block → Block) : Nat → List Byte → List Byte
  | i, b0 :: b1 :: b2 :: b3 :: b4 :: b5 :: b6 :: b7 :: rest =>
    (f i ⟨⟨b0, b1, b2, b3⟩, ⟨b4, b5, b6, b7⟩⟩).bytes ++ mapBlocks f (i + 1) rest
  | _, rest => rest

theorem mapBlocks_block (f : Nat → Block → Block) (i : Nat) (b : Block) (rest : List Byte) :
    mapBlocks f i (b.bytes ++ rest) = (f i b).bytes ++ mapBlocks f (i + 1) rest := rfl

theorem blockAt_zero (b : Block) (rest : List Byte) : blockAt (b.bytes ++ rest) 0 = b := rfl

theorem blockAt_succ (b : Block) (rest : List Byte) (k : Nat) : blockAt (b.bytes ++ rest) (k + 1) = blockAt rest k := rfl

/-- A buffer of at least one block starts with a block. -/
theorem exists_block_append {buf : List Byte} (h : 8 ≤ buf.length) :
    ∃ b rest, buf = Block.bytes b ++ rest ∧ buf.length = rest.length + 8 := by
  match buf, h with
  | b0 :: b1 :: b2 :: b3 :: b4 :: b5 :: b6 :: b7 :: rest, _ => exact ⟨⟨⟨b0, b1, b2, b3⟩, ⟨b4, b5, b6, b7⟩⟩, rest, rfl, rfl⟩

theorem blockAt_mapBlocks (f : Nat → Block → Block) (i k : Nat) {buf : List Byte} (hk : k < buf.length / 8) :
    blockAt (mapBlocks f i buf) k = f (i + k) (blockAt buf k) := by
  induction k generalizing i buf with
  | zero =>
    obtain ⟨b, rest, rfl, _⟩ := exists_block_append (show 8 ≤ buf.length by omega)
    rw [mapBlocks_block, blockAt_zero, blockAt_zero, Nat.add_zero]
  | succ k ih =>
    obtain ⟨b, rest, rfl, hlen⟩ := exists_block_append (show 8 ≤ buf.length by omega)
    rw [mapBlocks_block, blockAt_succ, blockAt_succ, ih (i + 1) (by omega), Nat.add_right_comm, Nat.add_assoc]

/-- Where `f` changes no block from `m` on, no byte from block `m` on changes. -/
theorem mapBlocks_getElem?_of_id {f : Nat → Block → Block} {m : Nat} (hf : ∀ j b, m ≤ j → f j b = b)
    (i : Nat) (buf : List Byte) {k : Nat} (hk : 8 * m ≤ 8 * i + k) : (mapBlocks f i buf)[k]? = buf[k]? := by
  fun_induction mapBlocks f i buf generalizing k with
  | case1 i b0 b1 b2 b3 b4 b5 b6 b7 rest ih =>
    suffices hany : ∀ b : Block, ((f i b).bytes ++ mapBlocks f (i + 1) rest)[k]? = (b.bytes ++ rest)[k]? from
      hany ⟨⟨b0, b1, b2, b3⟩, ⟨b4, b5, b6, b7⟩⟩
    intro b
    by_cases h8 : k < 8
    · rw [hf i b (by omega), List.getElem?_append_left h8, List.getElem?_append_left h8]
    · rw [List.getElem?_append_right (Nat.not_lt.1 h8), List.getElem?_append_right (Nat.not_lt.1 h8)]
      exact ih (by rw [block_bytes_length]; omega)
  | case2 => rfl

theorem mapBlocks_congr {f g : Nat → Block → Block} {i : Nat} {buf : List Byte}
    (h : ∀ k, k < buf.length / 8 → f (i + k) = g (i + k)) : mapBlocks f i buf = mapBlocks g i buf := by
  fun_induction mapBlocks f i buf with
  | case1 i b0 b1 b2 b3 b4 b5 b6 b7 rest ih =>
    simp only [List.length_cons] at h
    have hhead : f i = g i := h 0 (by omega)
    rw [mapBlocks, hhead, ih]
    intro k hk
    rw [Nat.add_right_comm, Nat.add_assoc]
    exact h (k + 1) (by omega)
  | case2 i rest hshort => rw [mapBlocks]; exact hshort

/-! ## Header-only mode -/

/-- What header-only mode does to block `i` (41_cipher_modes.md R149). -/
def headerAction (i : Nat) : Action := if i < 20 then .des else .plain

theorem hdrFrom_eq_mapBlocks (t : DesTables) (i : Nat) (buf : List Byte) :
    hdrFrom t i buf = mapBlocks (fun k => (headerAction k).apply t) i buf := by
  fun_induction hdrFrom t i buf with
  | case1 i b0 b1 b2 b3 b4 b5 b6 b7 rest ih => rw [mapBlocks, ih]; rfl
  | case2 i rest hshort => rw [mapBlocks]; exact hshort

theorem hdrDec_eq_mapBlocks (t : DesTables) (buf : List Byte) :
    hdrDec t buf = mapBlocks (fun k => (headerAction k).apply t) 0 buf := hdrFrom_eq_mapBlocks t 0 buf

theorem headerAction_of_lt {i : Nat} (h : i < 20) : headerAction i = .des := if_pos h

theorem headerAction_of_ge {i : Nat} (h : 20 ≤ i) : headerAction i = .plain := if_neg (by omega)

/-- Settles O35: header-only mode maps each block by its action, and an action from block 20 on changes nothing. -/
theorem headerModeDecryptsFirstTwenty : Obligations.HeaderModeDecryptsFirstTwenty := by
  intro t buf _
  refine ⟨hdrFrom_length t 0 buf, fun i hi => ?_, fun k hk => ?_⟩
  · rw [hdrDec_eq_mapBlocks, blockAt_mapBlocks _ _ _ hi, Nat.zero_add]
    by_cases h20 : i < 20
    · rw [if_pos (lt_min h20 hi), headerAction_of_lt h20]; rfl
    · rw [if_neg (by omega), headerAction_of_ge (by omega)]; rfl
  · rw [hdrDec_eq_mapBlocks]
    refine mapBlocks_getElem?_of_id (m := 20) (fun j b hj => ?_) 0 buf (by omega)
    rw [headerAction_of_ge hj]; rfl

/-! ## Mixed mode -/

/-- The counter `j` of mixed mode before block `i` (41_cipher_modes.md R152), in closed form. -/
def counterBefore (c i : Nat) : Int := ((List.range i).countP (advancesJ c) : Nat) - 1

theorem scheduleJ_eq_counterBefore (i c : Nat) : scheduleJ i c = counterBefore c (i + 1) := rfl

theorem counterBefore_succ (c i : Nat) :
    counterBefore c (i + 1) = if advancesJ c i then counterBefore c i + 1 else counterBefore c i := by
  unfold counterBefore
  rw [List.range_succ, List.countP_append, List.countP_singleton]
  split
  · push_cast; omega
  · simp only [Nat.add_zero]

/-- With the counter that the closed form gives, the loop does to block `i` what the closed form says (R153). -/
theorem mixAction_counterBefore (c i : Nat) : mixAction c i (counterBefore c (i + 1)) = scheduleAction i c := by
  rw [mixAction, scheduleAction, scheduleJ_eq_counterBefore]
  by_cases h20 : i < 20
  · rw [if_pos h20, if_neg]
    simp only [advancesJ, decide_eq_true_eq]
    omega
  · by_cases hc : i % c = 0
    · rw [if_neg h20, if_pos hc, if_neg]
      simp only [advancesJ, decide_eq_true_eq]
      exact fun h => h.2 hc
    · rw [if_neg h20, if_neg hc, if_pos]
      simp only [advancesJ, decide_eq_true_eq]
      exact ⟨Nat.not_lt.1 h20, hc⟩

theorem mixFrom_eq_mapBlocks (t : DesTables) (c i : Nat) (buf : List Byte) :
    mixFrom t c i (counterBefore c i) buf = mapBlocks (fun k => (scheduleAction k c).apply t) i buf := by
  fun_induction mapBlocks (fun k => (scheduleAction k c).apply t) i buf with
  | case1 i b0 b1 b2 b3 b4 b5 b6 b7 rest ih => rw [mixFrom, ← counterBefore_succ, mixAction_counterBefore, ih]
  | case2 i rest hshort => rw [mixFrom]; exact hshort

theorem mixDec_eq_mapBlocks (t : DesTables) (buf : List Byte) (cs : Nat) :
    mixDec t buf cs = mapBlocks (fun k => (scheduleAction k (cycleOf cs)).apply t) 0 buf :=
  mixFrom_eq_mapBlocks t (cycleOf cs) 0 buf

/-- Settles O36: the counter of the loop is the count of the closed form at every block. -/
theorem mixedModeFollowsSchedule : Obligations.MixedModeFollowsSchedule := by
  intro t buf cs _
  refine ⟨mixFrom_length t (cycleOf cs) 0 (-1) buf, fun i hi => ?_⟩
  rw [mixDec_eq_mapBlocks, blockAt_mapBlocks _ _ _ hi, Nat.zero_add]

theorem scheduleAction_of_lt {i : Nat} (c : Nat) (h : i < 20) : scheduleAction i c = .des := if_pos h

theorem scheduleAction_one (i : Nat) : scheduleAction i 1 = .des := by
  rw [scheduleAction, if_pos (Nat.mod_one i), ite_self]

/-- Settles O37: every block below 20 is a DES block in both modes, and with cycle 1 so is every other. -/
theorem mixedModeSpecialCases : Obligations.MixedModeSpecialCases := by
  intro t buf cs h8
  refine ⟨fun hlen => ?_, fun hcs i hi => ?_⟩
  · rw [mixDec_eq_mapBlocks, hdrDec_eq_mapBlocks]
    refine mapBlocks_congr fun k hk => ?_
    have h20 : 0 + k < 20 := by omega
    rw [scheduleAction_of_lt _ h20, headerAction_of_lt h20]
  · obtain ⟨_, hblock⟩ := mixedModeFollowsSchedule t buf cs h8
    rw [hblock i hi, cycleOf_eq_one (Nat.le_of_lt_succ hcs), scheduleAction_one]; rfl

end Sys2Proof.Machine
end

section
/-! PROOFS. The commands of 41_cipher_modes.md: `SHUFBLK` and `CYCLE` on registers, and `DECHDR`, `DECMIX` and `DECIPHER` on
the payload in working memory. -/

namespace Sys2Proof.Machine
open Sys2Proof

/-! ## `SHUFBLK` -/

/-- `SHUFBLK` as a change of the block registers and a completion. -/
theorem exec_shufblk (s : State) : exec .shufblk s = .next ((s.setBlk (shuf s.blk)).afterCompletion 0x00#8) := rfl

theorem shuf_byte_seven (b : Block) : (shuf b).byte 7 = swap (b.byte 7) := rfl

/-- The worked block of R143: the counting block. -/
theorem shuf_countingWords :
    shuf ⟨halfOfWord 0x03020100#32, halfOfWord 0x07060504#32⟩ =
      ⟨halfOfWord 0x00060403#32, halfOfWord 0x07050201#32⟩ := by decide

/-- A `SHUFBLK` on the counting block leaves its two words. -/
theorem exec_shufblk_countingWords {s : State} (h0 : s.blk0 = 0x03020100#32) (h1 : s.blk1 = 0x07060504#32) :
    ∃ t, exec .shufblk s = .next t ∧ t.blk0 = 0x00060403#32 ∧ t.blk1 = 0x07050201#32 := by
  obtain ⟨_, blk_setBlk, _⟩ := blockRegistersHoldBytesInOrder
  have hblk : (s.setBlk (shuf s.blk)).blk = ⟨halfOfWord 0x00060403#32, halfOfWord 0x07050201#32⟩ := by
    rw [blk_setBlk, State.blk_eq_iff.2 ⟨h0, h1⟩, shuf_countingWords]
  exact ⟨_, exec_shufblk s, State.blk_eq_iff.1 hblk⟩

/-- Settles O10: byte 7 is swapped at each application, and the counting block has order 6. -/
theorem shufblkReplacesBlock : Obligations.ShufblkReplacesBlock :=
  ⟨rfl, exec_shufblk, shuf_iterate_six, fun k hpos hlt => ⟨countingBlock, shuf_iterate_countingBlock_ne k hlt hpos⟩,
    fun b => by rw [shuf_byte_seven, shuf_byte_seven, swap_swap], shuf_byte_seven, fun _ => exec_shufblk_countingWords⟩

/-! ## `CYCLE` -/

theorem checkCycle_some {s : State} (h : s.csize.toInt < 0) : checkCycle s = some .malformed := by
  rw [checkCycle, firstFailure_decide, if_pos h]

theorem exec_cycle_of_nonneg {s : State} (h : 0 ≤ s.csize.toInt) :
    exec .cycle s = .next ({ s with cycle := BitVec.ofNat 5 (cycleOf s.csize.toNat) }.afterCompletion 0x00#8) := by
  rw [exec_eq, endState_ok (i := .cycle) (checkCycle_none.2 h), ← State.csizeNat_eq h]
  rfl

theorem exec_cycle_of_neg {s : State} (h : s.csize.toInt < 0) : exec .cycle s = .next (s.afterCompletion 0x02#8) := by
  rw [exec_eq, endState_error (i := .cycle) (checkCycle_some h)]
  rfl

/-- The register `CYCLE` after the command, for a `CSIZE` whose cycle is known. -/
theorem cycle_of_exec_cycle {s t : State} (h : exec .cycle s = .next t) {v : Word} {c : Nat} (hs : s.csize = v)
    (hv : 0 ≤ v.toInt) (hc : cycleOf v.toNat = c) : t.cycle = BitVec.ofNat 5 c := by
  subst hs hc
  rw [exec_cycle_of_nonneg hv, Host.Outcome.next.injEq] at h
  rw [← h]
  rfl

theorem ecode_of_exec_cycle_of_neg {s t : State} (h : exec .cycle s = .next t) (hneg : s.csize.toInt < 0) :
    t.ecode = 0x02#8 := by
  rw [exec_cycle_of_neg hneg, Host.Outcome.next.injEq] at h
  rw [← h]
  rfl

/-- Settles O11: the sign of `CSIZE` decides the check; the examples read the rows of the cycle table. -/
theorem cycleWritesCycleRegister : Obligations.CycleWritesCycleRegister := by
  refine ⟨rfl, fun _ => exec_cycle_of_nonneg, fun _ => exec_cycle_of_neg, fun s t h =>
    ⟨fun hs => cycle_of_exec_cycle h hs (by decide) (cycleOf_eq_one (by decide)),
      fun hs => cycle_of_exec_cycle h hs (by decide) (cycleOf_eq_one (by decide)),
      fun hs => cycle_of_exec_cycle h hs (by decide) (cycleOf_eq_one (by decide)),
      fun hs => cycle_of_exec_cycle h hs (by decide) ?_, fun hs => cycle_of_exec_cycle h hs (by decide) ?_,
      fun hs => cycle_of_exec_cycle h hs (by decide) ?_, fun hs => ecode_of_exec_cycle_of_neg h (by rw [hs]; decide)⟩⟩
  · exact (digits_cycleOf_of_range (d := 3) (by decide) (by decide) (by decide)).2
  · exact (digits_cycleOf_of_range (d := 5) (by decide) (by decide) (by decide)).2
  · exact (digits_cycleOf_of_range (d := 10) (by decide) (by decide) (by decide)).2

/-! ## Deciphering in place -/

/-- `t` is `s` after a command that stored `bs` over the payload, left `v` in `CYCLE` and completed without an error. -/
def StoresPayload (s t : State) (v : BitVec 5) (bs : List Byte) : Prop :=
  t = { s with wmem := t.wmem, cycle := v }.afterCompletion 0x00#8 ∧
  ∀ x, t.byteAt x = s.storedByte s.src.toNat bs x

/-- Where no host access interferes, a mode other than none stores what it deciphers. -/
theorem State.decipherInPlace_storesPayload {s : State} {m : CipherMode} (hm : m ≠ .none) (hu : s.undisturbed) :
    StoresPayload s (s.decipherInPlace m).finish (s.setCycleIn m).cycle (s.deciphered m) := by
  obtain ⟨hfoot, _⟩ := hu
  rcases s.decipherInPlace_cases m with ⟨hnone, _⟩ | ⟨_, _, e⟩ | ⟨htrue, _⟩
  · exact absurd hnone hm
  · rw [e]
    refine ⟨by cases m <;> rfl, fun x => ?_⟩
    have hbyte : (s.setCycleIn m).byteAt x = s.byteAt x := State.byteAt_congr (by simp) (by simp) x
    rw [State.finish_eq, State.byteAt_complete, State.byteAt_memWrite, hbyte, ← State.storedByte]
  · exact absurd (hfoot.symm.trans htrue) (by decide)

theorem State.deciphered_header {s : State} (h : 0 ≤ s.len.toInt) :
    s.deciphered .header = hdrDec s.params.desTables (s.memRead s.src.toNat s.len.toNat) := by
  rw [State.deciphered, State.lenNat_eq h]; rfl

theorem State.deciphered_mixed {s : State} (h : 0 ≤ s.len.toInt) (hc : 0 ≤ s.csize.toInt) :
    s.deciphered .mixed = mixDec s.params.desTables (s.memRead s.src.toNat s.len.toNat) s.csize.toNat := by
  rw [State.deciphered, State.lenNat_eq h, State.csizeNat_eq hc]; rfl

theorem State.decipherInPlace_header_storesPayload {s : State} (h : 0 ≤ s.len.toInt) (hu : s.undisturbed) :
    StoresPayload s (s.decipherInPlace .header).finish s.cycle
      (hdrDec s.params.desTables (s.memRead s.src.toNat s.len.toNat)) := by
  rw [← State.deciphered_header h]
  exact State.decipherInPlace_storesPayload (by decide) hu

theorem State.decipherInPlace_mixed_storesPayload {s : State} (h : 0 ≤ s.len.toInt) (hc : 0 ≤ s.csize.toInt)
    (hu : s.undisturbed) :
    StoresPayload s (s.decipherInPlace .mixed).finish (BitVec.ofNat 5 (cycleOf s.csize.toNat))
      (mixDec s.params.desTables (s.memRead s.src.toNat s.len.toNat) s.csize.toNat) := by
  rw [← State.deciphered_mixed h hc, ← State.csizeNat_eq hc]
  exact State.decipherInPlace_storesPayload (by decide) hu

/-- A command whose checks pass ends in its execute phase's state. -/
theorem exec_of_check_none {i : Instr} {s : State} (h : checkOf i s = none) : exec i s = .next (executed i s) := by
  rw [exec_eq, endState_ok h]

/-- Settles O12: the checks pass, and header mode stores what it deciphers. -/
theorem dechdrDeciphersInPlace : Obligations.DechdrDeciphersInPlace := by
  intro s hlen h8 hin hu
  have hcheck : checkDechdr s = none := checkDechdr_none.2 ⟨hlen, h8, by rwa [State.lenNat_eq hlen]⟩
  exact ⟨_, exec_of_check_none (i := .dechdr) hcheck, State.decipherInPlace_header_storesPayload hlen hu⟩

/-- Settles O13: the checks pass, and mixed mode stores what it deciphers. -/
theorem decmixDeciphersInPlace : Obligations.DecmixDeciphersInPlace := by
  intro s hlen h8 hcs hin hu
  have hcheck : checkDecmix s = none := checkDecmix_none.2 ⟨hlen, h8, hcs, by rwa [State.lenNat_eq hlen]⟩
  exact ⟨_, exec_of_check_none (i := .decmix) hcheck, State.decipherInPlace_mixed_storesPayload hlen hcs hu⟩

/-! ## `DECIPHER` -/

/-- `DECIPHER` in the mode `TYPE` selects, where that mode's checks pass. -/
theorem exec_decipher_of_mode {s : State} {m : CipherMode} (hm : s.mode = m) (hlen : 0 ≤ s.len.toInt)
    (hin : s.src.toNat + s.len.toNat ≤ s.params.wmemSize) (h8 : m ≠ .none → s.len.toInt % 8 = 0)
    (hcs : m = .mixed → 0 ≤ s.csize.toInt) : exec .decipher s = .next (s.decipherInPlace m).finish := by
  subst hm
  have hcheck : checkDecipher s = none := checkDecipher_none.2 ⟨hlen, h8, hcs, by rwa [State.lenNat_eq hlen]⟩
  exact exec_of_check_none (i := .decipher) hcheck

/-- With neither cipher bit and no interference nothing is deciphered (41_cipher_modes.md R159). -/
theorem State.decipherInPlace_none {s : State} (hu : s.undisturbed) : s.decipherInPlace .none = s := if_pos ⟨rfl, hu.1⟩

/-- Settles O14: one case per mode. -/
theorem decipherFollowsType : Obligations.DecipherFollowsType := by
  intro s hlen hin hu
  refine ⟨fun hmixed h8 hcs => ?_, fun hmixed hheader h8 => ?_, fun hmixed hheader => ?_⟩
  · exact ⟨_, exec_decipher_of_mode (State.mode_mixed.2 hmixed) hlen hin (fun _ => h8) (fun _ => hcs),
      State.decipherInPlace_mixed_storesPayload hlen hcs hu⟩
  · exact ⟨_, exec_decipher_of_mode (State.mode_header.2 ⟨hmixed, hheader⟩) hlen hin (fun _ => h8) nofun,
      State.decipherInPlace_header_storesPayload hlen hu⟩
  · rw [exec_decipher_of_mode (State.mode_none.2 ⟨hmixed, hheader⟩) hlen hin (fun h => absurd rfl h) nofun,
      State.decipherInPlace_none hu]
    rfl

end Sys2Proof.Machine
end

section
/-! PROOFS. The command `EXTRACT` (42_extract.md): its check phase, the deciphered payload, a result that is placed or fails,
what the result depends on, and `EXTRACT` as `DECIPHER` and then `INFLATE`. -/

namespace Sys2Proof.Machine
open Sys2Proof

/-! ## Runs of bytes -/

/-- The first bytes of a run are a shorter run. -/
theorem State.take_memRead (s : State) (a : Nat) {k n : Nat} (h : k ≤ n) : (s.memRead a n).take k = s.memRead a k := by
  rw [State.memRead, ← List.map_take, List.take_range, Nat.min_eq_left h, State.memRead]

/-- Storing over a run the bytes it holds changes nothing. -/
theorem State.storedByte_memRead (s : State) (a n x : Nat) : s.storedByte a (s.memRead a n) x = s.byteAt x := by
  rw [State.storedByte, State.memRead_length]
  split
  · rw [List.getD_eq_getElem?_getD, State.memRead_getElem?, if_pos (by omega), Option.getD_some,
      Nat.add_sub_cancel' (by omega)]
  · rfl

/-- A run that shares no byte with the range where two states differ reads the same in both. -/
theorem State.memRead_eq_of_not_shareByte {s t : State} {a n b k : Nat} (hsep : ¬ shareByte a n b k)
    (h : ∀ x, ¬ (b ≤ x ∧ x < b + k) → t.byteAt x = s.byteAt x) : t.memRead a n = s.memRead a n :=
  State.memRead_congr fun _ _ => h _ (by omega)

/-- A run reads as the bytes that were stored over it. -/
theorem State.memRead_eq_of_storedByte {s t : State} {a : Nat} {bs : List Byte}
    (h : ∀ x, t.byteAt x = s.storedByte a bs x) : t.memRead a bs.length = bs := by
  refine (t.memRead_eq_iff a bs).2 fun k hk => ?_
  rw [h, State.storedByte, if_pos (by omega), Nat.add_sub_cancel_left, List.getD_eq_getElem _ _ hk]

/-! ## The check phase -/

/-- The check phase as the rule says it (42_extract.md R170). -/
theorem checkExtract_eq_none_iff {s : State} : checkExtract s = none ↔ extractChecksPass s := by
  rw [checkExtract_none, extractChecksPass, State.mode_ne_none]
  refine and_congr_right fun (hlen : 0 ≤ s.len.toInt) => and_congr_right fun (hcs : 0 ≤ s.csize.toInt) =>
    and_congr_right fun hrs => and_congr_right fun _ => ?_
  have hle : s.csize.toInt ≤ s.len.toInt ↔ s.csize.toNat ≤ s.len.toNat := by
    rw [← toNat_toInt hlen, ← toNat_toInt hcs]
    omega
  rw [hle, State.lenNat_eq hlen, State.rsizeNat_eq hrs, ← Bool.not_eq_true, overlap_iff]

/-- The sizes of an entry whose checks pass are the registers as unsigned numbers. -/
theorem extractChecksPass.sizes {s : State} (h : extractChecksPass s) :
    s.lenNat = s.len.toNat ∧ s.csizeNat = s.csize.toNat ∧ s.rsizeNat = s.rsize.toNat :=
  let ⟨hlen, hcs, hrs, _⟩ := h
  ⟨State.lenNat_eq hlen, State.csizeNat_eq hcs, State.rsizeNat_eq hrs⟩

/-! ## The deciphered payload -/

/-- Deciphering in place, where no host access interferes, is storing the deciphered payload; with neither cipher bit the
payload is its own decipherment. -/
theorem State.byteAt_decipherInPlace {s : State} (hu : s.undisturbed) (m : CipherMode) (x : Nat) :
    (s.decipherInPlace m).byteAt x = s.storedByte s.opSrc (s.deciphered m) x := by
  by_cases hm : m = .none
  · subst hm
    rw [State.decipherInPlace_none hu]
    exact (s.storedByte_memRead s.opSrc s.lenNat x).symm
  · exact (State.decipherInPlace_storesPayload hm hu).2 x

/-- Where no host access interferes, deciphering in place draws no unspecified byte. -/
theorem State.decipherInPlace_draws {s : State} (hu : s.undisturbed) (m : CipherMode) :
    (s.decipherInPlace m).draws = s.draws := by
  rcases s.decipherInPlace_cases m with ⟨_, _, e⟩ | ⟨_, _, e⟩ | ⟨htrue, _⟩
  · rw [e]
  · rw [e, State.memWrite_draws, State.setCycleIn_draws]
  · exact absurd (hu.1.symm.trans htrue) (by decide)

theorem State.setCycleIn_mode_cycle {s : State} (h : extractChecksPass s) :
    (s.setCycleIn s.mode).cycle = cycleAfterMode s := by
  obtain ⟨_, hcs, _⟩ := h.sizes
  rw [cycleAfterMode, ← hcs]
  by_cases hm : s.mode = .mixed
  · rw [if_pos (State.mode_mixed.1 hm), hm, State.setCycleIn_mixed, State.setCycle_cycle]
  · rw [if_neg (mt State.mode_mixed.2 hm), State.setCycleIn, if_neg hm]

theorem State.deciphered_mode {s : State} (h : extractChecksPass s) : s.deciphered s.mode = plainPayload s := by
  obtain ⟨hlen, hcs, _⟩ := h.sizes
  rw [State.deciphered, hlen, hcs, plainPayload, State.mode]

/-- `d` is `s` with its payload deciphered in place and `CYCLE` as the mode leaves it, before anything is placed at `DST`. -/
structure PayloadDeciphered (s d : State) : Prop where
  frame : d = { s with wmem := d.wmem, cycle := cycleAfterMode s }
  payload : d.memRead s.src.toNat s.len.toNat = plainPayload s
  outside : ∀ x, ¬ (s.src.toNat ≤ x ∧ x < s.src.toNat + s.len.toNat) → d.byteAt x = s.byteAt x

theorem State.decipherInPlace_payloadDeciphered {s : State} (hc : extractChecksPass s) (hu : s.undisturbed) :
    PayloadDeciphered s (s.decipherInPlace s.mode) := by
  obtain ⟨hlen, _, _⟩ := hc.sizes
  have hplain := State.deciphered_mode hc
  have hcount : (plainPayload s).length = s.len.toNat := by rw [← hplain, State.deciphered_length, hlen]
  have hbytes (x : Nat) : (s.decipherInPlace s.mode).byteAt x = s.storedByte s.src.toNat (plainPayload s) x := by
    rw [State.byteAt_decipherInPlace hu, hplain]
  refine ⟨?_, ?_, fun x hx => ?_⟩
  · have hf := s.decipherInPlace_frame s.mode
    rwa [State.decipherInPlace_draws hu, State.setCycleIn_mode_cycle hc] at hf
  · rw [← hcount]
    exact State.memRead_eq_of_storedByte hbytes
  · rw [hbytes, State.storedByte, hcount, if_neg hx]

/-- The first `CSIZE` bytes of the payload, which `INFLATE` reads. -/
theorem PayloadDeciphered.stream {s d : State} (h : PayloadDeciphered s d) (hc : extractChecksPass s) :
    d.memRead s.src.toNat s.csize.toNat = (plainPayload s).take s.csize.toNat := by
  obtain ⟨_, _, _, _, hcl, _⟩ := hc
  rw [← h.payload, State.take_memRead _ _ hcl]

theorem PayloadDeciphered.undisturbed {s d : State} (h : PayloadDeciphered s d) (hu : s.undisturbed) :
    d.undisturbed := by
  rw [h.frame]
  exact hu

/-- Bytes that change at `DST` alone leave the payload deciphered. -/
theorem PayloadDeciphered.of_outside {s d t : State} (h : PayloadDeciphered s d) (hc : extractChecksPass s)
    (ht : ∀ x, ¬ (s.dst.toNat ≤ x ∧ x < s.dst.toNat + s.rsize.toNat) → t.byteAt x = d.byteAt x) :
    t.memRead s.src.toNat s.len.toNat = plainPayload s ∧
    ∀ x, ¬ (s.src.toNat ≤ x ∧ x < s.src.toNat + s.len.toNat) →
      ¬ (s.dst.toNat ≤ x ∧ x < s.dst.toNat + s.rsize.toNat) → t.byteAt x = s.byteAt x := by
  obtain ⟨_, _, _, _, _, _, _, hsep⟩ := hc
  refine ⟨?_, fun x hsrc hdst => ?_⟩
  · rw [State.memRead_eq_of_not_shareByte hsep ht, h.payload]
  · rw [ht x hdst, h.outside x hsrc]

/-! ## The end of the command -/

theorem State.placeResult_none {d : State} (hu : d.undisturbed) : d.placeResult none = d.endUnspecified false := by
  rw [State.placeResult, hu.2]
  rfl

theorem State.placeResult_some {d : State} (hu : d.undisturbed) (out : List Byte) :
    d.placeResult (some out) = { d.memWrite d.opDst out with outlen := d.rsize }.finish := by
  rw [State.placeResult, State.writeOutput, hu.1, hu.2]
  rfl

/-- What the entry of `s` gives: the stored bytes, or their inflation, or none where they do not inflate. -/
def entryResult (s : State) : Option (List Byte) := extractResult s.csize.toNat s.rsize.toNat (plainPayload s)

theorem entryResult_of_stored {s : State} (h : s.rsize = s.csize) :
    entryResult s = some ((plainPayload s).take s.csize.toNat) := by
  rw [entryResult, extractResult, if_pos (congrArg BitVec.toNat h)]

theorem entryResult_of_compressed {s : State} (h : s.rsize ≠ s.csize) :
    entryResult s = zinflate ((plainPayload s).take s.csize.toNat) s.rsize.toNat := by
  rw [entryResult, extractResult, if_neg (mt BitVec.eq_of_toNat_eq h)]

theorem extractResult_eq_entryResult {s : State} (hc : extractChecksPass s) :
    extractResult s.csizeNat s.rsizeNat (s.deciphered s.mode) = entryResult s := by
  obtain ⟨_, hcs, hrs⟩ := hc.sizes
  rw [hcs, hrs, State.deciphered_mode hc, entryResult]

theorem entryResult_length {s : State} (hc : extractChecksPass s) {out : List Byte} (h : entryResult s = some out) :
    out.length = s.rsize.toNat := by
  obtain ⟨_, _, hrs⟩ := hc.sizes
  rw [← extractResult_eq_entryResult hc] at h
  rw [extractResult_deciphered_length (checkExtract_eq_none_iff.2 hc) h, hrs]

/-- `EXTRACT` places what the entry gives over the state with the payload deciphered. -/
theorem exec_extract {s : State} (hc : extractChecksPass s) :
    exec .extract s = .next ((s.decipherInPlace s.mode).placeResult (entryResult s)) := by
  rw [← extractResult_eq_entryResult hc]
  exact exec_of_check_none (i := .extract) (checkExtract_eq_none_iff.2 hc)

/-- Whatever is placed, the payload stays deciphered and no byte outside the two ranges changes. -/
theorem PayloadDeciphered.placeResult {s d : State} (h : PayloadDeciphered s d) (hc : extractChecksPass s) :
    (d.placeResult (entryResult s)).memRead s.src.toNat s.len.toNat = plainPayload s ∧
    ∀ x, ¬ (s.src.toNat ≤ x ∧ x < s.src.toNat + s.len.toNat) →
      ¬ (s.dst.toNat ≤ x ∧ x < s.dst.toNat + s.rsize.toNat) →
        (d.placeResult (entryResult s)).byteAt x = s.byteAt x := by
  obtain ⟨_, _, hrs⟩ := hc.sizes
  have hcount : d.rsizeNat = s.rsize.toNat := by rw [h.frame]; exact hrs
  have hdst : d.opDst = s.dst.toNat := by rw [h.frame]
  refine h.of_outside hc fun x hx => State.byteAt_placeResult_outside (fun out hout => ?_) ?_
  · rw [hcount, entryResult_length hc hout]
  · rwa [hcount, hdst]

/-! ## Success -/

/-- `t` is `s` after an `EXTRACT` that deciphered the payload in place, placed `out` at `DST` and completed without an error. -/
def ExtractsTo (s t : State) (out : List Byte) : Prop :=
  t = { s with wmem := t.wmem, outlen := s.rsize, cycle := cycleAfterMode s }.afterCompletion 0x00#8 ∧
  t.memRead s.src.toNat s.len.toNat = plainPayload s ∧
  t.memRead s.dst.toNat s.rsize.toNat = out ∧
  ∀ x, ¬ (s.src.toNat ≤ x ∧ x < s.src.toNat + s.len.toNat) →
    ¬ (s.dst.toNat ≤ x ∧ x < s.dst.toNat + s.rsize.toNat) → t.byteAt x = s.byteAt x

theorem PayloadDeciphered.extractsTo {s d : State} (h : PayloadDeciphered s d) (hc : extractChecksPass s)
    (hu : s.undisturbed) {out : List Byte} (hout : entryResult s = some out) :
    ExtractsTo s (d.placeResult (some out)) out := by
  obtain ⟨hpayload, houtside⟩ := h.placeResult hc
  rw [hout] at hpayload houtside
  have hplace := State.placeResult_some (h.undisturbed hu) out
  have hdst : d.opDst = s.dst.toNat := by rw [h.frame]
  refine ⟨?_, hpayload, ?_, houtside⟩
  · rw [hplace, h.frame]
    rfl
  · rw [hplace, ← entryResult_length hc hout, ← hdst]
    exact d.memRead_memWrite d.opDst out

theorem exec_extract_of_some {s : State} (hc : extractChecksPass s) (hu : s.undisturbed) {out : List Byte}
    (hout : entryResult s = some out) : ∃ t, exec .extract s = .next t ∧ ExtractsTo s t out := by
  refine ⟨_, exec_extract hc, ?_⟩
  rw [hout]
  exact (State.decipherInPlace_payloadDeciphered hc hu).extractsTo hc hu hout

/-- Settles O17: a stored entry gives the first `CSIZE` bytes of its payload. -/
theorem extractCopiesStoredEntry : Obligations.ExtractCopiesStoredEntry := by
  intro s hc hu hstored
  exact exec_extract_of_some hc hu (entryResult_of_stored hstored)

/-- Settles O18: a compressed entry gives the inflation of the first `CSIZE` bytes of its payload. -/
theorem extractInflatesCompressedEntry : Obligations.ExtractInflatesCompressedEntry := by
  intro s out hc hu hcompressed hinflate
  exact exec_extract_of_some hc hu ((entryResult_of_compressed hcompressed).trans hinflate)

/-! ## Failure -/

/-- The end of a failing command draws the bytes of its output range. -/
theorem State.byteAt_endUnspecified_inside (ok : Bool) (d : State) {x : Nat}
    (h : d.opDst ≤ x ∧ x < d.opDst + d.rsizeNat) : (d.endUnspecified ok).byteAt x = Config.freeByte d.draws x := by
  show (d.spoil d.opDst d.rsizeNat).byteAt x = _
  rw [State.byteAt_spoil, if_pos h]

/-- Settles O19: a compressed entry that does not inflate gives nothing to place. -/
theorem extractFailureKeepsDecipheredPayload : Obligations.ExtractFailureKeepsDecipheredPayload := by
  intro s hc hu hcompressed hinflate
  have hnone : entryResult s = none := (entryResult_of_compressed hcompressed).trans hinflate
  have hd := State.decipherInPlace_payloadDeciphered hc hu
  have hexec := exec_extract hc
  obtain ⟨hpayload, houtside⟩ := hd.placeResult hc
  rw [hnone, State.placeResult_none (hd.undisturbed hu)] at hexec hpayload houtside
  refine ⟨_, hexec, ?_, hpayload, fun x hlo hhi => ⟨s.draws, Nat.le_refl _, ?_⟩, houtside⟩
  · rw [hd.frame]
    rfl
  · obtain ⟨_, _, hrs⟩ := hc.sizes
    rw [State.byteAt_endUnspecified_inside _ _ ?_, State.decipherInPlace_draws hu]
    rw [State.decipherInPlace_rsizeNat, State.opDst, State.decipherInPlace_dst, hrs]
    exact ⟨hlo, hhi⟩

/-! ## What the result depends on -/

theorem ecode_endUnspecified_false (d : State) : (d.endUnspecified false).ecode = 0x05#8 := rfl

/-- An `EXTRACT` that completes with code 0x00 passed its checks and placed what its entry gives. -/
theorem extractsTo_of_success {s t : State} (hu : s.undisturbed) (ht : exec .extract s = .next t)
    (hok : t.ecode = 0x00#8) : ∃ out, entryResult s = some out ∧ ExtractsTo s t out := by
  have hc : extractChecksPass s := by
    rw [← checkExtract_eq_none_iff]
    cases hcheck : checkExtract s with
    | none => rfl
    | some e =>
      rw [exec_next.1 ht, endState_error (i := .extract) hcheck] at hok
      exact absurd hok ((completionCode_ne_zero (some e)).2 nofun)
  have hd := State.decipherInPlace_payloadDeciphered hc hu
  rw [exec_extract hc, Host.Outcome.next.injEq] at ht
  cases hres : entryResult s with
  | none =>
    rw [← ht, hres, State.placeResult_none (hd.undisturbed hu), ecode_endUnspecified_false] at hok
    exact absurd hok (by decide)
  | some out =>
    rw [hres] at ht
    rw [← ht]
    exact ⟨out, rfl, hd.extractsTo hc hu hres⟩

/-- Settles O25: both runs decipher the same payload, which gives the same result. -/
theorem extractDependsOnlyOnPayload : Obligations.ExtractDependsOnlyOnPayload := by
  intro s u s' u' htables hlen hcsize hrsize htyp hread hus huu hs hu hsok huok
  have hplain : plainPayload s = plainPayload u := by
    rw [plainPayload, plainPayload, hread, htables, htyp, hcsize]
  have hresult : entryResult s = entryResult u := by
    rw [entryResult, entryResult, hplain, hcsize, hrsize]
  obtain ⟨out, hout, hframe, hpayload, hplaced, _⟩ := extractsTo_of_success hus hs hsok
  obtain ⟨out', hout', hframe', hpayload', hplaced', _⟩ := extractsTo_of_success huu hu huok
  refine ⟨?_, ?_, ?_, fun hmixed => ?_⟩
  · rw [hplaced, hplaced']
    exact Option.some.inj (hout.symm.trans (hresult.trans hout'))
  · rw [hpayload, hpayload', hplain]
  · rw [hframe, hframe']
    exact hrsize
  · have hcycle : cycleAfterMode s = cycleAfterMode u := by
      rw [cycleAfterMode, cycleAfterMode, if_pos hmixed, if_pos (htyp ▸ hmixed), hcsize]
    rw [hframe, hframe']
    exact hcycle

/-! ## `EXTRACT` as `DECIPHER` and then `INFLATE` -/

/-- A completion before the result is placed leaves no trace: the completion that follows sets the same fields again. -/
theorem State.placeResult_finish {d : State} (hu : d.undisturbed) (r : Option (List Byte)) :
    d.finish.placeResult r = d.placeResult r := by
  cases r with
  | none =>
    rw [State.placeResult_none hu, State.placeResult_none ⟨rfl, rfl⟩]
    rfl
  | some out =>
    rw [State.placeResult_some hu, State.placeResult_some ⟨rfl, rfl⟩]
    rfl

/-- The checks of `INFLATE` pass where those of `EXTRACT` do: its input range is a part of the payload. -/
theorem checkInflate_of_extractChecksPass {s : State} (hc : extractChecksPass s) : checkInflate s = none := by
  obtain ⟨_, hcs, hrs⟩ := hc.sizes
  obtain ⟨_, hcsize, hrsize, _, hcl, hsrc, hdst, hsep⟩ := hc
  rw [checkInflate_none, hcs, hrs, ← Bool.not_eq_true, overlap_iff]
  have hend : s.src.toNat + s.csize.toNat ≤ s.src.toNat + s.len.toNat := Nat.add_le_add_left hcl _
  exact ⟨hcsize, hrsize, hend.trans hsrc, hdst, fun h => hsep (h.trans_le (min_le_min_right _ hend))⟩

theorem exec_decipher_of_extractChecksPass {s : State} (hc : extractChecksPass s) :
    exec .decipher s = .next (s.decipherInPlace s.mode).finish := by
  obtain ⟨hlen, hcs, _, h8, _, hsrc, _⟩ := hc
  exact exec_decipher_of_mode rfl hlen hsrc (fun hm => h8 (State.mode_ne_none.1 hm)) fun _ => hcs

/-- `INFLATE` reads registers that deciphering keeps, and the deciphered bytes. -/
theorem PayloadDeciphered.exec_inflate {s d : State} (h : PayloadDeciphered s d) (hc : extractChecksPass s)
    (hu : s.undisturbed) :
    exec .inflate d.finish =
      .next (d.placeResult (zinflate ((plainPayload s).take s.csize.toNat) s.rsize.toNat)) := by
  have hcheck : checkInflate d.finish = none := by
    rw [h.frame]
    exact checkInflate_of_extractChecksPass (s := s) hc
  have hregs : d.finish.opSrc = s.src.toNat ∧ d.finish.csizeNat = s.csizeNat ∧ d.finish.rsizeNat = s.rsizeNat := by
    rw [h.frame]
    exact ⟨rfl, rfl, rfl⟩
  obtain ⟨hsrc, hcs, hrs⟩ := hregs
  obtain ⟨_, hcsize, hrsize⟩ := hc.sizes
  have hstream : d.finish.memRead s.src.toNat s.csize.toNat = (plainPayload s).take s.csize.toNat := h.stream hc
  rw [exec_of_check_none (i := .inflate) hcheck, executed, hsrc, hcs, hrs, hcsize, hrsize, hstream,
    State.placeResult_finish (h.undisturbed hu)]

/-- Settles O26: `DECIPHER` leaves the state over which `EXTRACT` places its result, but for the status fields, which
`INFLATE` sets again. -/
theorem extractIsDecipherThenInflate : Obligations.ExtractIsDecipherThenInflate := by
  intro s hc hu hcompressed
  have hd := State.decipherInPlace_payloadDeciphered hc hu
  refine ⟨_, _, exec_decipher_of_extractChecksPass hc, hd.exec_inflate hc hu, ?_⟩
  rw [exec_extract hc, entryResult_of_compressed hcompressed]

end Sys2Proof.Machine
end

section
/-! PROOFS. How the decoder reads its input (43_inflate.md R192, R206, R207): the bits of one little-endian integer, read
forward and only as far as needed, so that larger bounds and input after the stream change no answer. -/

namespace Sys2Proof.Machine
open Sys2Proof

/-! ## Bits of the input (43_inflate.md R192) -/

/-- Dropping bytes divides the little-endian integer. -/
theorem leNat_drop (s : List Byte) (k : Nat) : leNat (s.drop k) = leNat s / 2 ^ (8 * k) := by
  induction k generalizing s with
  | zero => simp
  | succ k ih =>
    cases s with
    | nil => simp [leNat]
    | cons b bs =>
      have hhead : (b.toNat + 256 * leNat bs) / 256 = leNat bs := by omega
      rw [List.drop_succ_cons, ih, leNat, Nat.mul_succ, Nat.add_comm (8 * k), Nat.pow_add, ← Nat.div_div_eq_div_mul]
      exact congrArg (· / 2 ^ (8 * k)) hhead.symm

theorem leNat_lt (s : List Byte) : leNat s < 2 ^ (8 * s.length) := by
  have h := leNat_drop s s.length
  rw [List.drop_length, leNat] at h
  exact Nat.lt_of_div_eq_zero (Nat.two_pow_pos _) h.symm

/-- The first byte is the lowest digit; past the end the digits are 0. -/
theorem leNat_mod (s : List Byte) : leNat s % 2 ^ 8 = (s.getD 0 0#8).toNat := by
  cases s with
  | nil => rfl
  | cons b bs =>
    rw [leNat, List.getD_cons_zero]
    omega

/-- A byte of the input as a digit of the little-endian integer. -/
theorem toNat_getD (s : List Byte) (k : Nat) : (s.getD k 0#8).toNat = leNat s / 2 ^ (8 * k) % 2 ^ 8 := by
  rw [← leNat_drop, leNat_mod]
  simp

/-- `getbit()` reads a bit of the input as one little-endian integer. -/
theorem getBit_eq (s : List Byte) (pos : Nat) :
    getBit s pos = if pos < 8 * s.length then some (leNat s / 2 ^ pos % 2, pos + 1) else none := by
  have hbit : ((s.getD (pos >>> 3) 0#8).toNat >>> (pos &&& 7)) &&& 1 = leNat s / 2 ^ pos % 2 := by
    have hsplit : 2 ^ pos = 2 ^ (8 * (pos / 8)) * 2 ^ (pos % 8) := by rw [← Nat.pow_add, Nat.div_add_mod]
    have hdigit : 2 ^ 8 = 2 ^ (pos % 8) * (2 * 2 ^ (7 - pos % 8)) := by
      rw [← Nat.pow_succ', ← Nat.pow_add]
      congr 1
      omega
    rw [toNat_getD, Nat.and_one_is_mod, Nat.shiftRight_eq_div_pow, Nat.shiftRight_eq_div_pow,
      Nat.and_two_pow_sub_one_eq_mod pos 3, hsplit, ← Nat.div_div_eq_div_mul, hdigit]
    exact (congrArg (· % 2) (Nat.mod_mul_right_div_self _ _ _)).trans (Nat.mod_mul_right_mod _ _ _)
  rw [getBit, hbit]
  by_cases h : pos < 8 * s.length
  · rw [if_pos h, if_neg (by omega)]
  · rw [if_neg h, if_pos (by omega)]

/-- Settles O43, by induction on the count: the first bit is the lowest digit, the others are the quotient's. -/
theorem getbitsReadsLeastSignificantFirst : Obligations.GetbitsReadsLeastSignificantFirst := by
  intro s n pos
  induction n generalizing pos with
  | zero => simp [getBits, Nat.mod_one]
  | succ n ih =>
    rw [getBits, getBit_eq]
    by_cases h : pos < 8 * s.length
    · have hvalue : leNat s / 2 ^ pos % 2 ^ (n + 1) =
          leNat s / 2 ^ pos % 2 + 2 * (leNat s / 2 ^ (pos + 1) % 2 ^ n) := by
        rw [Nat.pow_succ', Nat.mod_mul, Nat.pow_succ, Nat.div_div_eq_div_mul]
      rw [if_pos h, hvalue]
      simp only [Option.bind_eq_bind, Option.bind_some, ih]
      by_cases hn : n = 0 ∨ pos + 1 + n ≤ 8 * s.length
      · rw [if_pos hn, if_pos (by omega), Option.bind_some, Nat.add_right_comm, Nat.add_assoc pos]
      · rw [if_neg hn, if_neg (by omega)]
        rfl
    · rw [if_neg h, if_neg (by omega)]
      rfl

/-! ## The decoder reads forward, and only what it needs

One walk over the decoder gives both: no part of it goes back in the input, and none looks past the bytes it reads. -/

/-- `x` and `y` are one read, from `pos` on, of an input and of a longer one; `stop` is where it ends. If it succeeds on
the first, it ends at or after `pos` and gives the same on the second. -/
def ReadsFrom {α : Type} (pos : Nat) (stop : α → Nat) (x y : Option α) : Prop :=
  ∀ r, x = some r → pos ≤ stop r ∧ y = some r

namespace ReadsFrom
variable {α β : Type} {pos : Nat} {mid : β → Nat} {stop : α → Nat} {x y : Option α}

theorem fail (y : Option α) : ReadsFrom pos stop none y := nofun

theorem done {a : α} (h : pos ≤ stop a) : ReadsFrom pos stop (some a) (some a) := by
  rintro r ⟨⟩
  exact ⟨h, rfl⟩

theorem of_le {pos' : Nat} (h : ReadsFrom pos' stop x y) (hle : pos ≤ pos') : ReadsFrom pos stop x y := fun r hr =>
  ⟨hle.trans (h r hr).1, (h r hr).2⟩

/-- One read after another. -/
theorem bind {x y : Option β} {f g : β → Option α} (h : ReadsFrom pos mid x y)
    (hf : ∀ b, ReadsFrom (mid b) stop (f b) (g b)) : ReadsFrom pos stop (x >>= f) (y >>= g) := by
  intro r hr
  obtain ⟨b, hb, hr⟩ := Option.bind_eq_some_iff.1 hr
  obtain ⟨hmid, hy⟩ := h b hb
  obtain ⟨hstop, hg⟩ := hf b r hr
  exact ⟨hmid.trans hstop, Option.bind_eq_some_iff.2 ⟨b, hy, hg⟩⟩

/-- A step that reads no input. -/
theorem bind_pure (o : Option β) {f g : β → Option α} (hf : ∀ b, ReadsFrom pos stop (f b) (g b)) :
    ReadsFrom pos stop (o >>= f) (o >>= g) :=
  bind (mid := fun _ => pos) (fun _ hb => ⟨Nat.le_refl pos, hb⟩) hf

theorem ite {c : Prop} [Decidable c] {x' y' : Option α} (h : ReadsFrom pos stop x y) (h' : ReadsFrom pos stop x' y') :
    ReadsFrom pos stop (if c then x else x') (if c then y else y') := by
  by_cases hc : c
  · rwa [if_pos hc, if_pos hc]
  · rwa [if_neg hc, if_neg hc]

/-- A check that reads no input. -/
theorem guard {c : Prop} [Decidable c] (h : ReadsFrom pos stop x y) :
    ReadsFrom pos stop (if c then none else x) (if c then none else y) := ite (fail _) h

end ReadsFrom

section Walk
variable (s extra : List Byte)

theorem getBit_readsFrom (pos : Nat) : ReadsFrom (pos + 1) Prod.snd (getBit s pos) (getBit (s ++ extra) pos) := by
  intro r hr
  rw [getBit, Option.ite_none_left_eq_some] at hr
  obtain ⟨hpos, hr⟩ := hr
  have hbyte : pos >>> 3 < s.length := by
    rw [Nat.shiftRight_eq_div_pow]
    omega
  rw [getBit, List.length_append, if_neg (by omega), List.getD_append _ _ _ _ hbyte]
  cases hr
  exact ⟨Nat.le_refl _, rfl⟩

theorem getBits_readsFrom (n pos : Nat) : ReadsFrom pos Prod.snd (getBits s n pos) (getBits (s ++ extra) n pos) := by
  induction n generalizing pos with
  | zero => exact .done (Nat.le_refl pos)
  | succ n ih =>
    simp only [getBits]
    exact ((getBit_readsFrom s extra pos).of_le (Nat.le_succ pos)).bind fun (_, p) =>
      (ih p).bind fun _ => .done (Nat.le_refl _)

theorem le_alignByte (pos : Nat) : pos ≤ alignByte pos := by
  unfold alignByte
  omega

theorem zlibHeader_readsFrom : ReadsFrom 0 id (zlibHeader s) (zlibHeader (s ++ extra)) :=
  (getBits_readsFrom s extra 8 0).bind fun (_, p) => (getBits_readsFrom s extra 8 p).bind fun _ =>
    .guard (.done (Nat.le_refl _))

theorem decodeSymIn_readsFrom (rows : List (Nat × List Nat)) (c pos : Nat) :
    ReadsFrom (pos + 1) Prod.snd (decodeSymIn s rows c pos) (decodeSymIn (s ++ extra) rows c pos) := by
  induction rows generalizing c pos with
  | nil => exact .fail _
  | cons row rows ih =>
    refine (getBit_readsFrom s extra pos).bind fun (b, p) => ?_
    dsimp only
    cases symbolAt row ((c <<< 1) ||| b) with
    | none => exact (ih _ p).of_le (Nat.le_succ p)
    | some sym => exact .done (Nat.le_refl p)

/-- A symbol takes at least one bit. -/
theorem decodeSym_readsFrom (code : Huffman) (pos : Nat) :
    ReadsFrom (pos + 1) Prod.snd (decodeSym s code pos) (decodeSym (s ++ extra) code pos) :=
  decodeSymIn_readsFrom s extra code.rows 0 pos

theorem copyStored_readsFrom (rs len pos : Nat) (out : List Byte) :
    ReadsFrom pos Prod.fst (copyStored s rs len pos out) (copyStored (s ++ extra) rs len pos out) := by
  induction len generalizing pos out with
  | zero => exact .done (Nat.le_refl pos)
  | succ len ih => exact (getBits_readsFrom s extra 8 pos).bind fun (_, p) => .bind_pure _ fun out' => ih p out'

theorem storedBlock_readsFrom (rs pos : Nat) (out : List Byte) :
    ReadsFrom pos Prod.fst (storedBlock s rs pos out) (storedBlock (s ++ extra) rs pos out) :=
  ((getBits_readsFrom s extra 16 (alignByte pos)).of_le (le_alignByte pos)).bind fun (len, p) =>
    (getBits_readsFrom s extra 16 p).bind fun (_, q) => .guard (copyStored_readsFrom s extra rs len q out)

theorem readCodeLengthLengths_readsFrom (order : List Nat) (pos : Nat) (cl : List Nat) :
    ReadsFrom pos Prod.snd (readCodeLengthLengths s order pos cl)
      (readCodeLengthLengths (s ++ extra) order pos cl) := by
  induction order generalizing pos cl with
  | nil => exact .done (Nat.le_refl pos)
  | cons sym order ih => exact (getBits_readsFrom s extra 3 pos).bind fun (_, p) => ih p _

theorem repeatOf_readsFrom (sym : Nat) (prev : Option Nat) (pos : Nat) :
    ReadsFrom pos (·.2.2) (repeatOf s sym prev pos) (repeatOf (s ++ extra) sym prev pos) :=
  .ite (.bind_pure prev fun _ => (getBits_readsFrom s extra 2 pos).bind fun _ => .done (Nat.le_refl _))
    (.ite ((getBits_readsFrom s extra 3 pos).bind fun _ => .done (Nat.le_refl _))
      ((getBits_readsFrom s extra 7 pos).bind fun _ => .done (Nat.le_refl _)))

theorem readLengths_readsFrom (code : Huffman) (total fuel pos : Nat) (acc : List Nat) :
    ReadsFrom pos Prod.snd (readLengths s code total fuel pos acc)
      (readLengths (s ++ extra) code total fuel pos acc) := by
  induction fuel generalizing pos acc with
  | zero => exact .fail _
  | succ fuel ih =>
    exact .ite (.done (Nat.le_refl pos))
      (((decodeSym_readsFrom s extra code pos).of_le (Nat.le_succ pos)).bind fun (sym, p) =>
        .ite (ih p _) ((repeatOf_readsFrom s extra sym acc.head? p).bind fun (_, _, q) => .guard (ih q _)))

theorem dynamicHeader_readsFrom (pos : Nat) :
    ReadsFrom pos (·.2.2) (dynamicHeader s pos) (dynamicHeader (s ++ extra) pos) :=
  (getBits_readsFrom s extra 5 pos).bind fun (_, p1) => (getBits_readsFrom s extra 5 p1).bind fun (_, p2) =>
    (getBits_readsFrom s extra 4 p2).bind fun (_, p3) => .guard <|
      (readCodeLengthLengths_readsFrom s extra _ p3 _).bind fun (_, p4) => .bind_pure _ fun clcode => .guard <|
        (readLengths_readsFrom s extra clcode _ _ p4 []).bind fun _ => .guard <|
          .bind_pure _ fun _ => .bind_pure _ fun _ => .ite (.done (Nat.le_refl _)) (.fail _)

theorem baseAndExtra_readsFrom (entry : Nat × Nat) (pos : Nat) :
    ReadsFrom pos Prod.snd (baseAndExtra s entry pos) (baseAndExtra (s ++ extra) entry pos) :=
  (getBits_readsFrom s extra entry.2 pos).bind fun _ => .done (Nat.le_refl _)

theorem matchCopy_readsFrom (rs : Nat) (dist : Huffman) (sym pos : Nat) (out : List Byte) :
    ReadsFrom pos Prod.fst (matchCopy s rs dist sym pos out) (matchCopy (s ++ extra) rs dist sym pos out) :=
  (baseAndExtra_readsFrom s extra _ pos).bind fun (_, p1) =>
    ((decodeSym_readsFrom s extra dist p1).of_le (Nat.le_succ p1)).bind fun (_, p2) => .guard <|
      (baseAndExtra_readsFrom s extra _ p2).bind fun _ => .guard <| .bind_pure _ fun _ => .done (Nat.le_refl _)

theorem codes_readsFrom (rs : Nat) (lit dist : Huffman) (fuel pos : Nat) (out : List Byte) :
    ReadsFrom pos Prod.fst (codes s rs lit dist fuel pos out) (codes (s ++ extra) rs lit dist fuel pos out) := by
  induction fuel generalizing pos out with
  | zero => exact .fail _
  | succ fuel ih =>
    exact ((decodeSym_readsFrom s extra lit pos).of_le (Nat.le_succ pos)).bind fun (sym, p) =>
      .ite (.bind_pure _ fun out' => ih p out') <| .ite (.done (Nat.le_refl p)) <| .guard <|
        (matchCopy_readsFrom s extra rs dist sym p out).bind fun (q, out') => ih q out'

theorem blockBody_readsFrom (rs fuel btype pos : Nat) (out : List Byte) :
    ReadsFrom pos Prod.fst (blockBody s rs fuel btype pos out) (blockBody (s ++ extra) rs fuel btype pos out) :=
  .ite (storedBlock_readsFrom s extra rs pos out) <|
    .ite (.bind_pure _ fun lit => .bind_pure _ fun dist => codes_readsFrom s extra rs lit dist fuel pos out) <|
      .ite ((dynamicHeader_readsFrom s extra pos).bind fun (lit, dist, p) =>
        codes_readsFrom s extra rs lit dist fuel p out) (.fail _)

theorem blockLoop_readsFrom (rs symFuel fuel pos : Nat) (out : List Byte) :
    ReadsFrom pos Prod.fst (blockLoop s rs symFuel fuel pos out) (blockLoop (s ++ extra) rs symFuel fuel pos out) := by
  induction fuel generalizing pos out with
  | zero => exact .fail _
  | succ fuel ih =>
    exact (getBits_readsFrom s extra 1 pos).bind fun (_, p) => (getBits_readsFrom s extra 2 p).bind fun (btype, q) =>
      (blockBody_readsFrom s extra rs symFuel btype q out).bind fun (r, out') =>
        .ite (.done (Nat.le_refl r)) (ih r out')

end Walk

/-! ## The bounds on the loops (43_inflate.md R207) -/

theorem getBits_pos {s : List Byte} {n pos v p : Nat} (h : getBits s n pos = some (v, p)) : p = pos + n := by
  rw [getbitsReadsLeastSignificantFirst, Option.ite_none_right_eq_some, Option.some.injEq, Prod.mk.injEq] at h
  obtain ⟨_, _, hp⟩ := h
  exact hp.symm

theorem getBits_overrun {s : List Byte} {n pos : Nat} (hn : 0 < n) (h : 8 * s.length ≤ pos) :
    getBits s n pos = none := by
  rw [getbitsReadsLeastSignificantFirst, if_neg (by omega)]

theorem decodeSym_overrun {s : List Byte} {pos : Nat} (code : Huffman) (h : 8 * s.length ≤ pos) :
    decodeSym s code pos = none := by
  rw [decodeSym]
  cases code.rows with
  | nil => rfl
  | cons row rows => simp [decodeSymIn, getBit, h]

theorem decodeSym_pos {s : List Byte} {code : Huffman} {pos sym p : Nat} (h : decodeSym s code pos = some (sym, p)) :
    pos < p := (decodeSym_readsFrom s [] code pos _ h).1

/-- Where the passes left exceed the bits left, more passes change nothing: each symbol takes a bit. -/
theorem codes_add_fuel {s : List Byte} {fuel pos : Nat} (h : 8 * s.length < fuel + pos) (k rs : Nat)
    (lit dist : Huffman) (out : List Byte) :
    codes s rs lit dist (fuel + k) pos out = codes s rs lit dist fuel pos out := by
  induction fuel generalizing pos out with
  | zero =>
    cases k with
    | zero => rfl
    | succ k => simp [codes, decodeSym_overrun lit (show 8 * s.length ≤ pos by omega)]
  | succ fuel ih =>
    rw [Nat.add_right_comm, codes, codes]
    refine Option.bind_congr fun (sym, p) hsym => ?_
    have hp := decodeSym_pos hsym
    have hmatch (q : Nat) (out' : List Byte) (hcopy : matchCopy s rs dist sym p out = some (q, out')) :
        codes s rs lit dist (fuel + k) q out' = codes s rs lit dist fuel q out' := by
      have hq : p ≤ q := (matchCopy_readsFrom s [] rs dist sym p out _ hcopy).1
      exact ih (by omega) out'
    exact if_congr Iff.rfl (Option.bind_congr fun out' _ => ih (by omega) out') <|
      if_congr Iff.rfl rfl <| if_congr Iff.rfl rfl <| Option.bind_congr fun (q, out') hcopy => hmatch q out' hcopy

theorem blockBody_add_fuel {s : List Byte} {fuel pos : Nat} (h : 8 * s.length < fuel + pos) (k rs btype : Nat)
    (out : List Byte) : blockBody s rs (fuel + k) btype pos out = blockBody s rs fuel btype pos out := by
  have hdynamic (lit dist : Huffman) (p : Nat) (hheader : dynamicHeader s pos = some (lit, dist, p)) :
      codes s rs lit dist (fuel + k) p out = codes s rs lit dist fuel p out := by
    have hp : pos ≤ p := (dynamicHeader_readsFrom s [] pos _ hheader).1
    exact codes_add_fuel (by omega) k rs lit dist out
  exact if_congr Iff.rfl rfl <|
    if_congr Iff.rfl
      (Option.bind_congr fun lit _ => Option.bind_congr fun dist _ => codes_add_fuel h k rs lit dist out) <|
    if_congr Iff.rfl (Option.bind_congr fun (lit, dist, p) hheader => hdynamic lit dist p hheader) rfl

/-- The block loop likewise: each block takes its three header bits. -/
theorem blockLoop_add_fuel {s : List Byte} {symFuel fuel pos : Nat} (hsym : 8 * s.length < symFuel + pos)
    (h : 8 * s.length < fuel + pos) (k rs : Nat) (out : List Byte) :
    blockLoop s rs (symFuel + k) (fuel + k) pos out = blockLoop s rs symFuel fuel pos out := by
  induction fuel generalizing pos out with
  | zero =>
    cases k with
    | zero => rfl
    | succ k => simp [blockLoop, getBits_overrun Nat.one_pos (show 8 * s.length ≤ pos by omega)]
  | succ fuel ih =>
    rw [Nat.add_right_comm, blockLoop, blockLoop]
    refine Option.bind_congr fun (bfinal, p) hfinal => Option.bind_congr fun (btype, q) htype => ?_
    have hp := getBits_pos hfinal
    have hq := getBits_pos htype
    dsimp only
    rw [blockBody_add_fuel (by omega)]
    refine Option.bind_congr fun (r, out') hbody => ?_
    have hr : q ≤ r := (blockBody_readsFrom s [] rs symFuel btype q out _ hbody).1
    dsimp only
    rw [ih (by omega) (by omega)]

/-- Every bound above the bits of the input gives the same answer. -/
theorem zinflateWithin_of_le {s : List Byte} {fuel : Nat} (h : 8 * s.length < fuel) (rs : Nat) :
    zinflateWithin fuel s rs = zinflate s rs := by
  obtain ⟨k, rfl⟩ := Nat.exists_eq_add_of_le h
  have hloop (start : Nat) :
      blockLoop s rs (8 * s.length + 1 + k) (8 * s.length + 1 + k) start [] =
        blockLoop s rs (8 * s.length + 1) (8 * s.length + 1) start [] :=
    blockLoop_add_fuel (by omega) (by omega) k rs []
  simp only [zinflate, zinflateWithin, hloop, Nat.succ_eq_add_one]

/-- A repeat symbol adds at least one length. -/
theorem repeatOf_count {s : List Byte} {sym pos v r q : Nat} {prev : Option Nat}
    (h : repeatOf s sym prev pos = some (v, r, q)) : 0 < r := by
  rw [repeatOf] at h
  split at h
  · obtain ⟨_, _, h⟩ := Option.bind_eq_some_iff.1 h
    obtain ⟨_, _, h⟩ := Option.bind_eq_some_iff.1 h
    cases h
    omega
  · split at h
    · obtain ⟨_, _, h⟩ := Option.bind_eq_some_iff.1 h
      cases h
      omega
    · obtain ⟨_, _, h⟩ := Option.bind_eq_some_iff.1 h
      cases h
      omega

/-- Where the passes left exceed the lengths missing, more passes change nothing: each pass adds a length. -/
theorem readLengths_add_fuel {fuel total : Nat} {acc : List Nat} (h : total < fuel + acc.length)
    (hacc : acc.length ≤ total) (s : List Byte) (code : Huffman) (pos k : Nat) :
    readLengths s code total (fuel + k) pos acc = readLengths s code total fuel pos acc := by
  induction fuel generalizing pos acc with
  | zero => omega
  | succ fuel ih =>
    rw [Nat.add_right_comm, readLengths, readLengths]
    by_cases hdone : total ≤ acc.length
    · rw [if_pos hdone, if_pos hdone]
    rw [if_neg hdone, if_neg hdone]
    refine Option.bind_congr fun (sym, p) _ => if_congr Iff.rfl ?_ (Option.bind_congr fun (v, r, q) hrep => ?_)
    · have hlen : (sym :: acc).length = acc.length + 1 := rfl
      exact ih (by omega) (by omega) p
    · have hr := repeatOf_count hrep
      dsimp only
      by_cases hfull : total < acc.length + r
      · rw [if_pos hfull, if_pos hfull]
      · have hlen : (List.replicate r v ++ acc).length = r + acc.length := by simp
        rw [if_neg hfull, if_neg hfull]
        exact ih (by omega) (by omega) q

/-- Settles O41: every pass takes a bit of the input, or adds one of the lengths. -/
theorem zinflateBoundSuffices : Obligations.ZinflateBoundSuffices :=
  ⟨fun _ rs _ => zinflateWithin_of_le (by omega) rs,
    fun s code total pos k =>
      readLengths_add_fuel (acc := []) (Nat.lt_succ_self total) (Nat.zero_le total) s code pos k⟩

/-! ## Input after the stream (43_inflate.md R206) -/

/-- The trailer is four bytes, so more input after them changes nothing. -/
theorem trailerOk_append {s : List Byte} {pos : Nat} {out : List Byte} (h : trailerOk s pos out = true)
    (extra : List Byte) : trailerOk (s ++ extra) pos out = true := by
  have hfour : ((s.drop (alignByte pos / 8)).take 4).length = 4 := by
    rw [trailerOk, Bool.and_eq_true, beq_iff_eq] at h
    exact h.1
  have hleft : 4 ≤ (s.drop (alignByte pos / 8)).length := by
    rw [List.length_take] at hfour
    omega
  have hsame : ((s ++ extra).drop (alignByte pos / 8)).take 4 = (s.drop (alignByte pos / 8)).take 4 := by
    rw [List.drop_append_of_le_length (by rw [List.length_drop] at hleft; omega), List.take_append_of_le_length hleft]
  rwa [trailerOk, hsame]

theorem zinflateWithin_append {fuel rs : Nat} {s r : List Byte} (h : zinflateWithin fuel s rs = some r)
    (extra : List Byte) : zinflateWithin fuel (s ++ extra) rs = some r := by
  obtain ⟨start, hstart, h⟩ := Option.bind_eq_some_iff.1 h
  obtain ⟨⟨pos, out⟩, hloop, h⟩ := Option.bind_eq_some_iff.1 h
  rw [Option.ite_none_right_eq_some, Bool.and_eq_true] at h
  obtain ⟨⟨htrailer, hlen⟩, hr⟩ := h
  obtain ⟨_, hstart'⟩ := zlibHeader_readsFrom s extra start hstart
  obtain ⟨_, hloop'⟩ := blockLoop_readsFrom s extra rs fuel fuel start [] _ hloop
  have hcheck := Bool.and_eq_true_iff.2 ⟨trailerOk_append htrailer extra, hlen⟩
  rw [zinflateWithin, hstart', Option.bind_eq_bind, Option.bind_some, hloop', Option.bind_eq_bind, Option.bind_some]
  exact (if_pos hcheck).trans hr

/-- Settles O40: the longer input's bound gives the same answer on the shorter input, and at an equal bound the decoder
reads only what it needs. -/
theorem zinflateIgnoresTrailingInput : Obligations.ZinflateIgnoresTrailingInput := by
  intro s extra rs r h
  rw [← zinflateWithin_of_le (fuel := 8 * (s ++ extra).length + 1) (by rw [List.length_append]; omega)] at h
  exact zinflateWithin_append h extra

end Sys2Proof.Machine
end

section
/-! PROOFS. What the parts of the decoder give: the symbol of a canonical code, a back-reference copy, the checksum, and
a stream of one stored block (43_inflate.md R194 to R198, R202, R205). -/

namespace Sys2Proof.Machine
open Sys2Proof

/-! ## Canonical codes (43_inflate.md R196) -/

/-- A row of a code as the rule's own construction gives it: the first code of a length, and that length's symbols. -/
def specRow (lens : List Nat) (l : Nat) : Nat × List Nat := (specFirstCode lens l, symbolsOf l 0 lens)

/-- The running code of `BUILD` is the rule's `next[l]` at each length. -/
theorem codeRows_range' (lens : List Nat) (l n : Nat) :
    codeRows lens (List.range' (l + 1) n) (specFirstCode lens l) (if l = 0 then 0 else lens.count l) =
      (List.range' (l + 1) n).map (specRow lens) := by
  induction n generalizing l with
  | zero => rfl
  | succ n ih =>
    rw [List.range'_succ, codeRows, List.map_cons, ← ih (l + 1), if_neg (Nat.succ_ne_zero l)]
    rfl

theorem codeRows_codeLengths (lens : List Nat) : codeRows lens codeLengths 0 0 = codeLengths.map (specRow lens) :=
  codeRows_range' lens 0 15

theorem buildCode_rows {lens : List Nat} {h : Huffman} (hb : buildCode lens = some h) :
    h.rows = codeLengths.map (specRow lens) := by
  obtain ⟨left, _, hb⟩ := Option.bind_eq_some_iff.1 hb
  cases hb
  exact codeRows_codeLengths lens

theorem symbolAt_cons_self (a sym : Nat) (syms : List Nat) : symbolAt (a, sym :: syms) a = some sym := by
  simp [symbolAt]

theorem symbolAt_cons_of_ne {a c : Nat} (h : c ≠ a) (sym : Nat) (syms : List Nat) :
    symbolAt (a, sym :: syms) c = symbolAt (a + 1, syms) c := by
  by_cases hle : a + 1 ≤ c
  · have hsub : c - a = c - (a + 1) + 1 := by omega
    simp only [symbolAt, if_pos hle, if_pos (Nat.le_of_succ_le hle), hsub, List.getElem?_cons_succ]
  · simp only [symbolAt, if_neg hle]
    rw [if_neg (by omega)]

/-- Symbols of one length get consecutive codes in increasing order: a code is found at its distance from the first. -/
theorem symbolAt_symbolsOf {l : Nat} (hl : l ≠ 0) (c : Nat) (next : Nat → Nat) (lens : List Nat) (sym : Nat) :
    symbolAt (next l, symbolsOf l sym lens) c =
      ((specAssign next lens).findIdx? fun e => e == (l, c)).map (sym + ·) := by
  induction lens generalizing next sym with
  | nil => simp [specAssign, symbolsOf, symbolAt]
  | cons x lens ih =>
    have hlater (next' : Nat → Nat) :
        symbolAt (next' l, symbolsOf l (sym + 1) lens) c =
          (((specAssign next' lens).findIdx? fun e => e == (l, c)).map (· + 1)).map (sym + ·) := by
      rw [ih, Option.map_map]
      refine Option.map_congr fun k _ => ?_
      show sym + 1 + k = sym + (k + 1)
      omega
    rw [symbolsOf, specAssign]
    by_cases hx : x = l
    · subst hx
      rw [if_pos rfl, if_neg hl, List.findIdx?_cons]
      by_cases hc : c = next x
      · rw [hc, symbolAt_cons_self, beq_self_eq_true]
        rfl
      · have hmiss : ((x, next x) == (x, c)) = false := by simpa using Ne.symm hc
        have hnext := hlater fun m => if m = x then next m + 1 else next m
        rw [if_pos rfl] at hnext
        rw [symbolAt_cons_of_ne hc, hmiss, hnext]
        rfl
    · have hmiss (v : Nat) : ((x, v) == (l, c)) = false := by simp [hx]
      rw [if_neg hx]
      by_cases hzero : x = 0
      · subst hzero
        rw [if_pos rfl, List.findIdx?_cons, hmiss, hlater next]
        rfl
      · have hnext := hlater fun m => if m = x then next m + 1 else next m
        rw [if_neg (Ne.symm hx)] at hnext
        rw [if_neg hzero, List.findIdx?_cons, hmiss, hnext]
        rfl

/-- Row by row, the decoder finds what the rule's search of the assignment finds. -/
theorem decodeSymIn_specRows {lens ls : List Nat} (h : ∀ l ∈ ls, l ≠ 0) (s : List Byte) (c pos : Nat) :
    decodeSymIn s (ls.map (specRow lens)) c pos =
      specDecodeSym s (specAssign (specFirstCode lens) lens) ls c pos := by
  induction ls generalizing c pos with
  | nil => rfl
  | cons l ls ih =>
    rw [List.map_cons, decodeSymIn, specDecodeSym]
    cases getBit s pos with
    | none => rfl
    | some r =>
      obtain ⟨b, p⟩ := r
      have hfind : symbolAt (specRow lens l) ((c <<< 1) ||| b) =
          (specAssign (specFirstCode lens) lens).findIdx? fun e => e == (l, (c <<< 1) ||| b) := by
        rw [specRow, symbolAt_symbolsOf (h l List.mem_cons_self)]
        simp
      have hrest := ih (fun l' hl' => h l' (List.mem_cons_of_mem l hl')) ((c <<< 1) ||| b) p
      rw [Option.bind_eq_bind, Option.bind_some]
      dsimp only
      rw [hfind]
      cases (specAssign (specFirstCode lens) lens).findIdx? fun e => e == (l, (c <<< 1) ||| b) with
      | none => exact hrest
      | some sym => exact rfl

/-- Settles O44: the rows are the rule's own, and each finds the symbol that the rule's assignment finds. -/
theorem huffmanDecodingFollowsAssignment : Obligations.HuffmanDecodingFollowsAssignment := by
  intro s lens h pos hb
  rw [decodeSym, buildCode_rows hb]
  exact decodeSymIn_specRows (by decide) s 0 pos

/-! ## Back-references (43_inflate.md R202, R193) -/

theorem emit_of_full {rs : Nat} {out : List Byte} (h : out.length = rs) (b : Byte) : emit rs b out = none := if_pos h

theorem emit_of_lt {rs : Nat} {out : List Byte} (h : out.length < rs) (b : Byte) : emit rs b out = some (b :: out) :=
  if_neg h.ne

/-- A copy that fits keeps the output so far, and each new byte is the one `d` before it. -/
theorem copyBack_of_fits {rs d len : Nat} {out : List Byte} (hd : 1 ≤ d) (hout : d ≤ out.length)
    (h : out.length + len ≤ rs) :
    ∃ out', copyBack rs d len out = some out' ∧ out'.length = out.length + len ∧ out'.drop len = out ∧
      ∀ k, k < len → out'[k]? = out'[k + d]? := by
  induction len generalizing out with
  | zero => exact ⟨out, rfl, rfl, rfl, nofun⟩
  | succ len ih =>
    obtain ⟨out', hcopy, hlen, hkeep, hrepeat⟩ :=
      ih (out := out.getD (d - 1) 0#8 :: out) (Nat.le_succ_of_le hout) (by rw [List.length_cons]; omega)
    refine ⟨out', ?_, ?_, ?_, fun k hk => ?_⟩
    · rw [copyBack, emit_of_lt (by omega)]
      exact hcopy
    · rw [hlen, List.length_cons]
      omega
    · rw [List.drop_add_one_eq_tail_drop, hkeep]
      rfl
    · rcases Nat.lt_succ_iff_lt_or_eq.1 hk with hlt | rfl
      · exact hrepeat k hlt
      · have hdrop (j : Nat) : out'[k + j]? = (out.getD (d - 1) 0#8 :: out)[j]? := by rw [← hkeep, List.getElem?_drop]
        have hback : (out.getD (d - 1) 0#8 :: out)[d]? = out[d - 1]? := by
          rw [List.getElem?_cons, if_neg (Nat.one_le_iff_ne_zero.1 hd)]
        calc out'[k]? = some (out.getD (d - 1) 0#8) := hdrop 0
          _ = out[d - 1]? := by rw [List.getD_eq_getElem _ _ (by omega), List.getElem?_eq_getElem]
          _ = out'[k + d]? := by rw [hdrop, hback]

/-- A copy that does not fit fails at the byte for which there is no room. -/
theorem copyBack_of_overrun {rs d len : Nat} {out : List Byte} (hout : out.length ≤ rs) (h : rs < out.length + len) :
    copyBack rs d len out = none := by
  induction len generalizing out with
  | zero => omega
  | succ len ih =>
    rw [copyBack]
    by_cases hfull : out.length = rs
    · rw [emit_of_full hfull]
      rfl
    · rw [emit_of_lt (by omega)]
      exact ih (out := _ :: out) (by rw [List.length_cons]; omega) (by rw [List.length_cons]; omega)

/-- Settles O45: the copy fits, or it runs into the end of the output. -/
theorem backReferenceRepeatsOutput : Obligations.BackReferenceRepeatsOutput := by
  intro rs d len out hd hout hrs
  by_cases h : out.length + len ≤ rs
  · obtain ⟨out', hcopy, hres⟩ := copyBack_of_fits hd hout h
    rw [hcopy]
    refine ⟨iff_of_true rfl h, ?_⟩
    rintro _ ⟨⟩
    exact hres
  · rw [copyBack_of_overrun hrs (Nat.lt_of_not_le h)]
    exact ⟨iff_of_false nofun h, nofun⟩

/-! ## Adler-32 (43_inflate.md R205) -/

/-- The sum of a run of bytes, each weighted by how many bytes there are from it on. -/
def weightedSum (out : List Byte) : Nat :=
  ((List.range out.length).map fun i => (out.length - i) * (out.getD i 0#8).toNat).sum

theorem weightedSum_cons (v : Byte) (out : List Byte) :
    weightedSum (v :: out) = (out.length + 1) * v.toNat + weightedSum out := by
  rw [weightedSum, List.length_cons, List.range_succ_eq_map, List.map_cons, List.sum_cons, List.map_map]
  congr 1
  refine congrArg List.sum (List.map_congr_left fun i _ => ?_)
  simp

/-- The two sums from any start; modulo 65521 they may be reduced at the end alone. -/
theorem foldl_adlerStep (out : List Byte) (a b : Nat) :
    out.foldl adlerStep (a % 65521, b % 65521) =
      ((a + (out.map (·.toNat)).sum) % 65521, (b + out.length * a + weightedSum out) % 65521) := by
  induction out generalizing a b with
  | nil => simp [weightedSum]
  | cons v out ih =>
    rw [List.foldl_cons, adlerStep]
    simp only [Nat.mod_add_mod, Nat.add_mod_mod]
    rw [ih, weightedSum_cons, List.map_cons, List.sum_cons, List.length_cons]
    congr 2
    · ring
    · ring

/-- The two sums in the two halves of the checksum. -/
theorem adler32_eq (out : List Byte) :
    adler32 out = (out.length + weightedSum out) % 65521 * 2 ^ 16 + (1 + (out.map (·.toNat)).sum) % 65521 := by
  have hfold := foldl_adlerStep out 1 0
  have hlow : (1 + (out.map (·.toNat)).sum) % 65521 < 2 ^ 16 := by omega
  rw [Nat.mul_one, Nat.zero_add] at hfold
  rw [adler32, show ((1, 0) : Nat × Nat) = (1 % 65521, 0 % 65521) from rfl, hfold, ← Nat.shiftLeft_add_eq_or_of_lt hlow,
    Nat.shiftLeft_eq]

/-- Settles O46: the fold keeps both sums modulo 65521, and each fits its half of the word. -/
theorem adlerSums : Obligations.AdlerSums := by
  refine ⟨fun out => ?_, by decide, by decide⟩
  have hlow : (1 + (out.map (·.toNat)).sum) % 65521 < 2 ^ 16 := by omega
  rw [adler32_eq, ← weightedSum]
  exact ⟨by omega, by omega⟩

/-! ## Whole bytes of the input -/

/-- Bytes on a byte boundary are read as their little-endian integer. -/
theorem getBits_wholeBytes (xs ys zs : List Byte) :
    getBits (xs ++ ys ++ zs) (8 * ys.length) (8 * xs.length) =
      some (leNat ys, 8 * (xs ++ ys).length) := by
  have hvalue : leNat (xs ++ ys ++ zs) / 2 ^ (8 * xs.length) % 2 ^ (8 * ys.length) = leNat ys := by
    rw [← leNat_drop, List.append_assoc, List.drop_left, leNat_append, Nat.add_mul_mod_self_left,
      Nat.mod_eq_of_lt (leNat_lt ys)]
  rw [getbitsReadsLeastSignificantFirst, if_pos, hvalue, List.length_append, Nat.mul_add]
  right
  simp only [List.length_append]
  omega

/-- The two bytes of a 16-bit length (43_inflate.md R198). -/
def lengthBytes (n : Nat) : List Byte := [BitVec.ofNat 8 n, BitVec.ofNat 8 (n / 256)]

theorem lengthBytes_length (n : Nat) : 8 * (lengthBytes n).length = 16 := rfl

theorem leNat_lengthBytes {n : Nat} (h : n < 2 ^ 16) : leNat (lengthBytes n) = n := by
  simp only [lengthBytes, leNat, BitVec.toNat_ofNat]
  omega

/-- The four bytes of the trailer, most significant first (43_inflate.md R195). -/
def trailerBytes (v : Nat) : List Byte :=
  [BitVec.ofNat 8 (v / 2 ^ 24), BitVec.ofNat 8 (v / 2 ^ 16), BitVec.ofNat 8 (v / 2 ^ 8), BitVec.ofNat 8 v]

theorem beNat_trailerBytes {v : Nat} (h : v < 2 ^ 32) : beNat (trailerBytes v) = v := by
  simp only [trailerBytes, beNat, List.foldl_cons, List.foldl_nil, BitVec.toNat_ofNat]
  omega

theorem adler32_lt (out : List Byte) : adler32 out < 2 ^ 32 := by
  rw [adler32_eq]
  omega

/-! ## Stored blocks (43_inflate.md R198) -/

theorem alignByte_mul (k : Nat) : alignByte (8 * k) = 8 * k := by
  unfold alignByte
  omega

/-- A stored copy that fits puts the bytes of the input before the output so far, newest first. -/
theorem copyStored_of_fits {rs : Nat} {d out : List Byte} (h : out.length + d.length ≤ rs) (xs zs : List Byte) :
    copyStored (xs ++ d ++ zs) rs d.length (8 * xs.length) out =
      some (8 * (xs ++ d).length, d.reverse ++ out) := by
  induction d generalizing xs out with
  | nil => rw [List.append_nil]; rfl
  | cons v d ih =>
    rw [List.length_cons] at h
    have hread : getBits (xs ++ v :: d ++ zs) 8 (8 * xs.length) = some (v.toNat, 8 * (xs ++ [v]).length) := by
      have hbyte := getBits_wholeBytes xs [v] (d ++ zs)
      simpa [leNat] using hbyte
    have hrest := ih (out := v :: out) (by rw [List.length_cons]; omega) (xs ++ [v])
    rw [List.length_cons, copyStored, hread, Option.bind_eq_bind, Option.bind_some]
    dsimp only
    rw [BitVec.ofNat_toNat, BitVec.setWidth_eq, emit_of_lt (by omega), Option.bind_eq_bind, Option.bind_some]
    simpa using hrest

/-- A stored block that fits gives the bytes between its two lengths and `zs`. -/
theorem storedBlock_of_fits {rs pos : Nat} {d xs : List Byte} (hd : d.length < 2 ^ 16) (hrs : d.length ≤ rs)
    (hpos : alignByte pos = 8 * xs.length) (zs : List Byte) :
    storedBlock (xs ++ lengthBytes d.length ++ lengthBytes (0xFFFF - d.length) ++ d ++ zs) rs pos [] =
      some (8 * (xs ++ lengthBytes d.length ++ lengthBytes (0xFFFF - d.length) ++ d).length, d.reverse) := by
  have hlen := getBits_wholeBytes xs (lengthBytes d.length) (lengthBytes (0xFFFF - d.length) ++ d ++ zs)
  have hnlen := getBits_wholeBytes (xs ++ lengthBytes d.length) (lengthBytes (0xFFFF - d.length)) (d ++ zs)
  have hcopy := copyStored_of_fits (d := d) (out := []) (by simpa using hrs)
    (xs ++ lengthBytes d.length ++ lengthBytes (0xFFFF - d.length)) zs
  rw [leNat_lengthBytes hd, lengthBytes_length] at hlen
  rw [leNat_lengthBytes (by omega), lengthBytes_length] at hnlen
  simp only [← List.append_assoc] at hlen hnlen
  simp only [storedBlock, hpos, hlen, hnlen, hcopy, Option.bind_eq_bind, Option.bind_some, List.append_nil,
    ne_eq, not_true_eq_false, if_false]

/-! ## A stream of one stored block -/

theorem storedStream_eq (d : List Byte) :
    storedStream d = [0x78#8, 0x01#8, 0x01#8] ++ lengthBytes d.length ++ lengthBytes (0xFFFF - d.length) ++ d ++
      trailerBytes (adler32 d) := rfl

/-- The header and the three bits of the block header: final, stored (43_inflate.md R194, R197). -/
theorem storedStream_header (d : List Byte) :
    zlibHeader (storedStream d) = some 16 ∧ getBits (storedStream d) 1 16 = some (1, 17) ∧
      getBits (storedStream d) 2 17 = some (0, 19) := by
  obtain ⟨rest, hrest⟩ : ∃ rest, storedStream d = [0x78#8, 0x01#8, 0x01#8] ++ rest := ⟨_, rfl⟩
  rw [hrest]
  exact ⟨(zlibHeader_readsFrom _ rest _ (by decide)).2, (getBits_readsFrom _ rest 1 16 _ (by decide)).2,
    (getBits_readsFrom _ rest 2 17 _ (by decide)).2⟩

theorem trailerOk_trailerBytes (xs out : List Byte) :
    trailerOk (xs ++ trailerBytes (adler32 out)) (8 * xs.length) out = true := by
  have hdrop : (xs ++ trailerBytes (adler32 out)).drop (8 * xs.length / 8) = trailerBytes (adler32 out) := by
    rw [Nat.mul_div_cancel_left _ (by omega), List.drop_left]
  have htake : (trailerBytes (adler32 out)).take 4 = trailerBytes (adler32 out) := rfl
  have hfour : (trailerBytes (adler32 out)).length = 4 := rfl
  simp only [trailerOk, alignByte_mul, hdrop, htake, hfour, beNat_trailerBytes (adler32_lt out), beq_self_eq_true,
    Bool.and_self]

/-- Settles O42: the stream is its header, one final stored block, and the trailer of its data. -/
theorem storedStreamInflatesToItsData : Obligations.StoredStreamInflatesToItsData := by
  intro d hd
  obtain ⟨hheader, hfinal, htype⟩ := storedStream_header d
  have hblock := storedBlock_of_fits (pos := 19) (xs := [0x78#8, 0x01#8, 0x01#8]) hd (Nat.le_refl _) rfl
    (trailerBytes (adler32 d))
  have htrailer := trailerOk_trailerBytes
    ([0x78#8, 0x01#8, 0x01#8] ++ lengthBytes d.length ++ lengthBytes (0xFFFF - d.length) ++ d) d
  rw [← storedStream_eq] at hblock htrailer
  simp only [zinflate, zinflateWithin, blockLoop, blockBody, hheader, hfinal, htype, hblock, List.reverse_reverse,
    List.length_reverse, htrailer, Option.bind_eq_bind, Option.bind_some, if_true, beq_self_eq_true, Bool.and_self]

end Sys2Proof.Machine
end

section
/-! PROOFS. The command `INFLATE` (43_inflate.md R190): its check phase, a result that is stored, and a failure. -/

namespace Sys2Proof.Machine
open Sys2Proof

/-- Settles O39: the length is the last check of `ZINFLATE`. -/
theorem zinflateGivesExactLength : Obligations.ZinflateGivesExactLength := fun _ _ _ h => zinflateWithin_length h

/-- `INFLATE`, where its checks pass, places what the stream at `SRC` inflates to. -/
theorem exec_inflate {s : State} (hcs : 0 ≤ s.csize.toInt) (hrs : 0 ≤ s.rsize.toInt)
    (hsrc : s.src.toNat + s.csize.toNat ≤ s.params.wmemSize) (hdst : s.dst.toNat + s.rsize.toNat ≤ s.params.wmemSize)
    (hsep : ¬ shareByte s.src.toNat s.csize.toNat s.dst.toNat s.rsize.toNat) :
    exec .inflate s =
      .next (s.placeResult (zinflate (s.memRead s.src.toNat s.csize.toNat) s.rsize.toNat)) := by
  have hcheck : checkInflate s = none := by
    rw [checkInflate_none, State.csizeNat_eq hcs, State.rsizeNat_eq hrs, ← Bool.not_eq_true, overlap_iff]
    exact ⟨hcs, hrs, hsrc, hdst, hsep⟩
  rw [exec_of_check_none (i := .inflate) hcheck, executed, State.csizeNat_eq hcs, State.rsizeNat_eq hrs]

/-- Settles O15: the bytes that the stream inflates to are written over the output range. -/
theorem inflateStoresTheData : Obligations.InflateStoresTheData := by
  intro s out hcs hrs hsrc hdst hsep hu hout
  have hbytes (x : Nat) : (s.placeResult (some out)).byteAt x = s.storedByte s.dst.toNat out x := by
    rw [State.placeResult_some hu]
    exact State.byteAt_memWrite s s.dst.toNat out x
  have hexec := exec_inflate hcs hrs hsrc hdst hsep
  rw [hout] at hexec
  refine ⟨_, hexec, ?_, ?_, hbytes⟩
  · rw [State.placeResult_some hu]
    rfl
  · rw [← zinflateGivesExactLength _ _ _ hout]
    exact State.memRead_eq_of_storedByte hbytes

/-- Settles O16: the end of a failing command draws its output range. -/
theorem inflateFailureLeavesResultUnspecified : Obligations.InflateFailureLeavesResultUnspecified := by
  intro s hcs hrs hsrc hdst hsep hu hout
  have hexec := exec_inflate hcs hrs hsrc hdst hsep
  rw [hout, State.placeResult_none hu] at hexec
  refine ⟨_, hexec, rfl, fun x hlo hhi => ⟨s.draws, Nat.le_refl _, ?_⟩, fun x hx => ?_⟩
  · exact State.byteAt_endUnspecified_inside _ _ ⟨hlo, by rwa [State.rsizeNat_eq hrs]⟩
  · exact State.byteAt_endUnspecified_outside _ _ (by rwa [State.rsizeNat_eq hrs])

end Sys2Proof.Machine
end

section
/-! PROOFS. Control (44_control.md): the registers a command keeps (R255), what `STATUS` reads after it (R253), the host's reads
and writes of the register map (R251, R252), and the command `NOP` (R250). -/

namespace Sys2Proof.Machine
open Sys2Proof

/-! ## The registers a command keeps -/

/-- Placing a result changes `OUTLEN`, `wmem`, `draws` and the status alone. -/
theorem State.placeResult_frame (r : Option (List Byte)) (s : State) :
    s.placeResult r =
      { s with
        outlen := (s.placeResult r).outlen, wmem := (s.placeResult r).wmem, draws := (s.placeResult r).draws
        phase := .idle, done := true, err := (s.placeResult r).err, ecode := (s.placeResult r).ecode
        hostWroteFootprint := false, hostWroteInput := false } := by
  rcases s.placeResult_cases r with ⟨_, h⟩ | ⟨_, _, h⟩ | ⟨out, _, _, h⟩ <;> rw [h]
  · rfl
  · rfl
  · rw [s.writeOutput_frame s.opDst out]
    rfl

/-- What a failing check and the execute phase both keep, the command keeps. -/
theorem endState_keeps {α : Type} {f : State → α} {i : Instr} {s : State} (herror : ∀ e, f (s.complete (some e)) = f s)
    (hexecuted : f (executed i s) = f s) : f (endState i s) = f s := by
  cases hc : checkOf i s with
  | none => rw [endState_ok hc, hexecuted]
  | some e => rw [endState_error hc, herror]

theorem State.decipherInPlace_blk0 (m : CipherMode) (s : State) : (s.decipherInPlace m).blk0 = s.blk0 := by
  rw [s.decipherInPlace_frame m]

theorem State.decipherInPlace_blk1 (m : CipherMode) (s : State) : (s.decipherInPlace m).blk1 = s.blk1 := by
  rw [s.decipherInPlace_frame m]

theorem State.decipherInPlace_outlen (m : CipherMode) (s : State) : (s.decipherInPlace m).outlen = s.outlen := by
  rw [s.decipherInPlace_frame m]

theorem State.placeResult_blk0 (r : Option (List Byte)) (s : State) : (s.placeResult r).blk0 = s.blk0 := by
  rw [s.placeResult_frame r]

theorem State.placeResult_blk1 (r : Option (List Byte)) (s : State) : (s.placeResult r).blk1 = s.blk1 := by
  rw [s.placeResult_frame r]

theorem State.placeResult_cycle (r : Option (List Byte)) (s : State) : (s.placeResult r).cycle = s.cycle := by
  rw [s.placeResult_frame r]

/-- `BLK0` and `BLK1` are changed by `DESBLK` and `SHUFBLK` alone (44_control.md R255). -/
theorem executed_blk {i : Instr} (hdes : i ≠ .desblk) (hshuf : i ≠ .shufblk) (s : State) :
    (executed i s).blk0 = s.blk0 ∧ (executed i s).blk1 = s.blk1 := by
  cases i with
  | nop => exact ⟨rfl, rfl⟩
  | desblk => exact absurd rfl hdes
  | shufblk => exact absurd rfl hshuf
  | cycle => exact ⟨rfl, rfl⟩
  | dechdr => exact ⟨s.decipherInPlace_blk0 _, s.decipherInPlace_blk1 _⟩
  | decmix => exact ⟨s.decipherInPlace_blk0 _, s.decipherInPlace_blk1 _⟩
  | decipher => exact ⟨s.decipherInPlace_blk0 _, s.decipherInPlace_blk1 _⟩
  | inflate => exact ⟨s.placeResult_blk0 _, s.placeResult_blk1 _⟩
  | extract =>
    exact ⟨(State.placeResult_blk0 _ _).trans (s.decipherInPlace_blk0 _),
      (State.placeResult_blk1 _ _).trans (s.decipherInPlace_blk1 _)⟩

/-- `OUTLEN` is changed by `INFLATE` and `EXTRACT` alone (10_state.md R34). -/
theorem executed_outlen {i : Instr} (hinf : i ≠ .inflate) (hext : i ≠ .extract) (s : State) :
    (executed i s).outlen = s.outlen := by
  cases i with
  | nop => rfl
  | desblk => rfl
  | shufblk => rfl
  | cycle => rfl
  | dechdr => exact s.decipherInPlace_outlen _
  | decmix => exact s.decipherInPlace_outlen _
  | decipher => exact s.decipherInPlace_outlen _
  | inflate => exact absurd rfl hinf
  | extract => exact absurd rfl hext

/-- `CYCLE` is changed by `CYCLE` and by the commands that can run mixed mode alone (10_state.md R35). -/
theorem executed_cycle {i : Instr} (hcyc : i ≠ .cycle) (hmix : i ≠ .decmix) (hdec : i ≠ .decipher) (hext : i ≠ .extract)
    (s : State) : (executed i s).cycle = s.cycle := by
  cases i with
  | nop => rfl
  | desblk => rfl
  | shufblk => rfl
  | cycle => exact absurd rfl hcyc
  | dechdr => exact s.decipherInPlace_cycle .header
  | decmix => exact absurd rfl hmix
  | decipher => exact absurd rfl hdec
  | inflate => exact s.placeResult_cycle _
  | extract => exact absurd rfl hext

/-- Settles O23: by the frame of every command for the operand registers, and per command for the result registers. -/
theorem commandsKeepOperandRegisters : Obligations.CommandsKeepOperandRegisters := by
  intro i s t h
  rw [exec_next.1 h]
  have hf := (endState_completed i s).frame
  refine ⟨?_, ?_, ?_, ?_, ?_, ?_, ?_, ?_, ?_, fun hdes hshuf => ?_, fun hinf hext => ?_, fun hcyc hmix hdec hext => ?_⟩
  iterate 9 rw [hf]
  · obtain ⟨hblk0, hblk1⟩ := executed_blk hdes hshuf s
    exact ⟨endState_keeps (f := State.blk0) (fun _ => rfl) hblk0, endState_keeps (f := State.blk1) (fun _ => rfl) hblk1⟩
  · exact endState_keeps (f := State.outlen) (fun _ => rfl) (executed_outlen hinf hext s)
  · exact endState_keeps (f := State.cycle) (fun _ => rfl) (executed_cycle hcyc hmix hdec hext s)

/-! ## `STATUS` after a command -/

/-- A byte shifted up by 8 bits, cut where the fields of `STATUS` are. -/
theorem setWidth_shiftLeft_eq_append (code : BitVec 8) :
    (code.setWidth 32 <<< 8 : Word) = 0#16 ++ code ++ 0#4 ++ 0#1 ++ 0#1 ++ 0#1 ++ 0#1 := by
  apply BitVec.eq_of_toNat_eq
  iterate 6 rw [BitVec.toNat_append]
  simp only [BitVec.toNat_shiftLeft, BitVec.toNat_setWidth, Nat.reducePow, BitVec.toNat_ofNat, Nat.zero_mod,
    Nat.zero_shiftLeft, Nat.zero_or, Nat.or_zero, pow_one]
  omega

/-- The `STATUS` word as `ECODE` above its four flag bits (44_control.md R252). -/
theorem State.statusWord_eq_or (s : State) :
    s.statusWord = (s.ecode.setWidth 32 <<< 8) |||
      (0#28 ++ bit1 s.werr ++ bit1 s.err ++ bit1 s.done ++ bit1 s.busy) := by
  have hpad : 0#28 = 0#16 ++ 0#8 ++ 0#4 := rfl
  rw [setWidth_shiftLeft_eq_append, hpad]
  iterate 6 rw [BitVec.or_append]
  simp only [BitVec.or_zero, BitVec.zero_or, State.statusWord]

/-- After a command the flag bits are `WERR`, `ERR` where the code is not 0x00, `DONE` = 1 and `BUSY` = 0. -/
theorem endState_statusWord (i : Instr) (s : State) :
    (endState i s).statusWord = (endState i s).ecode.setWidth 32 <<< 8 |||
      (0#28 ++ bit1 s.werr ++ bit1 (decide ((endState i s).ecode ≠ 0x00#8)) ++ 1#1 ++ 0#1) := by
  have hf := (endState_completed i s).frame
  rw [State.statusWord_eq_or, State.busy, congrArg State.werr hf, congrArg State.err hf, congrArg State.done hf,
    congrArg State.phase hf]
  rfl

/-- Settles O51: the flag bits of a completion are closed but for `WERR`. -/
theorem statusAfterCompletion : Obligations.StatusAfterCompletion := by
  intro i s t h
  rw [exec_next.1 h, endState_statusWord]
  generalize (endState i s).ecode = code
  by_cases hcode : code = 0x00#8
  · rw [if_pos hcode, hcode]
    cases s.werr <;> rfl
  · rw [if_neg hcode, decide_eq_true hcode, BitVec.or_comm 0x00000006#32, BitVec.or_assoc]
    cases s.werr <;> rfl

/-! ## The register map -/

theorem regAt_offset (r : Reg) : regAt r.offset = some r := by cases r <;> rfl

theorem Reg.offset_le (r : Reg) : r.offset ≤ 0x038 := by cases r <;> decide

/-- The reserved offsets hold no register (10_state.md R23). -/
theorem regAt_reserved {off : Nat} (h : 0x038 < off) : regAt off = none := by
  cases hr : regAt off with
  | none => rfl
  | some r =>
    have hle := r.offset_le
    rw [regAt_some hr] at hle
    omega

theorem State.hostReadReg_offset (s : State) (r : Reg) : s.hostReadReg r.offset = s.readReg r := by
  rw [State.hostReadReg, regAt_offset]

theorem State.hostReadReg_reserved {off : Nat} (h : 0x038 < off) (s : State) : s.hostReadReg off = 0#32 := by
  rw [State.hostReadReg, regAt_reserved h]

theorem State.hostWriteReg_offset (s : State) (r : Reg) (v : Word) : s.hostWriteReg r.offset v = s.writeReg r v := by
  rw [State.hostWriteReg, regAt_offset]

theorem State.hostWriteReg_reserved {off : Nat} (h : 0x038 < off) (v : Word) (s : State) : s.hostWriteReg off v = s := by
  rw [State.hostWriteReg, regAt_reserved h]

/-! ## Accesses to the register window -/

theorem State.hostAccess_reg {s : State} {off : Nat} (hlt : off < 0x1000) (ha : off % 4 = 0) (d : BusDir) :
    s.hostAccess ⟨.reg off, 4, d⟩ = .next (s.windowAccess .reg off 4 d) :=
  State.hostAccess_of_window rfl (windowError_reg_eq_none_iff.2 ⟨hlt, rfl, ha⟩)

/-- The absolute address of a register offset resolves to it (20_memory.md R69). -/
theorem resolve_regBase_add (p : Params) {off : Nat} (hlt : off < 0x1000) :
    resolve p (.addr (p.regBase + off)) = some (.reg, off) := by
  rw [resolve, if_pos (by omega), Nat.add_sub_cancel_left]

theorem State.hostAccess_regBase_add {s : State} {off : Nat} (hlt : off < 0x1000) (ha : off % 4 = 0) (d : BusDir) :
    s.hostAccess ⟨.addr (s.params.regBase + off), 4, d⟩ = .next (s.windowAccess .reg off 4 d) :=
  State.hostAccess_of_window (resolve_regBase_add s.params hlt) (windowError_reg_eq_none_iff.2 ⟨hlt, rfl, ha⟩)

/-- A host access is one step, whatever the engine does. -/
theorem step_access {s : State} {op : BusOp} {rest : List Move} (hi : s.inputs = .access op :: rest) :
    step s = State.hostAccess op { s with inputs := rest } := by
  have hturn : s.engineTurn = none := by
    cases hp : s.phase <;> simp only [State.engineTurn, hp, hi]
  simp only [step, advance, hturn, hi, outsideMove]

/-! ## Register reads -/

theorem State.ctrlWord_eq_ite (s : State) : s.ctrlWord = if s.ie then 1#32 else 0#32 := by
  rw [State.ctrlWord]
  cases s.ie <;> rfl

theorem State.resultReg_idle {s : State} (hp : s.phase = .idle) (v : Word) : s.resultReg v = v := by
  simp [State.resultReg, State.busy, hp]

theorem State.resultReg_busy {s : State} (hp : s.phase = .busy) (v : Word) :
    s.resultReg v = Config.freeWord s.draws := by
  simp [State.resultReg, State.busy, hp]

/-- A read of a result register while Busy is a free value (70_reset_and_hazards.md R312). -/
theorem State.readReg_result_busy {s : State} (hp : s.phase = .busy) {r : Reg}
    (hr : r ∈ [Reg.outlen, .cycle, .blk0, .blk1]) : s.readReg r = Config.freeWord s.draws := by
  simp only [List.mem_cons, List.not_mem_nil, or_false] at hr
  rcases hr with rfl | rfl | rfl | rfl <;> exact State.resultReg_busy hp _

theorem State.afterRead_frame (s : State) : s.afterRead = { s with draws := s.afterRead.draws } := by
  rw [State.afterRead]
  split <;> rfl

/-- Settles O50: each offset is a register's, whose read is its field, or reserved. -/
theorem hostReadFollowsRegisterMap : Obligations.HostReadFollowsRegisterMap := by
  intro s
  refine ⟨s.hostReadReg_offset .id, (s.hostReadReg_offset .ctrl).trans s.ctrlWord_eq_ite, s.hostReadReg_offset .status,
    s.hostReadReg_offset .cmd, s.hostReadReg_offset .src, s.hostReadReg_offset .dst, s.hostReadReg_offset .len,
    s.hostReadReg_offset .csize, s.hostReadReg_offset .rsize,
    (s.hostReadReg_offset .type).trans (BitVec.setWidth_eq_append (by decide)),
    fun hp => ⟨?_, ?_, ?_, ?_⟩, fun hp off hoff => ⟨s.draws, Nat.le_refl _, ?_⟩, s.hostReadReg_offset .wmsize,
    fun off h => State.hostReadReg_reserved (by omega) s,
    fun off hlt ha => ⟨_, State.hostAccess_reg hlt ha .read, ?_⟩⟩
  · exact (s.hostReadReg_offset .outlen).trans (State.resultReg_idle hp _)
  · have hread : s.hostReadReg 0x02C = s.cycle.setWidth 32 :=
      (s.hostReadReg_offset .cycle).trans (State.resultReg_idle hp _)
    exact hread.trans (BitVec.setWidth_eq_append (by decide))
  · exact (s.hostReadReg_offset .blk0).trans (State.resultReg_idle hp _)
  · exact (s.hostReadReg_offset .blk1).trans (State.resultReg_idle hp _)
  · obtain ⟨r, hr, rfl⟩ := List.mem_map.1 (show off ∈ [Reg.outlen, .cycle, .blk0, .blk1].map Reg.offset from hoff)
    rw [State.hostReadReg_offset, State.readReg_result_busy hp hr]
  · rw [State.windowAccess, s.afterRead_frame]
    rfl

/-! ## Register writes -/

theorem State.locked_idle {s : State} (hp : s.phase = .idle) (f : State → State) : s.locked f = f s := by
  simp [State.locked, State.busy, hp]

theorem State.locked_busy {s : State} (hp : s.phase = .busy) (f : State → State) :
    s.locked f = { s with werr := true } := by
  simp [State.locked, State.busy, hp]

/-- The registers whose writes are locked while Busy (44_control.md R251). -/
def lockedRegs : List Reg := [.cmd, .src, .dst, .len, .csize, .rsize, .type, .blk0, .blk1]

/-- What a write of a locked register does where it is not ignored (44_control.md R251). -/
def State.storeReg (v : Word) (s : State) : Reg → State
  | .cmd => s.accept v
  | .src => { s with src := v }
  | .dst => { s with dst := v }
  | .len => { s with len := v }
  | .csize => { s with csize := v }
  | .rsize => { s with rsize := v }
  | .type => { s with typ := v.extractLsb' 0 8 }
  | .blk0 => { s with blk0 := v }
  | .blk1 => { s with blk1 := v }
  | _ => s

theorem State.writeReg_eq_locked {r : Reg} (hr : r ∈ lockedRegs) (v : Word) (s : State) :
    s.writeReg r v = s.locked fun s => s.storeReg v r := by
  simp only [lockedRegs, List.mem_cons, List.not_mem_nil, or_false] at hr
  rcases hr with rfl | rfl | rfl | rfl | rfl | rfl | rfl | rfl | rfl <;> rfl

/-- A locked write while Busy is ignored and sets `WERR` (10_state.md R22). -/
theorem State.hostWriteReg_busy {s : State} (hp : s.phase = .busy) {r : Reg} (hr : r ∈ lockedRegs) (v : Word) :
    s.hostWriteReg r.offset v = { s with werr := true } := by
  rw [State.hostWriteReg_offset, State.writeReg_eq_locked hr, State.locked_busy hp]

theorem State.hostWriteReg_idle {s : State} (hp : s.phase = .idle) {r : Reg} (hr : r ∈ lockedRegs) (v : Word) :
    s.hostWriteReg r.offset v = s.storeReg v r := by
  rw [State.hostWriteReg_offset, State.writeReg_eq_locked hr, State.locked_idle hp]

/-- A W1C write of `STATUS`, bit by bit (44_control.md R251). -/
theorem State.writeStatus_eq (s : State) (v : Word) :
    s.writeStatus v =
      { s with
        done := if v.getLsbD 1 then false else s.done
        err := if v.getLsbD 2 then false else s.err
        ecode := if v.getLsbD 2 then 0x00#8 else s.ecode
        werr := if v.getLsbD 3 then false else s.werr } := by
  have hclear (flag bit : Bool) : (flag && !bit) = if bit then false else flag := by cases bit <;> simp
  simp only [State.writeStatus, hclear]

/-- Settles O49: each offset is a register's, locked while Busy or not, or one that ignores the write. -/
theorem hostWriteFollowsRegisterMap : Obligations.HostWriteFollowsRegisterMap := by
  intro s v
  refine ⟨s.hostWriteReg_offset .ctrl v, (s.hostWriteReg_offset .status v).trans (s.writeStatus_eq v),
    fun hp off hoff => ?_, fun hp => ?_, fun off hoff => ?_, fun off hlt ha => ?_, fun op rest hi => step_access hi⟩
  · obtain ⟨r, hr, rfl⟩ := List.mem_map.1 (show off ∈ lockedRegs.map Reg.offset from hoff)
    exact State.hostWriteReg_busy hp hr v
  · have hidle (r : Reg) (hr : r ∈ lockedRegs) := State.hostWriteReg_idle hp hr v
    exact ⟨hidle .cmd (by decide), hidle .src (by decide), hidle .dst (by decide), hidle .len (by decide),
      hidle .csize (by decide), hidle .rsize (by decide), hidle .type (by decide), hidle .blk0 (by decide),
      hidle .blk1 (by decide)⟩
  · rcases hoff with rfl | rfl | rfl | h
    · exact s.hostWriteReg_offset .id v
    · exact s.hostWriteReg_offset .outlen v
    · exact s.hostWriteReg_offset .cycle v
    · rcases Nat.eq_or_lt_of_le h with rfl | hlt
      · exact s.hostWriteReg_offset .wmsize v
      · exact State.hostWriteReg_reserved hlt v s
  · exact ⟨State.hostAccess_reg hlt ha _, State.hostAccess_regBase_add hlt ha _⟩

/-! ## `NOP` -/

theorem exec_nop (s : State) : exec .nop s = .next (s.afterCompletion 0x00#8) := rfl

/-- Every completion raises `irq` where `IE` = 1 (60_exceptions.md R280). -/
theorem endState_irq (i : Instr) (s : State) : (endState i s).irq = s.ie := by
  rw [State.irq, (endState_completed i s).frame, Bool.and_true]

theorem endState_phase (i : Instr) (s : State) : (endState i s).phase = .idle := by
  rw [(endState_completed i s).frame]

theorem endState_inputs (i : Instr) (s : State) : (endState i s).inputs = s.inputs := by
  rw [(endState_completed i s).frame]

/-- `cmd` (30_encoding.md R101) with the engine Idle is the acceptance of the command's word. -/
theorem step_cmdMove_idle {s : State} (hp : s.phase = .idle) {i : Instr} {rest : List Move}
    (hi : s.inputs = cmdMove i :: rest) :
    step s = .next ((State.accept (encode i) { s with inputs := rest }).answer .written) := by
  rw [step_access hi, State.hostAccess_reg (by decide) (by decide), State.windowAccess, Reg.offset,
    State.hostWriteReg_cmd_idle (s := { s with inputs := rest }) hp]

/-- `cmd` followed by `wait` (30_encoding.md R101), run from an Idle engine, is acceptance, completion, and the read of
`STATUS` that ends the `wait`. -/
theorem run_cmdMove_wait {s : State} (hp : s.phase = .idle) {i : Instr} {rest : List Move}
    (hi : s.inputs = cmdMove i :: .wait :: rest) :
    ∃ u t : State, u.werr = s.werr ∧ exec i u = .next t ∧
      Host.Core.run core 3 s = .next ({ t with inputs := rest } : State).endWait := by
  have haccept := step_cmdMove_idle hp hi
  generalize hu : (State.accept (encode i) { s with inputs := .wait :: rest }).answer .written = u at haccept
  have hturn : u.engineTurn = some u := State.engineTurn_wait (rest := rest) (by rw [← hu]; rfl) (by rw [← hu]; rfl)
  have hcomplete : step u = .next (endState i u) := by
    rw [step_of_turn hturn (i := i) (by rw [← hu]; exact decode_encode i), exec_eq]
  have hwait : step (endState i u) = .next ({ endState i u with inputs := rest } : State).endWait :=
    step_of_idle (m := .wait) (endState_phase i u) (by rw [endState_inputs, ← hu]; rfl)
  refine ⟨u, endState i u, by rw [← hu]; rfl, exec_eq i u, ?_⟩
  rw [run_succ haccept, run_succ hcomplete, run_succ hwait, run_zero]

/-- Nothing happens in a machine that is Idle with nothing to come. -/
theorem step_quiescent {s : State} (hp : s.phase = .idle) (hi : s.inputs = []) : step s = .next s := by
  have hturn : s.engineTurn = none := by simp only [State.engineTurn, hp]
  simp only [step, advance, hturn, hi]

/-- Settles O8: `NOP` is a completion and nothing else; from power-on it is the general run of a command and a `wait`. -/
theorem nopCompletes : Obligations.NopCompletes := by
  refine ⟨rfl, exec_nop, fun s => rfl, fun s t h => ?_, fun s hp => ?_, fun p m => ?_, fun p m => ⟨rfl, ?_⟩⟩
  · rw [exec_next.1 h, endState_irq]
  · rw [State.hostWriteReg_cmd_idle hp]
    exact ⟨rfl, rfl⟩
  · obtain ⟨u, t, hwerr, ht, hrun⟩ :=
      run_cmdMove_wait (s := { State.powerOn p m with inputs := [cmdMove .nop, .wait] }) rfl rfl
    have hcode : t.ecode = 0x00#8 := by cases ht; rfl
    have hoff : u.werr = false := hwerr
    have hstatus : t.statusWord = 0x00000002#32 := by
      rw [statusAfterCompletion .nop u t ht, hoff, if_pos hcode]
      rfl
    exact ⟨_, hrun, congrArg (fun w => some (BusResponse.data w)) hstatus⟩
  · exact step_quiescent rfl rfl

end Sys2Proof.Machine
end

section
/-! PROOFS. Errors (60_exceptions.md): which check of each command fails first (R275), what a failing check leaves unchanged
(R273), and `irq` (R280). -/

namespace Sys2Proof.Machine
open Sys2Proof

/-! ## The check phases as ladders of conditions -/

theorem State.not_inside_eq_decide (s : State) (a n : Nat) : (!s.inside a n) = decide (outsideWmem s a n) := by
  simp only [State.inside, outsideWmem, ← decide_not, not_le]

theorem overlap_eq_decide (a n b k : Nat) : overlap a n b k = decide (shareByte a n b k) :=
  Bool.eq_iff_iff.2 ((overlap_iff a n b k).trans decide_eq_true_iff.symm)

/-- Neighbouring checks with the same code are one check. -/
theorem firstFailure_merge (p q : Prop) [Decidable p] [Decidable q] (e : ErrCode) (l : List (Bool × ErrCode)) :
    firstFailure ((decide p, e) :: (decide q, e) :: l) = firstFailure ((decide (p ∨ q), e) :: l) := by
  simp only [firstFailure_decide, ite_or]

/-- The check of one range (20_memory.md R62). -/
theorem firstFailure_range (s : State) (a n : Nat) :
    firstFailure [(!s.inside a n, .range)] = if outsideWmem s a n then some .range else none := by
  rw [State.not_inside_eq_decide, firstFailure_decide]
  rfl

/-- The checks of an input and an output range (42_extract.md R170, 43_inflate.md R190). -/
theorem firstFailure_range_overlap (s : State) (a n b k : Nat) :
    firstFailure [(!s.inside a n || !s.inside b k, .range), (overlap a n b k, .overlap)] =
      if outsideWmem s a n ∨ outsideWmem s b k then some .range
      else if shareByte a n b k then some .overlap else none := by
  rw [State.not_inside_eq_decide, State.not_inside_eq_decide, ← Bool.decide_or, overlap_eq_decide, firstFailure_decide,
    firstFailure_decide]
  rfl

theorem checkCycle_eq (s : State) : checkCycle s = if s.csize.toInt < 0 then some .malformed else none := by
  rw [checkCycle, firstFailure_decide]
  rfl

theorem checkDechdr_eq (s : State) :
    checkDechdr s =
      if s.len.toInt < 0 ∨ s.len.toInt % 8 ≠ 0 then some .malformed
      else if outsideWmem s s.src.toNat s.len.toNat then some .range else none := by
  rw [checkDechdr, firstFailure_decide]
  refine ite_congr rfl (fun _ => rfl) fun hsizes => ?_
  obtain ⟨hlen, _⟩ := not_or.1 hsizes
  rw [State.lenNat_eq (not_lt.1 hlen), firstFailure_range]

theorem checkDecmix_eq (s : State) :
    checkDecmix s =
      if s.len.toInt < 0 ∨ s.len.toInt % 8 ≠ 0 ∨ s.csize.toInt < 0 then some .malformed
      else if outsideWmem s s.src.toNat s.len.toNat then some .range else none := by
  rw [checkDecmix, firstFailure_decide]
  refine ite_congr rfl (fun _ => rfl) fun hsizes => ?_
  obtain ⟨hlen, _⟩ := not_or.1 hsizes
  rw [State.lenNat_eq (not_lt.1 hlen), firstFailure_range]

theorem checkDecipher_eq (s : State) :
    checkDecipher s =
      if s.len.toInt < 0 ∨ ((s.typ.getLsbD 1 = true ∨ s.typ.getLsbD 2 = true) ∧ s.len.toInt % 8 ≠ 0) ∨
          (s.typ.getLsbD 1 = true ∧ s.csize.toInt < 0) then some .malformed
      else if outsideWmem s s.src.toNat s.len.toNat then some .range else none := by
  rw [checkDecipher, firstFailure_merge, firstFailure_merge, firstFailure_decide]
  simp only [State.mode_ne_none, State.mode_mixed, or_assoc]
  refine ite_congr rfl (fun _ => rfl) fun hsizes => ?_
  obtain ⟨hlen, _⟩ := not_or.1 hsizes
  rw [State.lenNat_eq (not_lt.1 hlen), firstFailure_range]

theorem checkInflate_eq (s : State) :
    checkInflate s =
      if s.csize.toInt < 0 ∨ s.rsize.toInt < 0 then some .malformed
      else if outsideWmem s s.src.toNat s.csize.toNat ∨ outsideWmem s s.dst.toNat s.rsize.toNat then some .range
      else if shareByte s.src.toNat s.csize.toNat s.dst.toNat s.rsize.toNat then some .overlap else none := by
  rw [checkInflate, firstFailure_decide]
  refine ite_congr rfl (fun _ => rfl) fun hsizes => ?_
  obtain ⟨hcs, hrs⟩ := not_or.1 hsizes
  rw [State.csizeNat_eq (not_lt.1 hcs), State.rsizeNat_eq (not_lt.1 hrs), firstFailure_range_overlap]

theorem checkExtract_eq (s : State) :
    checkExtract s =
      if s.len.toInt < 0 ∨ s.csize.toInt < 0 ∨ s.rsize.toInt < 0 ∨
          ((s.typ.getLsbD 1 = true ∨ s.typ.getLsbD 2 = true) ∧ s.len.toInt % 8 ≠ 0) ∨
          s.len.toInt < s.csize.toInt then some .malformed
      else if outsideWmem s s.src.toNat s.len.toNat ∨ outsideWmem s s.dst.toNat s.rsize.toNat then some .range
      else if shareByte s.src.toNat s.len.toNat s.dst.toNat s.rsize.toNat then some .overlap else none := by
  rw [checkExtract, firstFailure_merge, firstFailure_merge, firstFailure_decide]
  simp only [State.mode_ne_none, or_assoc]
  refine ite_congr rfl (fun _ => rfl) fun hsizes => ?_
  obtain ⟨hlen, hrest⟩ := not_or.1 hsizes
  obtain ⟨_, hrest⟩ := not_or.1 hrest
  obtain ⟨hrs, _⟩ := not_or.1 hrest
  rw [State.lenNat_eq (not_lt.1 hlen), State.rsizeNat_eq (not_lt.1 hrs), firstFailure_range_overlap]

/-! ## The code a command ends with -/

/-- The code of the failing check, or the code the execute phase ends with. -/
theorem ecode_of_exec {i : Instr} {s t : State} {c : Option ErrCode} {code : BitVec 8} (h : exec i s = .next t)
    (hc : checkOf i s = c) (hrun : checkOf i s = none → (executed i s).ecode = code) :
    t.ecode = c.elim code ErrCode.code := by
  rw [exec_next.1 h, ← hc]
  cases hcheck : checkOf i s with
  | none => rw [endState_ok hcheck, hrun hcheck, Option.elim_none]
  | some e => rw [endState_error hcheck, State.complete_ecode, completionCode, Option.elim_some]

/-- One rung of a ladder of checks. -/
theorem code_ite (p : Prop) [Decidable p] (e : ErrCode) (c : Option ErrCode) (code : BitVec 8) :
    (if p then some e else c).elim code ErrCode.code = if p then e.code else c.elim code ErrCode.code :=
  apply_ite (fun c : Option ErrCode => c.elim code ErrCode.code) p (some e) c

/-- Where the host did not write the input range, a command that places a result fails exactly where there is none. -/
theorem State.placeResult_ecode {s : State} (h : s.hostWroteInput = false) (r : Option (List Byte)) :
    (s.placeResult r).ecode = if r = none then 0x05#8 else 0x00#8 := by
  rcases s.placeResult_cases r with ⟨htrue, _⟩ | ⟨_, hr, e⟩ | ⟨out, _, hr, e⟩
  · exact absurd (h.symm.trans htrue) (by decide)
  · rw [e, hr]
    rfl
  · rw [e, hr]
    rfl

/-- Placing a result ends with success or `DECOMPRESS_FAIL`, whatever the host did. -/
theorem State.placeResult_ecode_cases (r : Option (List Byte)) (s : State) :
    (s.placeResult r).ecode = 0x00#8 ∨ (s.placeResult r).ecode = 0x05#8 := by
  rcases s.placeResult_cases r with ⟨_, e⟩ | ⟨_, _, e⟩ | ⟨out, _, _, e⟩ <;> rw [e]
  · cases Config.freeBool s.draws with
    | false => exact .inr rfl
    | true => exact .inl rfl
  · exact .inr rfl
  · exact .inl rfl

theorem executed_inflate_ecode {s : State} (hw : s.hostWroteInput = false) (hc : checkInflate s = none) :
    (executed .inflate s).ecode =
      if zinflate (s.memRead s.src.toNat s.csize.toNat) s.rsize.toNat = none then 0x05#8 else 0x00#8 := by
  obtain ⟨hcs, hrs, _⟩ := checkInflate_none.1 hc
  rw [executed, State.placeResult_ecode hw, State.csizeNat_eq hcs, State.rsizeNat_eq hrs]

/-- An entry gives no result exactly where it is compressed and does not inflate. -/
theorem entryResult_eq_none_iff {s : State} :
    entryResult s = none ↔ s.rsize ≠ s.csize ∧ zinflate ((plainPayload s).take s.csize.toNat) s.rsize.toNat = none := by
  by_cases h : s.rsize = s.csize
  · rw [entryResult_of_stored h]
    exact iff_of_false nofun fun hne => hne.1 h
  · rw [entryResult_of_compressed h, and_iff_right h]

theorem executed_extract_ecode {s : State} (hw : s.hostWroteInput = false) (hc : checkExtract s = none) :
    (executed .extract s).ecode =
      if s.rsize ≠ s.csize ∧ zinflate ((plainPayload s).take s.csize.toNat) s.rsize.toNat = none then 0x05#8
      else 0x00#8 := by
  have hmark : (s.decipherInPlace s.mode).hostWroteInput = false := by rw [s.decipherInPlace_frame, hw]
  rw [executed, extractResult_eq_entryResult (checkExtract_eq_none_iff.1 hc), State.placeResult_ecode hmark]
  exact if_congr entryResult_eq_none_iff rfl rfl

/-- Settles O20: the check phase of each command is its ladder, and the execute phase gives the code below the last rung. -/
theorem firstFailingCheckIsReported : Obligations.FirstFailingCheckIsReported := by
  intro s t
  refine ⟨fun h => ?_, fun h => ?_, fun h => ?_, fun h => ?_, fun h => ?_, fun h hw => ?_, fun h hw => ?_⟩
  · rcases h with h | h | h <;> exact ecode_of_exec h rfl fun _ => rfl
  · rw [ecode_of_exec h (checkCycle_eq s) fun _ => rfl, code_ite]
    rfl
  · rw [ecode_of_exec h (checkDechdr_eq s) fun _ => rfl, code_ite, code_ite]
    rfl
  · rw [ecode_of_exec h (checkDecmix_eq s) fun _ => rfl, code_ite, code_ite]
    rfl
  · rw [ecode_of_exec h (checkDecipher_eq s) fun _ => rfl, code_ite, code_ite]
    rfl
  · rw [ecode_of_exec h (checkInflate_eq s) (executed_inflate_ecode hw), code_ite, code_ite, code_ite]
    rfl
  · rw [ecode_of_exec h (checkExtract_eq s) (executed_extract_ecode hw), code_ite, code_ite, code_ite]
    rfl

/-! ## What a failing check leaves unchanged -/

/-- An execute phase ends with success or `DECOMPRESS_FAIL` (60_exceptions.md R273). -/
theorem executed_ecode_cases (i : Instr) (s : State) : (executed i s).ecode = 0x00#8 ∨ (executed i s).ecode = 0x05#8 := by
  cases i with
  | nop => exact .inl rfl
  | desblk => exact .inl rfl
  | shufblk => exact .inl rfl
  | cycle => exact .inl rfl
  | dechdr => exact .inl rfl
  | decmix => exact .inl rfl
  | decipher => exact .inl rfl
  | inflate => exact State.placeResult_ecode_cases _ _
  | extract => exact State.placeResult_ecode_cases _ _

/-- Settles O21: a code that no execute phase gives comes from a failing check, which is a completion alone. -/
theorem checkErrorsTouchNothing : Obligations.CheckErrorsTouchNothing := by
  intro i s t h hok hfail
  rw [exec_next.1 h] at hok hfail ⊢
  cases hc : checkOf i s with
  | none =>
    rw [endState_ok hc] at hok hfail
    exact absurd (executed_ecode_cases i s) (not_or.2 ⟨hok, hfail⟩)
  | some e =>
    rw [endState_error hc]
    rfl

/-! ## `irq` -/

theorem State.hostWriteReg_ctrl (s : State) (v : Word) : s.hostWriteReg 0x004 v = s.writeCtrl v :=
  s.hostWriteReg_offset .ctrl v

theorem State.hostWriteReg_status (s : State) (v : Word) : s.hostWriteReg 0x008 v = s.writeStatus v :=
  s.hostWriteReg_offset .status v

theorem State.irq_of_done_eq_false {s : State} (h : s.done = false) : s.irq = false := by
  rw [State.irq, h, Bool.and_false]

theorem State.softReset_irq (s : State) : s.softReset.irq = false := by
  rcases s.softReset_cases with ⟨_, e⟩ | ⟨_, e⟩ <;> rw [e] <;> rfl

/-- `irq` drives the input `IRQ_LINE` and no other. -/
theorem State.drivesInput_iff {s : State} {n : Nat} :
    s.drivesInput n = true ↔ n = s.params.irqLine ∧ s.irq = true := by
  rw [State.drivesInput, Bool.and_eq_true, beq_iff_eq]

/-- Settles O52: what each event leaves in `DONE` and `IE`. -/
theorem irqFollowsDoneAndEnable : Obligations.IrqFollowsDoneAndEnable := by
  refine ⟨fun _ => rfl, fun _ _ => State.drivesInput_iff, fun i s t h => ?completion, fun s v hv => ?ack,
    fun s w hp => ?acceptance, fun s v hv => ?softReset, fun s v hv => ?enable⟩
  case completion => rw [exec_next.1 h, endState_irq]
  case ack =>
    refine State.irq_of_done_eq_false ?_
    rw [State.hostWriteReg_status, State.writeStatus_done, hv, Bool.not_true, Bool.and_false]
  case acceptance =>
    rw [State.hostWriteReg_cmd_idle hp]
    exact State.irq_of_done_eq_false rfl
  case softReset =>
    rw [State.hostWriteReg_ctrl, State.writeCtrl, if_pos hv, State.softReset_irq]
  case enable =>
    rw [State.hostWriteReg_ctrl, State.writeCtrl, hv, if_neg Bool.false_ne_true, State.irq]

end Sys2Proof.Machine
end

section
/-! PROOFS. Resets and liveness (70_reset_and_hazards.md): what a soft reset clears and what an abandoned command leaves
(R302, R303), and that a Busy engine becomes Idle (R316). -/

namespace Sys2Proof.Machine
open Sys2Proof

/-! ## The soft reset -/

/-- Each byte of the ranges becomes an unspecified value (70_reset_and_hazards.md R303). -/
theorem State.spoilSpans_unspecifiedAt {rs : List Span} {s : State} {x : Nat} (h : inSpans rs x = true) :
    s.unspecifiedAt (s.spoilSpans rs) x := by
  induction rs generalizing s with
  | nil => exact absurd h Bool.false_ne_true
  | cons r rs ih =>
    show s.unspecifiedAt (State.spoilSpans rs (s.spoil r.start r.count)) x
    cases hrs : inSpans rs x with
    | true =>
      obtain ⟨k, hk, hbyte⟩ := ih (s := s.spoil r.start r.count) hrs
      exact ⟨k, Nat.le_of_succ_le hk, hbyte⟩
    | false =>
      have hr : r.start ≤ x ∧ x < r.start + r.count := by
        by_contra hr
        exact absurd h (Bool.eq_false_iff.1 (inSpans_cons_eq_false.2 ⟨hr, hrs⟩))
      refine ⟨s.draws, Nat.le_refl _, ?_⟩
      rw [State.byteAt_spoilSpans_outside _ _ _ hrs, State.byteAt_spoil, if_pos hr]

/-- A soft reset clears the registers of a state `u` that differs from `s` in the footprint of an abandoned command at most. -/
theorem State.softReset_clears (s : State) :
    ∃ u : State, s.softReset = u.clearRegisters ∧ u.params = s.params ∧ u.inputs = s.inputs ∧
      (s.phase = .idle → u.wmem = s.wmem) ∧
      (s.phase = .busy → ∀ x, inSpans s.footprint x = true → s.unspecifiedAt u x) ∧
      (∀ x, s.phase = .idle ∨ inSpans s.footprint x = false → u.byteAt x = s.byteAt x) := by
  rcases s.softReset_cases with ⟨hp, e⟩ | ⟨hp, e⟩
  · have hbusy : s.phase ≠ .idle := by rw [hp]; decide
    refine ⟨s.abandon, e, s.abandon_params, ?_, fun h => absurd h hbusy, fun _ x => State.spoilSpans_unspecifiedAt,
      fun x hx => ?_⟩
    · rw [State.abandon, s.spoilSpans_frame]
    · exact State.byteAt_spoilSpans_outside _ _ _ (hx.resolve_left hbusy)
  · have hidle : s.phase ≠ .busy := by rw [hp]; decide
    exact ⟨s, e, rfl, rfl, fun _ => rfl, fun h => absurd h hidle, fun _ _ => rfl⟩

/-- Settles O53: a write of `SRST` is a soft reset, whatever else it writes. -/
theorem softResetClearsRegisters : Obligations.SoftResetClearsRegisters := by
  intro s t v hv ht
  obtain ⟨u, hreset, hparams, _, hidle, hbusy, houtside⟩ := s.softReset_clears
  rw [State.hostWriteReg_ctrl, State.writeCtrl, if_pos hv, hreset] at ht
  rw [ht]
  exact ⟨rfl, rfl, rfl, rfl, rfl, rfl, rfl, rfl, rfl, rfl, rfl, rfl, rfl, rfl, rfl, rfl, rfl, hparams, rfl, hidle, hbusy,
    houtside⟩

/-! ## The moves to come under a host access -/

theorem State.writeCtrl_inputs (s : State) (v : Word) : (s.writeCtrl v).inputs = s.inputs := by
  rw [State.writeCtrl]
  split
  · obtain ⟨u, hreset, _, hinputs, _⟩ := s.softReset_clears
    rw [hreset, State.clearRegisters_inputs, hinputs]
  · rfl

theorem State.hostWriteReg_inputs (s : State) (off : Nat) (v : Word) : (s.hostWriteReg off v).inputs = s.inputs := by
  rw [State.hostWriteReg]
  split
  · rfl
  · next r _ =>
    cases s.writeReg_cases r v with
    | ctrl e => rw [e, State.writeCtrl_inputs]
    | status e => rw [e, State.writeStatus_inputs]
    | accept e => rw [e, State.accept_inputs]
    | operand e => rw [e]

theorem State.windowAccess_inputs (s : State) (w : Window) (off width : Nat) (d : BusDir) :
    (s.windowAccess w off width d).inputs = s.inputs := by
  cases w with
  | reg =>
    cases d with
    | read => rw [State.windowAccess, State.answer_inputs, s.afterRead_frame]
    | write v => exact s.hostWriteReg_inputs off v
  | mem =>
    cases d with
    | read => rw [State.windowAccess, State.answer_inputs, s.afterRead_frame]
    | write v => rw [State.windowAccess, State.answer_inputs, s.hostWriteMem_frame]

/-- A host access leaves the moves to come alone. -/
theorem State.hostAccess_inputs {op : BusOp} {s t : State} (h : s.hostAccess op = .next t) : t.inputs = s.inputs := by
  obtain ⟨w, off, _, _, ht⟩ := State.hostAccess_next h
  rw [ht, State.windowAccess_inputs]

/-! ## The engine becomes Idle -/

/-- The run from `s` reaches an Idle engine or a fault of the host within `n` steps. -/
def IdleWithin (n : Nat) (s : State) : Prop :=
  ∃ k, k ≤ n ∧
    ((∃ t : State, Host.Core.run core k s = .next t ∧ t.phase = .idle) ∨ ∃ f : Fault, Host.Core.run core k s = .fault f)

theorem IdleWithin.of_idle {s : State} (h : s.phase = .idle) (n : Nat) : IdleWithin n s :=
  ⟨0, Nat.zero_le n, .inl ⟨s, run_zero s, h⟩⟩

theorem IdleWithin.of_fault {s : State} {f : Fault} (h : step s = .fault f) (n : Nat) : IdleWithin (n + 1) s :=
  ⟨1, Nat.le_add_left 1 n, .inr ⟨f, run_fault h 0⟩⟩

theorem IdleWithin.of_step {n : Nat} {s t : State} (h : step s = .next t) (ht : IdleWithin n t) :
    IdleWithin (n + 1) s := by
  obtain ⟨k, hk, hrun⟩ := ht
  refine ⟨k + 1, Nat.succ_le_succ hk, ?_⟩
  rwa [run_succ h]

/-- The engine's turn completes the word in `CMD`, a command or not. -/
theorem IdleWithin.of_turn {s u : State} (h : s.engineTurn = some u) (n : Nat) : IdleWithin (n + 1) s := by
  cases hd : decode u.cmd with
  | ok i => exact .of_step ((step_of_turn h hd).trans (exec_eq i u)) (.of_idle (endState_phase i u) n)
  | error e => exact .of_step (step_of_illegal_turn h hd) (.of_idle rfl n)

/-- Each move is the engine's turn, a reset, or an access after which one move less is to come; when none is left, it is the
engine's turn (70_reset_and_hazards.md R316). -/
theorem busy_idleWithin {s : State} {l : List Move} (hp : s.phase = .busy) (hi : s.inputs = l) :
    IdleWithin (l.length + 1) s := by
  induction l generalizing s with
  | nil => exact .of_turn (State.engineTurn_nil hp hi) _
  | cons m l ih =>
    cases m with
    | wait => exact .of_turn (State.engineTurn_wait hp hi) _
    | engine => exact .of_turn (State.engineTurn_engine hp hi) _
    | rst => exact .of_step (step_rst hi) (.of_idle rfl _)
    | access op =>
      have hstep := step_access hi
      rcases State.hostAccess_cases op { s with inputs := l } with ⟨t, ht⟩ | ⟨e, he⟩
      · refine .of_step (hstep.trans ht) ?_
        cases hphase : t.phase with
        | idle => exact .of_idle hphase _
        | busy => exact ih hphase (State.hostAccess_inputs ht)
      · exact .of_fault (hstep.trans he) _

/-- Settles O7, by induction on the list of moves. -/
theorem busyEngineBecomesIdle : Obligations.BusyEngineBecomesIdle := fun _ hp => busy_idleWithin hp rfl

end Sys2Proof.Machine
end

section
/-! PROOFS. Hazards (70_reset_and_hazards.md R311): the host's accesses inside the footprint of a busy command, and how a marked
command ends. -/

namespace Sys2Proof.Machine
open Sys2Proof

/-! ## The host's accesses -/

theorem State.hazardAt_iff {s : State} {a : Nat} :
    s.hazardAt a = true ↔ s.phase = .busy ∧ inSpans s.footprint a = true := by
  rw [State.hazardAt, State.busy, Bool.and_eq_true, beq_iff_eq]

theorem State.touches_hazardAt_iff {s : State} {a n : Nat} :
    touches s.hazardAt a n = true ↔ s.phase = .busy ∧ touchesSpans s.footprint a n := by
  rw [touches_iff]
  constructor
  · rintro ⟨x, hlo, hhi, hx⟩
    obtain ⟨hp, hin⟩ := State.hazardAt_iff.1 hx
    exact ⟨hp, x, hlo, hhi, hin⟩
  · rintro ⟨hp, x, hlo, hhi, hin⟩
    exact ⟨x, hlo, hhi, State.hazardAt_iff.2 ⟨hp, hin⟩⟩

theorem State.hostByte_of_hazard {s : State} {a : Nat} (hp : s.phase = .busy) (ha : inSpans s.footprint a = true) :
    s.hostByte a = Config.freeByte s.draws a := if_pos (State.hazardAt_iff.2 ⟨hp, ha⟩)

theorem State.hostByte_of_no_hazard {s : State} {a : Nat} (h : s.phase = .idle ∨ inSpans s.footprint a = false) :
    s.hostByte a = s.byteAt a := by
  refine if_neg fun hhazard => ?_
  obtain ⟨hp, ha⟩ := State.hazardAt_iff.1 hhazard
  rcases h with h | h
  · exact absurd (hp.symm.trans h) (by decide)
  · exact absurd (ha.symm.trans h) (by decide)

/-- A host write that is no hazard is a plain write. -/
theorem State.hostWriteMem_of_no_hazard {s : State} {a : Nat} {bs : List Byte}
    (h : s.phase = .idle ∨ ¬ touchesSpans s.footprint a bs.length) : s.hostWriteMem a bs = s.memWrite a bs := by
  rcases s.hostWriteMem_cases a bs with ⟨_, e⟩ | ⟨htouch, _⟩
  · exact e
  · obtain ⟨hp, hfoot⟩ := State.touches_hazardAt_iff.1 htouch
    exact absurd hfoot (h.resolve_left (by rw [hp]; decide))

/-- A host write that is a hazard marks the command, and remains as a whole or not at all (20_memory.md R65). -/
theorem State.hostWriteMem_of_hazard {s t : State} {a : Nat} {bs : List Byte} (hp : s.phase = .busy)
    (h : touchesSpans s.footprint a bs.length) (ht : t = s.hostWriteMem a bs) :
    t = { s with
      wmem := t.wmem, draws := t.draws, hostWroteFootprint := true, hostWroteInput := t.hostWroteInput } ∧
    (t.hostWroteInput = true ↔ s.hostWroteInput = true ∨ touchesSpans s.inputRange a bs.length) ∧
    ((∀ x, t.byteAt x = s.storedByte a bs x) ∨ ∀ x, t.byteAt x = s.byteAt x) := by
  have htouch := State.touches_hazardAt_iff.2 ⟨hp, h⟩
  rcases s.hostWriteMem_cases a bs with ⟨hfalse, _⟩ | ⟨_, m, hm, e⟩
  · exact absurd (htouch.symm.trans hfalse) (by decide)
  · rw [ht, e]
    refine ⟨rfl, ?_, ?_⟩
    · rw [Bool.or_eq_true, touches_iff]
      rfl
    · rcases hm with rfl | rfl
      · exact .inl (s.byteAt_memWrite a bs)
      · exact .inr fun _ => rfl

/-! ## Deciphering in place -/

/-- `CYCLE` after a command that runs the mode `TYPE` selects. -/
theorem State.setCycleIn_mode_cycle_of_nonneg {s : State} (h : s.mode = .mixed → 0 ≤ s.csize.toInt) :
    (s.setCycleIn s.mode).cycle = cycleAfterMode s := by
  by_cases hm : s.mode = .mixed
  · rw [hm, State.setCycleIn_mixed, State.setCycle_cycle, State.csizeNat_eq (h hm), cycleAfterMode,
      if_pos (State.mode_mixed.1 hm)]
  · rw [State.setCycleIn, if_neg hm, cycleAfterMode, if_neg (mt State.mode_mixed.2 hm)]

/-- Deciphering in place draws an unspecified byte or none. -/
theorem State.draws_le_decipherInPlace (m : CipherMode) (s : State) : s.draws ≤ (s.decipherInPlace m).draws := by
  rcases s.decipherInPlace_cases m with ⟨_, _, e⟩ | ⟨_, _, e⟩ | ⟨_, e⟩ <;> rw [e]
  · rw [State.memWrite_draws, State.setCycleIn_draws]
  · rw [State.spoil_draws, State.setCycleIn_draws]
    exact Nat.le_succ _

/-- A marked command leaves its payload unspecified, whatever the mode. -/
theorem State.unspecifiedAt_decipherInPlace {s : State} (hw : s.hostWroteFootprint = true) (m : CipherMode) {x : Nat}
    (hx : s.opSrc ≤ x ∧ x < s.opSrc + s.lenNat) : s.unspecifiedAt (s.decipherInPlace m) x := by
  rcases s.decipherInPlace_cases m with ⟨_, hfalse, _⟩ | ⟨_, hfalse, _⟩ | ⟨_, e⟩
  · exact absurd (hw.symm.trans hfalse) (by decide)
  · exact absurd (hw.symm.trans hfalse) (by decide)
  · refine ⟨s.draws, Nat.le_refl _, ?_⟩
    rw [e, State.byteAt_spoil, if_pos hx, State.setCycleIn_draws]

/-- A decipher command whose checks pass deciphers a payload of `LEN` bytes in place, in a mode that leaves `CYCLE` as
41_cipher_modes.md R151, R155 and R159 say. -/
theorem executed_deciphers {i : Instr} {s : State} (hi : i = .dechdr ∨ i = .decmix ∨ i = .decipher)
    (hc : checkOf i s = none) :
    0 ≤ s.len.toInt ∧ ∃ m, executed i s = (s.decipherInPlace m).finish ∧ (s.setCycleIn m).cycle = cycleAfter i s := by
  rcases hi with rfl | rfl | rfl
  · obtain ⟨hlen, _⟩ := checkDechdr_none.1 hc
    exact ⟨hlen, .header, rfl, rfl⟩
  · obtain ⟨hlen, _, hcs, _⟩ := checkDecmix_none.1 hc
    refine ⟨hlen, .mixed, rfl, ?_⟩
    rw [State.setCycleIn_mixed, State.setCycle_cycle, State.csizeNat_eq hcs]
    rfl
  · obtain ⟨hlen, _, hcs, _⟩ := checkDecipher_none.1 hc
    exact ⟨hlen, s.mode, rfl, State.setCycleIn_mode_cycle_of_nonneg hcs⟩

/-- A marked decipher command completes without an error, and its payload is unspecified. -/
theorem exec_decipher_of_marked {i : Instr} {s : State} (hi : i = .dechdr ∨ i = .decmix ∨ i = .decipher)
    (hc : checkOf i s = none) (hw : s.hostWroteFootprint = true) :
    ∃ t, exec i s = .next t ∧
      t = { s with wmem := t.wmem, draws := t.draws, cycle := cycleAfter i s }.afterCompletion 0x00#8 ∧
      (∀ x, s.src.toNat ≤ x → x < s.src.toNat + s.len.toNat → s.unspecifiedAt t x) ∧
      ∀ x, ¬ (s.src.toNat ≤ x ∧ x < s.src.toNat + s.len.toNat) → t.byteAt x = s.byteAt x := by
  obtain ⟨hlen, m, hexec, hcycle⟩ := executed_deciphers hi hc
  refine ⟨(s.decipherInPlace m).finish, by rw [exec_of_check_none hc, hexec], ?_, fun x hlo hhi => ?_, fun x hx => ?_⟩
  · rw [s.decipherInPlace_frame m, hcycle]
    rfl
  · exact State.unspecifiedAt_decipherInPlace hw m ⟨hlo, by rwa [State.lenNat_eq hlen]⟩
  · exact s.byteAt_decipherInPlace_outside m x (by rwa [State.lenNat_eq hlen])

/-! ## Placing a result -/

/-- `d` is the state in which `INFLATE` or `EXTRACT`, run from `s`, places its result: `EXTRACT` has deciphered its payload. -/
structure PlacesFrom (i : Instr) (s d : State) : Prop where
  frame : d = { s with wmem := d.wmem, draws := d.draws, cycle := cycleAfter i s }
  draws : s.draws ≤ d.draws
  payload : s.hostWroteFootprint = true → i = .extract →
    ∀ x, s.src.toNat ≤ x → x < s.src.toNat + s.len.toNat → s.unspecifiedAt d x
  outside : ∀ x, i = .inflate ∨ ¬ (s.src.toNat ≤ x ∧ x < s.src.toNat + s.len.toNat) → d.byteAt x = s.byteAt x

theorem placesFrom_inflate (s : State) : PlacesFrom .inflate s s where
  frame := rfl
  draws := Nat.le_refl _
  payload _ := nofun
  outside _ _ := rfl

theorem placesFrom_extract {s : State} (hc : checkExtract s = none) :
    PlacesFrom .extract s (s.decipherInPlace s.mode) := by
  obtain ⟨hlen, hcs, _⟩ := checkExtract_none.1 hc
  refine ⟨?_, s.draws_le_decipherInPlace s.mode, fun hw _ x hlo hhi => ?_, fun x hx => ?_⟩
  · have hcycle : (s.setCycleIn s.mode).cycle = cycleAfter .extract s := State.setCycleIn_mode_cycle_of_nonneg fun _ => hcs
    have hf := s.decipherInPlace_frame s.mode
    rwa [hcycle] at hf
  · exact State.unspecifiedAt_decipherInPlace hw s.mode ⟨hlo, by rwa [State.lenNat_eq hlen]⟩
  · refine s.byteAt_decipherInPlace_outside s.mode x ?_
    rw [State.lenNat_eq hlen]
    exact hx.resolve_left nofun

/-- `INFLATE` and `EXTRACT`, where their checks pass, end by placing a result of `RSIZE` bytes or none. -/
theorem executed_places {i : Instr} {s : State} (hi : i = .inflate ∨ i = .extract) (hc : checkOf i s = none) :
    0 ≤ s.rsize.toInt ∧ ∃ d r, PlacesFrom i s d ∧ executed i s = d.placeResult r ∧
      ∀ out, r = some out → out.length = s.rsizeNat := by
  rcases hi with rfl | rfl
  · obtain ⟨_, hrs, _⟩ := checkInflate_none.1 hc
    exact ⟨hrs, s, _, placesFrom_inflate s, rfl, fun _ hout => zinflateWithin_length hout⟩
  · obtain ⟨_, _, hrs, _⟩ := checkExtract_none.1 hc
    exact ⟨hrs, s.decipherInPlace s.mode, _, placesFrom_extract hc, rfl, fun _ => extractResult_deciphered_length hc⟩

/-- A marked command leaves its output range unspecified, whether it has a result or not. -/
theorem State.placeResult_of_marked {d : State} (hw : d.hostWroteFootprint = true) {r : Option (List Byte)}
    (hr : ∀ out, r = some out → out.length = d.rsizeNat) : ∃ ok, d.placeResult r = d.endUnspecified ok := by
  rcases d.placeResult_cases r with ⟨_, e⟩ | ⟨_, _, e⟩ | ⟨out, _, hout, e⟩
  · exact ⟨_, e⟩
  · exact ⟨_, e⟩
  · refine ⟨true, ?_⟩
    rw [e, State.writeOutput, if_pos hw, hr out hout]
    rfl

/-- The end of a command that leaves its output range unspecified, over the state it places its result in. -/
theorem PlacesFrom.endUnspecified {i : Instr} {s d t : State} (h : PlacesFrom i s d) (hrs : 0 ≤ s.rsize.toInt) {ok : Bool}
    (ht : t = d.endUnspecified ok) :
    t = { s with wmem := t.wmem, draws := t.draws, outlen := t.outlen, cycle := cycleAfter i s }.afterCompletion
      t.ecode ∧
    t.ecode = (if ok then 0x00#8 else 0x05#8) ∧
    t.outlen = (if ok then s.rsize else s.outlen) ∧
    (∀ x, s.dst.toNat ≤ x → x < s.dst.toNat + s.rsize.toNat → s.unspecifiedAt t x) ∧
    ∀ x, ¬ (s.dst.toNat ≤ x ∧ x < s.dst.toNat + s.rsize.toNat) → t.byteAt x = d.byteAt x := by
  subst ht
  have hdst : d.opDst = s.dst.toNat := by rw [h.frame]
  have hcount : d.rsizeNat = s.rsize.toNat := by rw [h.frame]; exact State.rsizeNat_eq hrs
  refine ⟨?_, ?_, ?_, fun x hlo hhi => ⟨d.draws, h.draws, ?_⟩, fun x hx => ?_⟩
  · rw [h.frame]
    cases ok <;> rfl
  · cases ok <;> rfl
  · rw [h.frame]
    rfl
  · exact State.byteAt_endUnspecified_inside ok d (by rw [hdst, hcount]; exact ⟨hlo, hhi⟩)
  · exact State.byteAt_endUnspecified_outside ok d (by rwa [hdst, hcount])

/-- A marked `INFLATE` or `EXTRACT` succeeds or fails, and its output ranges are unspecified either way. -/
theorem exec_place_of_marked {i : Instr} {s : State} (hi : i = .inflate ∨ i = .extract) (hc : checkOf i s = none)
    (hw : s.hostWroteFootprint = true) :
    ∃ t, exec i s = .next t ∧
      t = { s with wmem := t.wmem, draws := t.draws, outlen := t.outlen, cycle := cycleAfter i s }.afterCompletion
        t.ecode ∧
      ((t.ecode = 0x00#8 ∧ t.outlen = s.rsize) ∨ (t.ecode = 0x05#8 ∧ t.outlen = s.outlen)) ∧
      (∀ x, s.dst.toNat ≤ x → x < s.dst.toNat + s.rsize.toNat → s.unspecifiedAt t x) ∧
      (i = .extract → ∀ x, s.src.toNat ≤ x → x < s.src.toNat + s.len.toNat → s.unspecifiedAt t x) ∧
      ∀ x, ¬ (s.dst.toNat ≤ x ∧ x < s.dst.toNat + s.rsize.toNat) →
        i = .inflate ∨ ¬ (s.src.toNat ≤ x ∧ x < s.src.toNat + s.len.toNat) → t.byteAt x = s.byteAt x := by
  obtain ⟨hrs, d, r, hd, hexec, hr⟩ := executed_places hi hc
  obtain ⟨ok, hok⟩ := State.placeResult_of_marked (d := d) (by rw [hd.frame]; exact hw)
    (r := r) (by rw [hd.frame]; exact hr)
  obtain ⟨hframe, hcode, houtlen, hresult, hkeep⟩ := hd.endUnspecified hrs (ok := ok) rfl
  refine ⟨d.endUnspecified ok, by rw [exec_of_check_none hc, hexec, hok], hframe, ?_, hresult,
    fun hext x hlo hhi => ?_, fun x hdst hsrc => ?_⟩
  · cases ok with
    | true => exact .inl ⟨hcode, houtlen⟩
    | false => exact .inr ⟨hcode, houtlen⟩
  · by_cases hx : s.dst.toNat ≤ x ∧ x < s.dst.toNat + s.rsize.toNat
    · exact hresult x hx.1 hx.2
    · obtain ⟨k, hk, hbyte⟩ := hd.payload hw hext x hlo hhi
      exact ⟨k, hk, (hkeep x hx).trans hbyte⟩
  · rw [hkeep x hdst, hd.outside x hsrc]

/-- Where the host wrote its input range, a free value decides how `INFLATE` or `EXTRACT` ends. -/
theorem exec_place_of_input_written {i : Instr} {s : State} (hi : i = .inflate ∨ i = .extract) (hc : checkOf i s = none)
    (hw : s.hostWroteInput = true) :
    ∃ t k, exec i s = .next t ∧ s.draws ≤ k ∧ t.ecode = (if Config.freeBool k then 0x00#8 else 0x05#8) ∧
      t.outlen = if Config.freeBool k then s.rsize else s.outlen := by
  obtain ⟨hrs, d, r, hd, hexec, _⟩ := executed_places hi hc
  have hplace : d.placeResult r = d.endUnspecified (Config.freeBool d.draws) :=
    if_pos (by rw [hd.frame]; exact hw)
  obtain ⟨_, hcode, houtlen, _⟩ := hd.endUnspecified hrs (ok := Config.freeBool d.draws) rfl
  exact ⟨_, d.draws, by rw [exec_of_check_none hc, hexec, hplace], hd.draws, hcode, houtlen⟩

/-- Settles O27: the host's accesses by whether they are a hazard, and the marked commands by what the marks make them do. -/
theorem hostInterferenceIsConfined : Obligations.HostInterferenceIsConfined :=
  ⟨fun s _ hp ha => ⟨s.draws, Nat.le_refl _, State.hostByte_of_hazard hp ha⟩, fun _ _ => State.hostByte_of_no_hazard,
    fun _ _ _ _ => State.hostWriteMem_of_hazard, fun _ _ _ => State.hostWriteMem_of_no_hazard,
    fun _ _ => exec_decipher_of_marked, fun _ _ => exec_place_of_marked, fun _ _ => exec_place_of_input_written⟩

end Sys2Proof.Machine
end
